-- ==== Sys2Proof/Word.lean ====
section
/-! DEFINITION. The word types of the CORE (00 R12, R13). -/

namespace Sys2Proof

/-- A byte of a buffer or of a byte string (00 R13). -/
abbrev Byte := BitVec 8

/-- A word: 32 bits, unsigned, bit 31 the most significant (00 R12). -/
abbrev Word := BitVec 32

/-- A byte string, first byte first (00 R13). -/
abbrev Bytes := List Byte

end Sys2Proof
end

