-- ==== Sys2Proof/Config.lean ====
section
/-! DEFINITION. What an implementation fixes (00 R8), the constants of the source (00 R9), and the free values of the
GA port (41 R131, R132): no body, so that nothing can be proved of their values. -/

namespace Sys2Proof

/-- A point is a pair of naturals (00 R15). -/
structure Point where
  x : Nat
  y : Nat
deriving DecidableEq, Repr, Inhabited

/-- `INF`: the identity is the pair (0, 0) (00 R15, 41 R134). -/
def Point.inf : Point := ⟨0, 0⟩

/-- A CurveDomain (00 R17): the seven parameters P, A, B, Gx, Gy, N, bitSize. -/
structure Domain where
  p : Nat
  a : Nat
  b : Nat
  gx : Nat
  gy : Nat
  n : Nat
  bits : Nat
deriving DecidableEq, Repr, Inhabited

/-- `G` (00 R15). -/
def Domain.g (d : Domain) : Point := ⟨d.gx, d.gy⟩

/-- The OPEN parameter `COORD_SER` (00 R8, D19). -/
inductive CoordSer where
  | minimal
  | fixed
deriving DecidableEq, Repr

/-- The parameters of 00 R8. `NW = OPBITS / 32` is derived. DESIGN CHOICE (log 1): they stand in `State.cfg`, which no
step changes, so that every statement holds for every value of them. -/
structure Config.Params where
  opBits : Nat
  nctx : Nat
  idCap : Nat
  msgCap : Nat
  outCap : Nat
  defaultDomain : Domain
  coordSer : CoordSer
  retryLimit : Option Nat
deriving DecidableEq, Repr

namespace Config

/-- `NW`: words per operand register (00 R8). -/
def Params.nw (c : Params) : Nat := c.opBits / 32

/-- The legal ranges of the numeric parameters, and that `DEFAULT_DOMAIN` fits the registers it is loaded into (00 R8, 10
R36); that `DEFAULT_DOMAIN` is valid is `ParamsLegal` in Safety. -/
def Params.sized (c : Params) : Bool :=
  c.opBits % 32 = 0 && 256 ≤ c.opBits && c.opBits ≤ 1024
  && 1 ≤ c.nctx && c.nctx ≤ 16
  && c.idCap % 4 = 0 && 4 ≤ c.idCap && c.idCap ≤ 8192
  && c.msgCap % 4 = 0 && 64 ≤ c.msgCap && c.msgCap ≤ 2 ^ 20
  && c.outCap % 4 = 0 && 64 ≤ c.outCap && c.outCap ≤ 2 ^ 20
  && c.defaultDomain.bits ≤ c.opBits
  && c.defaultDomain.p < 2 ^ c.opBits && c.defaultDomain.a < 2 ^ c.opBits && c.defaultDomain.b < 2 ^ c.opBits
  && c.defaultDomain.gx < 2 ^ c.opBits && c.defaultDomain.gy < 2 ^ c.opBits && c.defaultDomain.n < 2 ^ c.opBits
  && c.retryLimit != some 0

/-- The SM2 recommended parameters (41 R140, 93 G1). -/
def sm2Domain : Domain where
  p := 0xFFFFFFFEFFFFFFFFFFFFFFFFFFFFFFFFFFFFFFFF00000000FFFFFFFFFFFFFFFF
  a := 0xFFFFFFFEFFFFFFFFFFFFFFFFFFFFFFFFFFFFFFFF00000000FFFFFFFFFFFFFFFC
  b := 0x28E9FA9E9D9F5E344D5A9E4BCF6509A7F39789F515AB8F92DDBCBD414D940E93
  gx := 0x32C4AE2C1F1981195F9904466A39C9948FE30BBFF2660BE1715A4589334C74C7
  gy := 0xBC3736A2F4F6779C59BDCEE36B692153D0A9877CC62A474002DF32E52139F0A0
  n := 0xFFFFFFFEFFFFFFFFFFFFFFFFFFFFFFFF7203DF6B21C6052B53BBF40939D54123
  bits := 256

/-- The default column of 00 R8. DESIGN CHOICE (log 1): the parameters the reset state carries. -/
def default : Params where
  opBits := 256
  nctx := 4
  idCap := 8192
  msgCap := 65536
  outCap := 131072
  defaultDomain := sm2Domain
  coordSer := .minimal
  retryLimit := none

/-- The `ID` register's constant (10 R22). -/
def idWord : Word := 0x474D4C07

/-- `DEFAULT_ID`, the ASCII string 1234567812345678 (00 R9, 43 R166). -/
def defaultId : Bytes :=
  [0x31, 0x32, 0x33, 0x34, 0x35, 0x36, 0x37, 0x38, 0x31, 0x32, 0x33, 0x34, 0x35, 0x36, 0x37, 0x38]

/-- `C3Len`, also `HLEN`: 32 bytes (00 R9, R10). -/
def c3Len : Nat := 32

/-- A GA provider: four total functions of the domain and the arguments (41 R130, R131). A point is a pair of naturals
without bound (00 R15). -/
structure GAPort where
  add : Domain → Point → Point → Point
  mul : Domain → Point → Nat → Point
  mulBase : Domain → Nat → Point
  isInf : Domain → Point → Bool
deriving Inhabited

/-- The provider of this CORE: what it answers outside its contract depends on the arguments and is not known (41 R132,
93 U1; log 2). Within the contract the group law says what it answers (`Machine.ga`, log 3). -/
opaque gaFree : GAPort

/-- The answer to `GA.mul(PA, t)` of `VERIFY` when the public key is `INF`: some point that depends only on the domain and
t (43 R186, 93 U2; log 23). -/
opaque verifyInfFree : Domain → Nat → Point

/-- What a KDF counter above 2^32 - 1 contributes to its hash input: the spec says not to assume a wrap or an error, and no
command reaches it (42 R156, 91 N7; log 25). -/
opaque counterFree : Nat → Bytes

end Config

end Sys2Proof
end

