-- ==== Sys2Proof/Machine/Bytes.lean ====
section
/-! DEFINITION. Numbers and byte strings: the operators of 00 R10 to R13. Every conversion is big-endian (20 R64). -/

namespace Sys2Proof.Machine

/-- `ceil(a / b)` (00 R11). -/
def ceilDiv (a b : Nat) : Nat := (a + (b - 1)) / b

/-- `bitlen(v)`: the number of bits of v, 0 for 0 (00 R11). -/
def bitlen (v : Nat) : Nat := if v = 0 then 0 else Nat.log2 v + 1

/-- `a mod n` for n >= 1: the representative in [0, n-1], also of a negative `a` (00 R11). -/
def modN (a : Int) (n : Nat) : Nat := (a % (n : Int)).toNat

/-- Euclid's algorithm on the remainders `r0 > r1` of n and a, carrying `t0`, `t1` with `t * a = r (mod n)`; the result is
the `t` of the last non-zero remainder. `fuel` bounds the number of divisions. -/
def euclid : Nat → Nat → Int → Nat → Int → Int
  | 0, _, t0, _, _ => t0
  | fuel + 1, r0, t0, r1, t1 =>
    if r1 = 0 then t0 else euclid fuel r1 t1 (r0 % r1) (t0 - (r0 / r1 : Nat) * t1)

/-- `inv(a, n)`: the x in [1, n-1] with `(a * x) mod n = 1` (00 R11). It is used only where it exists; elsewhere its
value says nothing (log 20). -/
def inv (a n : Nat) : Nat := modN (euclid (n + 1) n 0 (a % n) 1) n

/-- `be_n(v)`: the n-byte big-endian encoding of `v mod 2^(8n)` (00 R13). -/
def be : Nat → Nat → Bytes
  | 0, _ => []
  | n + 1, v => BitVec.ofNat 8 (v / 256 ^ n) :: be n v

/-- `int(s)`: the natural whose big-endian encoding is s, 0 for the empty string (00 R13). -/
def intOf (s : Bytes) : Nat := s.foldl (fun acc b => acc * 256 + b.toNat) 0

/-- `minbytes(v)`: the shortest byte string whose value is v; the empty string for 0 (00 R13, D15). -/
def minbytes (v : Nat) : Bytes := be (ceilDiv (bitlen v) 8) v

/-- `fix(v, w) = be_w(v mod 2^(8w))`: zero-padded on the left, or truncated from the left-excess (00 R13). -/
def fix (v w : Nat) : Bytes := be w (v % 2 ^ (8 * w))

/-- `ser(v)`: `minbytes(v)` or `fix(v, KeyBytes)`, as `COORD_SER` says (00 R13, D19). -/
def ser (mode : CoordSer) (keyBytes v : Nat) : Bytes :=
  match mode with
  | .minimal => minbytes v
  | .fixed => fix v keyBytes

/-- `s[a .. a+n)` (00 R13). -/
def slice (s : Bytes) (a n : Nat) : Bytes := (s.drop a).take n

/-- `s[i]` (00 R13). -/
def byteAt (s : Bytes) (i : Nat) : Byte := s.getD i 0

/-- Bytewise xor of two strings of one length (44 R191). -/
def xorBytes (s t : Bytes) : Bytes := List.zipWith (· ^^^ ·) s t

/-- The word whose bytes are b0, b1, b2, b3 from the most significant lane down (20 R63). -/
def wordOfLanes (b0 b1 b2 b3 : Byte) : Word := b0 ++ b1 ++ b2 ++ b3

/-- The four byte lanes of a word, bits 31:24 first (20 R63). -/
def lanesOfWord (w : Word) : Bytes :=
  [w.extractLsb' 24 8, w.extractLsb' 16 8, w.extractLsb' 8 8, w.extractLsb' 0 8]

end Sys2Proof.Machine
end

