-- ==== Sys2Proof/Machine/Group.lean ====
section
/-! DEFINITION. The GA port: the group law of 41 R133 where the contract of R132 holds, a free value of the arguments
elsewhere (log 2), and the validity of a domain (R136, R138). -/

namespace Sys2Proof.Machine

/-- No number from 2 to k-1 divides n. -/
def noDivisorBelow (n : Nat) : Nat → Bool
  | 0 => true
  | k + 1 => (k < 2 || n % k ≠ 0) && noDivisorBelow n k

/-- n is prime: the mathematical property (41 R138, U13; log 16). -/
def isPrime (n : Nat) : Bool := 2 ≤ n && noDivisorBelow n n

/-- `OnCurve(x, y)` (41 R136). -/
def onCurve (d : Domain) (q : Point) : Bool :=
  q.x < d.p && q.y < d.p && (q.y * q.y) % d.p = (q.x * q.x * q.x + d.a * q.x + d.b) % d.p

/-- The domain part of the GA contract: P a prime greater than 3 and the curve not singular (41 R132). -/
def domainInContract (d : Domain) : Bool :=
  3 < d.p && (4 * d.a ^ 3 + 27 * d.b ^ 2) % d.p ≠ 0 && isPrime d.p

/-- A point argument within the contract: `INF` or on the curve (41 R132). -/
def pointInContract (d : Domain) (q : Point) : Bool := q = Point.inf || onCurve d q

/-- The slope `lam` of the line through two points of different x, or of the tangent at one point (41 R133). -/
def curveSlope (d : Domain) (q r : Point) : Nat :=
  if q.x = r.x then modN ((3 * q.x ^ 2 + d.a : Nat) * inv (2 * q.y) d.p) d.p
  else modN (((r.y : Int) - q.y) * inv (modN ((r.x : Int) - q.x) d.p) d.p) d.p

/-- The sum of two finite points that are not opposite, given the slope (41 R133). -/
def curveChord (d : Domain) (lam : Nat) (q r : Point) : Point :=
  let x3 := modN ((lam : Int) ^ 2 - q.x - r.x) d.p
  ⟨x3, modN (lam * ((q.x : Int) - x3) - q.y) d.p⟩

/-- `add(P, Q)` of the group law (41 R133). -/
def curveAdd (d : Domain) (q r : Point) : Point :=
  if q = Point.inf then r
  else if r = Point.inf then q
  else if q.x = r.x ∧ (q.y + r.y) % d.p = 0 then Point.inf
  else curveChord d (curveSlope d q r) q r

/-- `mul(P, k)` of the group law: `mul(P, 0) = INF; mul(P, k+1) = add(mul(P, k), P)` (41 R133). -/
def curveMul (d : Domain) (q : Point) : Nat → Point
  | 0 => Point.inf
  | k + 1 => curveAdd d (curveMul d q k) q

/-- `GA.add` (41 R130, R132). -/
def gaAdd (d : Domain) (q r : Point) : Point :=
  if domainInContract d && pointInContract d q && pointInContract d r then curveAdd d q r else Config.gaFree.add d q r

/-- `GA.mul` (41 R130, R132). -/
def gaMul (d : Domain) (q : Point) (k : Nat) : Point :=
  if domainInContract d && pointInContract d q then curveMul d q k else Config.gaFree.mul d q k

/-- `GA.mulBase`: `GA.mul(G, k)` within the contract (41 R130, R132). -/
def gaMulBase (d : Domain) (k : Nat) : Point :=
  if domainInContract d && pointInContract d d.g then curveMul d d.g k else Config.gaFree.mulBase d k

/-- `GA.isInf` (41 R130, R132, R134). -/
def gaIsInf (d : Domain) (q : Point) : Bool :=
  if domainInContract d && pointInContract d q then q = Point.inf else Config.gaFree.isInf d q

/-- The GA port as the configuration's record of four functions (41 R131). What is known of it is 41 R132 and nothing more:
the group law within the contract, the unknown provider elsewhere (log 2, 3). -/
def ga : Config.GAPort := ⟨gaAdd, gaMul, gaMulBase, gaIsInf⟩

/-- `ValidDomain(P, A, B, Gx, Gy, N, bits)`, its six conditions in their order (41 R138). Condition (6), printed
`GA.mulBase(N) = INF`, is asked of `GA.isInf`, since the CORE tests infinity only through it (41 R134). DEDUCED (log 24). -/
def validDomain (opBits : Nat) (d : Domain) : Bool :=
  (1 ≤ d.bits && d.bits ≤ opBits && d.p < 2 ^ d.bits)
  && (3 < d.p && isPrime d.p)
  && (d.a < d.p && d.b < d.p && d.gx < d.p && d.gy < d.p)
  && (d.g ≠ Point.inf && onCurve d d.g)
  && isPrime d.n
  && ga.isInf d (ga.mulBase d d.n)

end Sys2Proof.Machine
end

