-- ==== Sys2Proof/Machine/State.lean ====
section
/-! DEFINITION. The state of the CORE as plain data, all of it (10 R20), the inputs of its agents, and reset (10 R44). -/

namespace Sys2Proof.Machine

/-- The sequencer states (10 R27). -/
inductive Seq where
  | idle | check | finish
  | hashRun
  | domRun | kgDraw | kgPub | pubRun
  | kdfRun
  | sgPub | sgZ | sgE | sgDraw | sgPoint | sgR | sgS | sgOut
  | vfRange | vfZ | vfE | vfT | vfPoint | vfCmp
  | enDraw | enPoint | enKdf | enTag | enOut
  | deParse | deCof | deShare | deKdf | deTag | deOut
  | derRun | keyRun
deriving DecidableEq, Repr

/-- The error kinds of 60 R250. -/
inductive ErrKind where
  | rng | domain | encoding | integrity | illegal | param
deriving DecidableEq, Repr

/-- The 13 operand registers, by name (10 R36). -/
inductive OpReg where
  | domP | domA | domB | domGx | domGy | domN
  | keyD | keyQx | keyQy
  | sigR | sigS
  | kdfZx | kdfZy
deriving DecidableEq, Repr

/-- The three byte buffers (10 R41). -/
inductive Buf where
  | id | msg | out
deriving DecidableEq, Repr

/-- Eight 32-bit words: a hash state V[0..7], or the working words A..H (40 R101, R108). -/
structure Words8 where
  a : Word
  b : Word
  c : Word
  d : Word
  e : Word
  f : Word
  g : Word
  h : Word
deriving DecidableEq, Repr

/-- The initial value `IV` (40 R101). -/
def Words8.iv : Words8 :=
  ⟨0x7380166f, 0x4914b2b9, 0x172442d7, 0xda8a0600, 0xa96f30bc, 0x163138aa, 0xe38dee4d, 0xb0fb0e4e⟩

/-- A hash context: `V`, the pending bytes `buf` (fewer than 64), and the bit count `cnt` (10 R35). -/
structure HashCtx where
  v : Words8
  buf : Bytes
  cnt : BitVec 64
deriving DecidableEq, Repr

/-- The initial context `H0` (10 R35). -/
def HashCtx.init : HashCtx := ⟨Words8.iv, [], 0⟩

/-- The values of the 13 operand registers (10 R36), naturals below 2^OPBITS. -/
structure OperandRegs where
  domP : Nat
  domA : Nat
  domB : Nat
  domGx : Nat
  domGy : Nat
  domN : Nat
  keyD : Nat
  keyQx : Nat
  keyQy : Nat
  sigR : Nat
  sigS : Nat
  kdfZx : Nat
  kdfZy : Nat
deriving DecidableEq, Repr

/-- The hidden temporaries (10 R42). `c3` holds the tag between `EN_TAG` and `EN_OUT` (44 R195, R196; log 9). -/
structure Temps where
  e : Nat
  z : Bytes
  k : Nat
  r : Nat
  s : Nat
  t : Nat
  p1 : Point
  p2 : Point
  pp : Point
  wbuf : Bytes
  ks : Bytes
  c3 : Bytes
  tries : Nat
deriving DecidableEq, Repr

/-- Every temporary cleared (10 R42). -/
def Temps.cleared : Temps := ⟨0, [], 0, 0, 0, 0, Point.inf, Point.inf, Point.inf, [], [], [], 0⟩

/-- An answer of the RNG port (41 R135). -/
inductive RngAnswer where
  | value (v : Nat)
  | fail
deriving DecidableEq, Repr

/-- What a host can do to the CORE (70 R295): an access of a width in bits at an offset of the window, or asserting `rst`.
An access whose width is not 32, or whose offset is not legal, is malformed (20 R66). -/
inductive HostMove where
  | read (width : Nat) (offset : Nat)
  | write (width : Nat) (offset : Nat) (v : Word)
  | rst
deriving DecidableEq, Repr

/-- A turn of one of the agents (00 R7). `core` lets the CORE run to completion or to an unanswered request, `tick` lets
it take one sequencer state: the two granularities of 70 R293. GA answers inside the CORE's turn (00 R7). -/
inductive Move where
  | host (m : HostMove)
  | rng (a : RngAnswer)
  | core
  | tick
deriving DecidableEq, Repr

/-- What the bus returned on the last access: the error response (20 R66) and the data of a read. The model's own
field (log 13). -/
structure BusReply where
  error : Bool
  data : Word
deriving DecidableEq, Repr

/-- The state. All but `cfg`, `rng`, `agenda` and `reply` is the state of the CORE (10 R20); those four are the model's own
(log 1, 4, 5, 13). `STATUS.BUSY` is `seq ≠ idle` (10 R24). -/
structure State where
  cfg : Config.Params
  cmd : Word
  cur : Word
  done : Bool
  err : Bool
  result : Bool
  domok : Bool
  errcode : BitVec 4
  errlog : Word
  ie : Bool
  mlen : Word
  idlen : Word
  klen : Word
  olen : Word
  ctxsel : BitVec 4
  domBits : Word
  regs : OperandRegs
  hc : List HashCtx
  hi : HashCtx
  mem : List Host.Cell
  seq : Seq
  tmp : Temps
  rng : List RngAnswer
  agenda : List Move
  reply : BusReply
deriving DecidableEq, Repr

/-- Why the machine would stop. No rule of the spec stops it: every behaviour of 93 part 1 has an outcome. -/
inductive Fault where
  /-- Raised by `exec i` when the sequencer stands in a state that is not on the path of command `i`. No run reaches it
  (the CORE runs the command it decoded from `CUR`); safe: the model stops (log 11). -/
  | foreignSequencerState
deriving DecidableEq, Repr

/-- Why an instruction is refused. -/
inductive Refusal where
  /-- Raised by an arm of `exec` whose instruction has no meaning yet; there is none. Safe. -/
  | notModelled (mnemonic : String)
deriving DecidableEq, Repr

/-- The operand registers at reset: the default domain, all else 0 (10 R44). -/
def OperandRegs.reset (d : Domain) : OperandRegs :=
  ⟨d.p, d.a, d.b, d.gx, d.gy, d.n, 0, 0, 0, 0, 0, 0, 0⟩

/-- The reset state of a CORE with parameters `c` (10 R44), no input waiting. -/
def State.resetWith (c : Config.Params) : State where
  cfg := c
  cmd := 0
  cur := 0
  done := false
  err := false
  result := false
  domok := true
  errcode := 0
  errlog := 0
  ie := false
  mlen := 0
  idlen := 0
  klen := 0
  olen := 0
  ctxsel := 0
  domBits := BitVec.ofNat 32 c.defaultDomain.bits
  regs := OperandRegs.reset c.defaultDomain
  hc := List.replicate c.nctx HashCtx.init
  hi := HashCtx.init
  mem := []
  seq := .idle
  tmp := Temps.cleared
  rng := []
  agenda := []
  reply := ⟨false, 0⟩

/-- The machine right after reset (10 R44), with the default parameters of 00 R8 (log 1). -/
def State.reset : State := State.resetWith Config.default

end Sys2Proof.Machine
end

