-- ==== Sys2Proof/Machine/Flags.lean ====
section
/-! DEFINITION. The status bits, the error code, the sticky log and the interrupt line (10 R24 to R28, 60 R250, R253). -/

namespace Sys2Proof.Machine

/-- A bit of a register: `1 << n` when it is set. -/
def bit (b : Bool) (n : Nat) : Word := if b then BitVec.ofNat 32 (2 ^ n) else 0

/-- `STATUS.BUSY` equals `SEQ != IDLE` (10 R24). -/
def State.busy (s : State) : Bool := s.seq ≠ .idle

/-- The `STATUS` word: BUSY 0, DONE 1, ERR 2, RESULT 3, DOMOK 4, the rest 0 (10 R24). -/
def statusWord (s : State) : Word :=
  bit s.busy 0 ||| bit s.done 1 ||| bit s.err 2 ||| bit s.result 3 ||| bit s.domok 4

/-- The codes of 60 R250. -/
def ErrKind.code : ErrKind → BitVec 4
  | .rng => 1
  | .domain => 2
  | .encoding => 3
  | .integrity => 4
  | .illegal => 5
  | .param => 6

/-- Bit 7 of `ERRLOG`, `BUSYWR` (10 R26). -/
def busyWrBit : Nat := 7

/-- Bit 8 of `ERRLOG`, `BUSERR` (10 R26). -/
def busErrBit : Nat := 8

/-- Sets a bit of the sticky `ERRLOG`; no bit of it is ever cleared but by reset (10 R26). -/
def logError (n : Nat) (s : State) : State := { s with errlog := s.errlog ||| bit true n }

/-- Step 2 of the error entry: `ERRCODE <- K; STATUS.ERR <- 1; ERRLOG[K] <- 1` (60 R256). -/
def recordError (k : ErrKind) (s : State) : State :=
  logError k.code.toNat { s with errcode := k.code, err := true }

/-- The `CTRL` word as it reads: IE in bit 1, SRST and ACK read 0 (10 R28). -/
def ctrlWord (s : State) : Word := bit s.ie 1

/-- The interrupt output: `CTRL.IE and STATUS.DONE` (60 R253). -/
def State.irq (s : State) : Bool := s.ie && s.done

end Sys2Proof.Machine
end

