-- ==== Sys2Proof/Machine/Ops.lean ====
section
/-! DEFINITION. The named operations over memory, registers and hash contexts, the issue of a command (30 R84), its
completion, the error entry (60 R256), and reset (70 R281). -/

namespace Sys2Proof.Machine

/-! Memory: the three buffers as cells of the window, sorted by offset, no cell holding 0 (10 R41, 20 R62). -/

/-- What an offset that no cell lists reads as: 0, the reset contents (10 R44). -/
def unlistedByte : Byte := 0

/-- The byte at an offset. -/
def memGet : List Host.Cell → Nat → Byte
  | [], _ => unlistedByte
  | (a, v) :: rest, x => if x = a then v else memGet rest x

/-- A cell in front of others, left out when it holds what an unlisted offset reads as. -/
def consCell (x : Nat) (v : Byte) (m : List Host.Cell) : List Host.Cell :=
  if v = unlistedByte then m else (x, v) :: m

/-- Writes one byte, keeping the cells sorted and canonical. -/
def memSet : List Host.Cell → Nat → Byte → List Host.Cell
  | [], x, v => consCell x v []
  | (a, u) :: rest, x, v =>
    if x < a then consCell x v ((a, u) :: rest)
    else if x = a then consCell x v rest
    else (a, u) :: memSet rest x v

/-- The bytes at n offsets from a on. -/
def memGetBytes (m : List Host.Cell) : Nat → Nat → Bytes
  | _, 0 => []
  | a, n + 1 => memGet m a :: memGetBytes m (a + 1) n

/-- Writes a byte string from offset a on. -/
def memSetBytes : List Host.Cell → Nat → Bytes → List Host.Cell
  | m, _, [] => m
  | m, a, b :: rest => memSetBytes (memSet m a b) (a + 1) rest

/-- Every offset of the cells is above `x`, they rise strictly, and none holds the unlisted byte. -/
def Memory.above : Nat → List Host.Cell → Bool
  | _, [] => true
  | x, (a, v) :: rest => x < a && v ≠ unlistedByte && Memory.above a rest

/-- The canonical form of memory. -/
def Memory.wf : List Host.Cell → Bool
  | [] => true
  | (a, v) :: rest => v ≠ unlistedByte && Memory.above a rest

/-- Where a buffer starts in the window (20 R62). -/
def Buf.base : Buf → Nat
  | .id => 0x001000
  | .msg => 0x100000
  | .out => 0x200000

/-- The capacity of a buffer (00 R8). -/
def Buf.cap (c : Config.Params) : Buf → Nat
  | .id => c.idCap
  | .msg => c.msgCap
  | .out => c.outCap

/-- `MemRead(buf, a, n)` (00 R14, 20 R74). -/
def memRead (b : Buf) (a n : Nat) (s : State) : Bytes := memGetBytes s.mem (b.base + a) n

/-- `MemWrite(buf, a, n, data)` (00 R14, 20 R74); n is the length of the data. -/
def memWrite (b : Buf) (a : Nat) (data : Bytes) (s : State) : State :=
  { s with mem := memSetBytes s.mem (b.base + a) data }

/-- Writes a command's output to `OUTBUF` from index 0 and sets `OLEN` to its length (10 R32). -/
def output (data : Bytes) (s : State) : State :=
  { memWrite .out 0 data s with olen := BitVec.ofNat 32 data.length }

/-! Operand registers (10 R36). -/

/-- All operand registers, in the order of their slots k = 0..12 (10 R36). -/
def OpReg.all : List OpReg :=
  [.domP, .domA, .domB, .domGx, .domGy, .domN, .keyD, .keyQx, .keyQy, .sigR, .sigS, .kdfZx, .kdfZy]

/-- Registers k = 0..5 are the domain (10 R37). -/
def OpReg.isDomain : OpReg → Bool
  | .domP | .domA | .domB | .domGx | .domGy | .domN => true
  | .keyD | .keyQx | .keyQy | .sigR | .sigS | .kdfZx | .kdfZy => false

/-- The value of an operand register. -/
def OperandRegs.get (g : OperandRegs) : OpReg → Nat
  | .domP => g.domP
  | .domA => g.domA
  | .domB => g.domB
  | .domGx => g.domGx
  | .domGy => g.domGy
  | .domN => g.domN
  | .keyD => g.keyD
  | .keyQx => g.keyQx
  | .keyQy => g.keyQy
  | .sigR => g.sigR
  | .sigS => g.sigS
  | .kdfZx => g.kdfZx
  | .kdfZy => g.kdfZy

/-- Replaces the value of an operand register. -/
def OperandRegs.put (g : OperandRegs) (r : OpReg) (v : Nat) : OperandRegs :=
  match r with
  | .domP => { g with domP := v }
  | .domA => { g with domA := v }
  | .domB => { g with domB := v }
  | .domGx => { g with domGx := v }
  | .domGy => { g with domGy := v }
  | .domN => { g with domN := v }
  | .keyD => { g with keyD := v }
  | .keyQx => { g with keyQx := v }
  | .keyQy => { g with keyQy := v }
  | .sigR => { g with sigR := v }
  | .sigS => { g with sigS := v }
  | .kdfZx => { g with kdfZx := v }
  | .kdfZy => { g with kdfZy := v }

/-- `REG <- v`: an operand register is OPBITS wide, so it holds `v mod 2^OPBITS` (10 R36; log 14). -/
def setReg (r : OpReg) (v : Nat) (s : State) : State :=
  { s with regs := s.regs.put r (v % 2 ^ s.cfg.opBits) }

/-- Sets each of the registers to 0 (60 R256 step 1). -/
def clearRegs : List OpReg → State → State
  | [], s => s
  | r :: rest, s => clearRegs rest (setReg r 0 s)

/-! Hash contexts (10 R35). -/

/-- `HC[c]`. -/
def hashCtx (c : Nat) (s : State) : HashCtx := s.hc.getD c HashCtx.init

/-- `HC[c] <- x`. -/
def setHashCtx (c : Nat) (x : HashCtx) (s : State) : State := { s with hc := s.hc.set c x }

/-! The life of a command (30 R84). -/

/-- The issue step: a word written to `CMD` while `BUSY = 0` (30 R84 (1), 10 R23). -/
def issue (w : Word) (s : State) : State :=
  { s with
    cur := w, cmd := w, done := false, err := false, result := false, errcode := 0, olen := 0
    tmp := { s.tmp with tries := 0 }, seq := .check }

/-- The state `FINISH`: temporaries cleared, `BUSY <- 0`, `DONE <- 1`, `SEQ <- IDLE` (30 R84 (4)). The internal context
`HI` is cleared with them and `CUR` keeps its word (10 R42; log 8). -/
def finish (s : State) : State :=
  { s with tmp := Temps.cleared, hi := HashCtx.init, done := true, seq := .idle }

/-- `SEQ <- FINISH`, and through it: what a command makes visible and the end of `BUSY` come together, at completion
(10 R24, R25, 70 R293; log 7). -/
def complete (s : State) : State := finish { s with seq := .finish }

/-- `raise K`, the error entry, the whole "trap entry" of this hardware (60 R256): past `CHECK` the destination registers
of the command are set to 0; the code, `ERR` and the sticky bit are recorded; then `FINISH`. Nothing is saved and control
goes nowhere. There is no return from it (60 R258). -/
def raise (destinations : List OpReg) (k : ErrKind) (s : State) : State :=
  complete (recordError k (if s.seq = .check then s else clearRegs destinations s))

/-- A test and the error it ends the command with when it fails (60 R260). -/
abbrev Check := Bool × ErrKind

/-- The error of the first test that fails, if one does (60 R255). -/
def firstFailing : List Check → Option ErrKind
  | [] => none
  | (ok, k) :: rest => if ok then firstFailing rest else some k

/-- Reset, by `rst` or by `CTRL.SRST`: every piece of state takes its reset value, and an answer of the RNG port that no
draw has used is dropped with its request (70 R280, R281). The parameters stay, and the moves to come stay with the agents. -/
def resetCore (s : State) : State :=
  { State.resetWith s.cfg with agenda := s.agenda, reply := s.reply }

end Sys2Proof.Machine
end

