-- ==== Sys2Proof/Machine/Operands.lean ====
section
/-! DEFINITION. The implicit operands of the commands, each with its form: byte widths (00 R10), the domain, the message,
the user identifier (43 R166), the flat ciphertext (44 R190), the key byte forms (46 R240), and the two ports. -/

namespace Sys2Proof.Machine

/-- `KeyBytes = ceil(bitSize / 8)`, bitSize the value of `DOM_BITS` (00 R10). -/
def State.keyBytes (s : State) : Nat := ceilDiv s.domBits.toNat 8

/-- `C1Len = 2 * KeyBytes + 1` (00 R10). -/
def State.c1Len (s : State) : Nat := 2 * s.keyBytes + 1

/-- The CurveDomain in the seven domain registers (10 R37). -/
def State.dom (s : State) : Domain :=
  ⟨s.regs.domP, s.regs.domA, s.regs.domB, s.regs.domGx, s.regs.domGy, s.regs.domN, s.domBits.toNat⟩

/-- The public key registers as a point: `PA` (43 R165) or `PB` (44 R191). -/
def State.pubKey (s : State) : Point := ⟨s.regs.keyQx, s.regs.keyQy⟩

/-- `MSGBUF[0..MLEN)`: the message, plaintext, ciphertext or DER bytes of a command (43 R165). -/
def State.message (s : State) : Bytes := memRead .msg 0 s.mlen.toNat s

/-- `uid`: the default identifier when `U = 0`, else `IDBUF[0..IDLEN)` (43 R166). -/
def userId (u : Bool) (s : State) : Bytes :=
  if u then memRead .id 0 s.idlen.toNat s else Config.defaultId

/-- `ser(v)` with the parameter and the width of this state (00 R13). -/
def State.ser (s : State) (v : Nat) : Bytes := Machine.ser s.cfg.coordSer s.keyBytes v

/-- `GA.add` asked with the current domain (41 R130). -/
def State.gaAdd (s : State) (q r : Point) : Point := ga.add s.dom q r

/-- `GA.mul` asked with the current domain (41 R130). -/
def State.gaMul (s : State) (q : Point) (k : Nat) : Point := ga.mul s.dom q k

/-- `GA.mulBase` asked with the current domain (41 R130). -/
def State.gaMulBase (s : State) (k : Nat) : Point := ga.mulBase s.dom k

/-- `GA.isInf` asked with the current domain (41 R130). -/
def State.gaIsInf (s : State) (q : Point) : Bool := ga.isInf s.dom q

/-- `0x04 ‖ fix(x, KeyBytes) ‖ fix(y, KeyBytes)`: an uncompressed point (44 R190, 46 R240). -/
def pointBytes (keyBytes : Nat) (q : Point) : Bytes := 0x04 :: (fix q.x keyBytes ++ fix q.y keyBytes)

/-- The parts of a ciphertext: C1, C2, C3 (44 R190). -/
structure Ciphertext where
  c1 : Point
  c2 : Bytes
  c3 : Bytes
deriving DecidableEq, Repr

/-- The flat form `C1 ‖ C2 ‖ C3` (44 R190); it joins what `splitFlat` splits (45 R227). -/
def flatBytes (keyBytes : Nat) (ct : Ciphertext) : Bytes := pointBytes keyBytes ct.c1 ++ ct.c2 ++ ct.c3

/-- The split of a flat form, its first byte aside: the coordinates, C2 of `m = len - C1Len - 32` bytes, and C3
(44 R198, R199; 45 R225, R227). -/
def splitFlat (keyBytes : Nat) (b : Bytes) : Ciphertext :=
  let c1Len := 2 * keyBytes + 1
  let m := b.length - c1Len - Config.c3Len
  ⟨⟨intOf (slice b 1 keyBytes), intOf (slice b (1 + keyBytes) keyBytes)⟩, slice b c1Len m, b.drop (c1Len + m)⟩

/-- The three key byte forms (46 R240). -/
inductive KeyForm where
  | pub | raw | priv
deriving DecidableEq, Repr

/-- The length of a form (46 R240). -/
def KeyForm.length (keyBytes : Nat) : KeyForm → Nat
  | .pub => 2 * keyBytes + 1
  | .raw => 2 * keyBytes
  | .priv => keyBytes

/-- The bytes of a form (46 R240). -/
def keyFormBytes (f : KeyForm) (s : State) : Bytes :=
  match f with
  | .pub => pointBytes s.keyBytes s.pubKey
  | .raw => fix s.regs.keyQx s.keyBytes ++ fix s.regs.keyQy s.keyBytes
  | .priv => fix s.regs.keyD s.keyBytes

/-- Loads the public key registers with a point. -/
def setPubKey (q : Point) (s : State) : State := setReg .keyQy q.y (setReg .keyQx q.x s)

end Sys2Proof.Machine
end

