-- ==== Sys2Proof/Syntax.lean ====
section
/-! DEFINITION. The command set: one constructor for each row of spec/opcode_table.json (30 R83). -/

namespace Sys2Proof

/-- A command. `c` is the field `CTX` of the word, an unsigned 4-bit index (30 R81); every other operand is implicit.
The flag `U` of `SIGN` and `VERIFY` and the form of `KEY_ENC` and `KEY_DEC` select the constructor. -/
inductive Instr where
  | hReset (c : BitVec 4)
  | hUpdate (c : BitVec 4)
  | hFinal (c : BitVec 4)
  | hDigest (c : BitVec 4)
  | domCheck
  | keygen
  | pubkey
  | kdf
  | sign
  | signU
  | verify
  | verifyU
  | encrypt
  | decrypt
  | derEncSig
  | derDecSig
  | derEncCt
  | derDecCt
  | keyEncPub
  | keyEncRaw
  | keyEncPriv
  | keyDecPub
  | keyDecRaw
  | keyDecPriv
deriving DecidableEq, Repr

end Sys2Proof
end

