-- ==== Sys2Proof/Machine/Sequencer.lean ====
section
/-! DEFINITION. What the sequencer knows of each command: its path (10 R27), its pre-checks (60 R260), its destination
registers (60 R256); one turn of the sequencer; and the run of a command (30 R84, 70 R293, R294). -/

namespace Sys2Proof.Machine

/-- The run states of a command, in the order of its sequencer (40 R119, 41 R144, 42 R158, 43 R176, R185, 44 R194, R204,
45 R228, 46 R245). -/
def path : Instr → List Seq
  | .hReset _ => [.hashRun]
  | .hUpdate _ => [.hashRun]
  | .hFinal _ => [.hashRun]
  | .hDigest _ => [.hashRun]
  | .domCheck => [.domRun]
  | .keygen => [.kgDraw, .kgPub]
  | .pubkey => [.pubRun]
  | .kdf => [.kdfRun]
  | .sign => [.sgPub, .sgZ, .sgE, .sgDraw, .sgPoint, .sgR, .sgS, .sgOut]
  | .signU => [.sgPub, .sgZ, .sgE, .sgDraw, .sgPoint, .sgR, .sgS, .sgOut]
  | .verify => [.vfRange, .vfZ, .vfE, .vfT, .vfPoint, .vfCmp]
  | .verifyU => [.vfRange, .vfZ, .vfE, .vfT, .vfPoint, .vfCmp]
  | .encrypt => [.enDraw, .enPoint, .enKdf, .enTag, .enOut]
  | .decrypt => [.deParse, .deCof, .deShare, .deKdf, .deTag, .deOut]
  | .derEncSig => [.derRun]
  | .derDecSig => [.derRun]
  | .derEncCt => [.derRun]
  | .derDecCt => [.derRun]
  | .keyEncPub => [.keyRun]
  | .keyEncRaw => [.keyRun]
  | .keyEncPriv => [.keyRun]
  | .keyDecPub => [.keyRun]
  | .keyDecRaw => [.keyRun]
  | .keyDecPriv => [.keyRun]

/-- The destination registers of a command that can fail in its run phase (60 R256 step 1). -/
def destinations : Instr → List OpReg
  | .hReset _ => []
  | .hUpdate _ => []
  | .hFinal _ => []
  | .hDigest _ => []
  | .domCheck => []
  | .keygen => [.keyD, .keyQx, .keyQy]
  | .pubkey => []
  | .kdf => []
  | .sign => [.sigR, .sigS]
  | .signU => [.sigR, .sigS]
  | .verify => []
  | .verifyU => []
  | .encrypt => []
  | .decrypt => []
  | .derEncSig => []
  | .derDecSig => [.sigR, .sigS]
  | .derEncCt => []
  | .derDecCt => []
  | .keyEncPub => []
  | .keyEncRaw => []
  | .keyEncPriv => []
  | .keyDecPub => [.keyQx, .keyQy]
  | .keyDecRaw => []
  | .keyDecPriv => []

/-! The pre-checks, one function for each test of 60 R260. -/

/-- Class (a) of an `H_*` command: `CTX < NCTX` (30 R85). -/
def ctxCheck (c : BitVec 4) (s : State) : Check := (decide (c.toNat < s.cfg.nctx), .illegal)

/-- Class (b): `IDLEN <= min(IDCAP, 8191)` (43 R166). -/
def idlenCheck (s : State) : Check := (decide (s.idlen.toNat ≤ min s.cfg.idCap 8191), .param)

/-- Class (b): `MLEN <= MSGCAP`. -/
def mlenCheck (s : State) : Check := (decide (s.mlen.toNat ≤ s.cfg.msgCap), .param)

/-- Class (b) of `ENCRYPT`: `MLEN >= 1` (44 R191, D21). -/
def mlenNonzeroCheck (s : State) : Check := (decide (1 ≤ s.mlen.toNat), .param)

/-- Class (b) of `KDF`: `KLEN <= OUTCAP` (42 R157). -/
def klenCheck (s : State) : Check := (decide (s.klen.toNat ≤ s.cfg.outCap), .param)

/-- Class (c): `STATUS.DOMOK = 1`. -/
def domokCheck (s : State) : Check := (s.domok, .domain)

/-- Class (c) of `KDF`: only when `COORD_SER = fixed` (42 R157, C7). -/
def kdfDomokCheck (s : State) : Check := (s.cfg.coordSer = .minimal || s.domok, .domain)

/-- Class (d): `MLEN >= C1Len + 32` (44 R198, 45 R225). -/
def flatLenCheck (s : State) : Check := (decide (s.c1Len + Config.c3Len ≤ s.mlen.toNat), .encoding)

/-- Class (d) of `KEY_DEC`: `MLEN` equals the form's length (46 R243). -/
def formLenCheck (f : KeyForm) (s : State) : Check := (decide (s.mlen.toNat = f.length s.keyBytes), .encoding)

/-- Class (d) of `ENCRYPT`: the output fits (44 R191). -/
def encryptFitCheck (s : State) : Check :=
  (decide (s.c1Len + s.mlen.toNat + Config.c3Len ≤ s.cfg.outCap), .param)

/-- Class (d) of `DECRYPT`: the output fits (44 R198). -/
def decryptFitCheck (s : State) : Check :=
  (decide (s.mlen.toNat - s.c1Len - Config.c3Len ≤ s.cfg.outCap), .param)

/-- Class (d) of `KEY_ENC`: the output fits (46 R242). -/
def formFitCheck (f : KeyForm) (s : State) : Check := (decide (f.length s.keyBytes ≤ s.cfg.outCap), .param)

/-- Class (d) of `PUBKEY` and `DECRYPT`: `1 <= KEY_D <= N-1`. -/
def keyCheck (s : State) : Check := (decide (1 ≤ s.regs.keyD ∧ s.regs.keyD + 1 ≤ s.regs.domN), .param)

/-- Class (d) of `SIGN`: `1 <= KEY_D <= N-2` (43 R169, D18). -/
def signKeyCheck (s : State) : Check := (decide (1 ≤ s.regs.keyD ∧ s.regs.keyD + 2 ≤ s.regs.domN), .param)

/-- The pre-checks of a command in their order (60 R260 and the command's own rule). Decoding has already made class (a);
the `H_*` commands repeat it, so that a command with `CTX >= NCTX` is illegal wherever it comes from. -/
def checks : Instr → State → List Check
  | .hReset c, s => [ctxCheck c s]
  | .hUpdate c, s => [ctxCheck c s, mlenCheck s]
  | .hFinal c, s => [ctxCheck c s]
  | .hDigest c, s => [ctxCheck c s, mlenCheck s]
  | .domCheck, _ => []
  | .keygen, s => [domokCheck s]
  | .pubkey, s => [domokCheck s, keyCheck s]
  | .kdf, s => [klenCheck s, kdfDomokCheck s]
  | .sign, s => [mlenCheck s, domokCheck s, signKeyCheck s]
  | .signU, s => [idlenCheck s, mlenCheck s, domokCheck s, signKeyCheck s]
  | .verify, s => [mlenCheck s, domokCheck s]
  | .verifyU, s => [idlenCheck s, mlenCheck s, domokCheck s]
  | .encrypt, s => [mlenNonzeroCheck s, mlenCheck s, domokCheck s, encryptFitCheck s]
  | .decrypt, s => [mlenCheck s, domokCheck s, flatLenCheck s, decryptFitCheck s, keyCheck s]
  | .derEncSig, _ => []
  | .derDecSig, s => [mlenCheck s]
  | .derEncCt, s => [mlenCheck s, domokCheck s, flatLenCheck s]
  | .derDecCt, s => [mlenCheck s, domokCheck s]
  | .keyEncPub, s => [domokCheck s, formFitCheck .pub s]
  | .keyEncRaw, s => [domokCheck s, formFitCheck .raw s]
  | .keyEncPriv, s => [domokCheck s, formFitCheck .priv s]
  | .keyDecPub, s => [mlenCheck s, domokCheck s, formLenCheck .pub s]
  | .keyDecRaw, s => [mlenCheck s, domokCheck s, formLenCheck .raw s]
  | .keyDecPriv, s => [mlenCheck s, domokCheck s, formLenCheck .priv s]

/-- `SEQ <-` the first state of the command's path, once every pre-check has passed (30 R84 (2)). -/
def enterRun (i : Instr) (s : State) : State := { s with seq := (path i).headD .finish }

/-- One turn of the sequencer on command `i`, whose run states do what `body` says. `none`: there is no move, because the
CORE is idle or a request to the RNG port is not answered (30 R84, 70 R293 (b)). -/
def phase (i : Instr) (body : State → Option State) (s : State) : Option State :=
  if s.seq = .idle then none
  else if s.seq = .check then
    match firstFailing (checks i s) with
    | some k => some (raise (destinations i) k s)
    | none => some (enterRun i s)
  else if s.seq = .finish then some (finish s)
  else body s

/-- Whether `RETRY_LIMIT` forbids the draw that would make the counter `tries` (41 R137, D20). -/
def overLimit (limit : Option Nat) (tries : Nat) : Bool :=
  match limit with
  | none => false
  | some n => n < tries

/-- One draw of `DrawScalar` for command `i` (41 R137): over the limit, or an answer `Fail`, raises `ERR_RNG`; a draw of 0
stays in the same state; any other draw is handed to `use`. The request bound is `DOM_N`, and the answers of the port
are read modulo the bound (41 R135; log 4). -/
def drawScalar (i : Instr) (use : Nat → State → State) (s : State) : Option State :=
  let counted (rest : List RngAnswer) : State := { s with rng := rest, tmp := { s.tmp with tries := s.tmp.tries + 1 } }
  if overLimit s.cfg.retryLimit (s.tmp.tries + 1) then some (raise (destinations i) .rng (counted s.rng))
  else match s.rng with
    | [] => none
    | .fail :: rest => some (raise (destinations i) .rng (counted rest))
    | .value v :: rest =>
      if v % s.regs.domN = 0 then some (counted rest) else some (use (v % s.regs.domN) (counted rest))

/-- A rank that falls at every turn that draws nothing; a turn that draws raises it by less than 16. -/
def Seq.rank : Seq → Nat
  | .idle => 0
  | .finish => 1
  | .hashRun | .domRun | .pubRun | .kdfRun | .derRun | .keyRun => 2
  | .kgDraw => 3
  | .kgPub => 4
  | .sgOut => 2
  | .sgDraw => 3
  | .sgS => 4
  | .sgR => 5
  | .sgPoint => 6
  | .sgE => 7
  | .sgZ => 8
  | .sgPub => 9
  | .vfCmp => 2
  | .vfPoint => 3
  | .vfT => 4
  | .vfE => 5
  | .vfZ => 6
  | .vfRange => 7
  | .enOut => 2
  | .enTag => 3
  | .enDraw => 4
  | .enKdf => 5
  | .enPoint => 6
  | .deOut => 2
  | .deTag => 3
  | .deKdf => 4
  | .deShare => 5
  | .deCof => 6
  | .deParse => 7
  | .check => 10

/-- A bound on the turns a run can take before it ends or waits: every retry consumes an answer of the RNG port. -/
def State.fuel (s : State) : Nat := s.seq.rank + 16 * s.rng.length

/-- Takes turns until there is no move, at most `fuel` of them. -/
def runTurns (turn : State → Option State) : Nat → State → State
  | 0, s => s
  | fuel + 1, s =>
    match turn s with
    | none => s
    | some s' => runTurns turn fuel s'

/-- The run states of a command that has the one run state `q`; `act` takes it to the end of the command. -/
def singleState (q : Seq) (act : State → State) (s : State) : Option State :=
  if s.seq = q then some (act s) else none

/-- The sequencer states in which command `i` can stand. -/
def owns (i : Instr) (q : Seq) : Bool := q = .idle || q = .check || q = .finish || (path i).contains q

/-- The run of command `i` from the sequencer state it stands in, until it ends or waits for the RNG port (70 R293 (a),
R294, R290; log 6). A state off the path of `i` is a fault (log 11). -/
def runCommand (i : Instr) (body : State → Option State) (s : State) : Host.Outcome State Fault Refusal :=
  if owns i s.seq then .next (runTurns (phase i body) s.fuel s) else .fault .foreignSequencerState

end Sys2Proof.Machine
end

