-- ==== Sys2Proof/Machine/Sm3.lean ====
section
/-! DEFINITION. The SM3 engine: compression, padding, the whole-message function, and the operations on a context
(40 R101 to R114). All arithmetic is modulo 2^32 and wraps silently (R110). -/

namespace Sys2Proof.Machine

/-- The permutation `P0` (40 R103). -/
def sm3P0 (x : Word) : Word := x ^^^ x.rotateLeft 9 ^^^ x.rotateLeft 17

/-- The permutation `P1` (40 R103). -/
def sm3P1 (x : Word) : Word := x ^^^ x.rotateLeft 15 ^^^ x.rotateLeft 23

/-- The sixteen words of a block, big-endian (40 R102). -/
def blockWords (b : Bytes) : List Word :=
  (List.range 16).map fun i => BitVec.ofNat 32 (intOf (slice b (4 * i) 4))

/-- `W[j]` from the words before it, j their number (40 R104). -/
def nextW (w : List Word) : Word :=
  let j := w.length
  sm3P1 (w.getD (j - 16) 0 ^^^ w.getD (j - 9) 0 ^^^ (w.getD (j - 3) 0).rotateLeft 15)
    ^^^ (w.getD (j - 13) 0).rotateLeft 7 ^^^ w.getD (j - 6) 0

/-- Appends n further expansion words (40 R104). -/
def extendW : Nat → List Word → List Word
  | 0, w => w
  | n + 1, w => extendW n (w ++ [nextW w])

/-- `W[0..67]` of a block (40 R104). -/
def expandW (b : Bytes) : List Word := extendW 52 (blockWords b)

/-- `W'[j] = W[j] xor W[j+4]` (40 R105). -/
def wPrime (w : List Word) (j : Nat) : Word := w.getD j 0 ^^^ w.getD (j + 4) 0

/-- The round constant `T(j)` (40 R106). -/
def sm3T (j : Nat) : Word := if j < 16 then 0x79cc4519 else 0x7a879d8a

/-- `FF(j, x, y, z)` (40 R107). -/
def sm3FF (j : Nat) (x y z : Word) : Word :=
  if j < 16 then x ^^^ y ^^^ z else (x ||| y) &&& (x ||| z) &&& (y ||| z)

/-- `GG(j, x, y, z)` (40 R107). -/
def sm3GG (j : Nat) (x y z : Word) : Word :=
  if j < 16 then x ^^^ y ^^^ z else (x &&& y) ||| (~~~x &&& z)

/-- Round j on the working words A..H (40 R108). -/
def sm3Round (w : List Word) (r : Words8) (j : Nat) : Words8 :=
  let ss1 := (r.a.rotateLeft 12 + r.e + (sm3T j).rotateLeft (j % 32)).rotateLeft 7
  let ss2 := ss1 ^^^ r.a.rotateLeft 12
  let tt1 := sm3FF j r.a r.b r.c + r.d + ss2 + wPrime w j
  let tt2 := sm3GG j r.e r.f r.g + r.h + ss1 + w.getD j 0
  ⟨tt1, r.a, r.b.rotateLeft 9, r.c, sm3P0 tt2, r.e, r.f.rotateLeft 19, r.g⟩

/-- Wordwise xor. -/
def Words8.xor (v r : Words8) : Words8 :=
  ⟨v.a ^^^ r.a, v.b ^^^ r.b, v.c ^^^ r.c, v.d ^^^ r.d, v.e ^^^ r.e, v.f ^^^ r.f, v.g ^^^ r.g, v.h ^^^ r.h⟩

/-- `CF(V, B)` (40 R109). -/
def sm3CF (v : Words8) (b : Bytes) : Words8 :=
  v.xor ((List.range 64).foldl (sm3Round (expandW b)) v)

/-- Compresses the first n 64-byte blocks of a string, in order (40 R112, R114). -/
def compressBlocks (v : Words8) (m : Bytes) (n : Nat) : Words8 :=
  (List.range n).foldl (fun v i => sm3CF v (slice m (64 * i) 64)) v

/-- The number of zero bytes of the padding: the least z that makes the length a multiple of 64 (40 R111). -/
def padZeros (bufLen : Nat) : Nat := modN (55 - (bufLen : Int)) 64

/-- `Pad(buf, L)` (40 R111, C2). -/
def sm3Pad (buf : Bytes) (bits : Nat) : Bytes :=
  buf ++ [0x80] ++ List.replicate (padZeros buf.length) 0 ++ be 8 bits

/-- The eight words, big-endian (40 R112). -/
def Words8.bytes (v : Words8) : Bytes :=
  lanesOfWord v.a ++ lanesOfWord v.b ++ lanesOfWord v.c ++ lanesOfWord v.d
    ++ lanesOfWord v.e ++ lanesOfWord v.f ++ lanesOfWord v.g ++ lanesOfWord v.h

/-- The words of a hash state by index (10 R34). -/
def Words8.get (v : Words8) (i : Nat) : Word :=
  [v.a, v.b, v.c, v.d, v.e, v.f, v.g, v.h].getD i 0

/-- `SM3(m)` (40 R112). -/
def sm3 (m : Bytes) : Bytes :=
  let n := m.length / 64
  let t := sm3Pad (m.drop (64 * n)) (8 * m.length)
  (compressBlocks (compressBlocks Words8.iv m n) t (t.length / 64)).bytes

/-- The loop of `Absorb`: compress while 64 bytes are there (40 R113). `fuel` bounds the number of blocks. -/
def absorbLoop : Nat → Words8 → Bytes → Words8 × Bytes
  | 0, v, buf => (v, buf)
  | fuel + 1, v, buf =>
    if 64 ≤ buf.length then absorbLoop fuel (sm3CF v (buf.take 64)) (buf.drop 64) else (v, buf)

/-- `Absorb(X, data)` (40 R113, D10). -/
def absorb (x : HashCtx) (data : Bytes) : HashCtx :=
  let buf := x.buf ++ data
  let r := absorbLoop buf.length x.v buf
  ⟨r.1, r.2, x.cnt + BitVec.ofNat 64 (8 * data.length)⟩

/-- `Finalize(X)`: the digest, on a copy of the context (40 R114, C1). -/
def finalize (x : HashCtx) : Bytes :=
  let t := sm3Pad x.buf x.cnt.toNat
  (compressBlocks x.v t (t.length / 64)).bytes

end Sys2Proof.Machine
end

