-- ==== Sys2Proof/Machine/Bus.lean ====
section
/-! DEFINITION. The host's side of the window: what stands at each offset (10 R21, 20 R61), reads, writes, malformed
accesses, the complete table of host moves (70 R295), and the answers of the RNG port (41 R135). -/

namespace Sys2Proof.Machine

/-- What stands at a word offset of the window (10 R21, 20 R61). -/
inductive Place where
  | id | cmd | status | errcode | errlog | ctrl | mlen | idlen | klen | olen | ctxsel | hbufLen | hcntHi | hcntLo
  | hv (i : Nat)
  | hbuf (i : Nat)
  | domBits
  | opWord (r : OpReg) (i : Nat)
  | bufWord (b : Buf) (a : Nat)
  | reserved
deriving DecidableEq, Repr

/-- The size of the window: 2^22 bytes (20 R60). -/
def windowSize : Nat := 2 ^ 22

/-- The registers below 0x1000 (10 R21). -/
def regPlace (c : Config.Params) (off : Nat) : Place :=
  if off < 0x0100 then
    match off with
    | 0x00 => .id
    | 0x04 => .cmd
    | 0x08 => .status
    | 0x0C => .errcode
    | 0x10 => .errlog
    | 0x14 => .ctrl
    | 0x18 => .mlen
    | 0x1C => .idlen
    | 0x20 => .klen
    | 0x24 => .olen
    | 0x28 => .ctxsel
    | 0x2C => .hbufLen
    | 0x30 => .hcntHi
    | 0x34 => .hcntLo
    | 0xA0 => .domBits
    | n =>
      if 0x40 ≤ n ∧ n < 0x60 then .hv ((n - 0x40) / 4)
      else if 0x60 ≤ n ∧ n < 0xA0 then .hbuf ((n - 0x60) / 4)
      else .reserved
  else
    match OpReg.all[(off - 0x0100) / 0x80]? with
    | none => .reserved
    | some r => if (off - 0x0100) % 0x80 / 4 < c.nw then .opWord r ((off - 0x0100) % 0x80 / 4) else .reserved

/-- The word of a buffer at an offset inside its region, reserved beyond the capacity (20 R61, R62). -/
def bufPlace (c : Config.Params) (b : Buf) (off : Nat) : Place :=
  if off - b.base < b.cap c then .bufWord b (off - b.base) else .reserved

/-- What stands at a word offset of the window (20 R61). -/
def place (c : Config.Params) (off : Nat) : Place :=
  if off < 0x001000 then regPlace c off
  else if off < 0x100000 then bufPlace c .id off
  else if off < 0x200000 then bufPlace c .msg off
  else if off < windowSize then bufPlace c .out off
  else .reserved

/-- The slot number of an operand register (10 R36). -/
def OpReg.slot : OpReg → Nat
  | .domP => 0
  | .domA => 1
  | .domB => 2
  | .domGx => 3
  | .domGy => 4
  | .domN => 5
  | .keyD => 6
  | .keyQx => 7
  | .keyQy => 8
  | .sigR => 9
  | .sigS => 10
  | .kdfZx => 11
  | .kdfZy => 12

/-- The offset of a place (10 R21, R36, 20 R62); `reserved` stands for many offsets, 0x38 is one of them. -/
def Place.offset : Place → Nat
  | .id => 0x00
  | .cmd => 0x04
  | .status => 0x08
  | .errcode => 0x0C
  | .errlog => 0x10
  | .ctrl => 0x14
  | .mlen => 0x18
  | .idlen => 0x1C
  | .klen => 0x20
  | .olen => 0x24
  | .ctxsel => 0x28
  | .hbufLen => 0x2C
  | .hcntHi => 0x30
  | .hcntLo => 0x34
  | .hv i => 0x40 + 4 * i
  | .hbuf i => 0x60 + 4 * i
  | .domBits => 0xA0
  | .opWord r i => 0x0100 + 0x80 * r.slot + 4 * i
  | .bufWord b a => b.base + a
  | .reserved => 0x38

/-- Word i of an operand register of `nw` words: word 0 is the most significant (10 R36). -/
def regWord (nw v i : Nat) : Word := BitVec.ofNat 32 (v / 2 ^ (32 * (nw - 1 - i)))

/-- A register value with its word i replaced and the others kept (10 R36). -/
def withRegWord (nw v i : Nat) (w : Word) : Nat :=
  let low := 2 ^ (32 * (nw - 1 - i))
  v / (low * 2 ^ 32) * (low * 2 ^ 32) + w.toNat * low + v % low

/-- A word of a buffer, as the host sees it: `visible` says which byte indexes show (20 R63, R72). -/
def bufWordRead (s : State) (b : Buf) (a : Nat) (visible : Nat → Bool) : Word :=
  let lane (i : Nat) : Byte := if visible (a + i) then memGet s.mem (b.base + (a + i)) else 0
  wordOfLanes (lane 0) (lane 1) (lane 2) (lane 3)

/-- Which bytes of a buffer the host sees: of `OUTBUF`, those below `OLEN` (20 R72). -/
def bufVisible (s : State) (b : Buf) (i : Nat) : Bool :=
  match b with
  | .id => true
  | .msg => true
  | .out => i < s.olen.toNat

/-- A register of the hash window: 0 when `CTXSEL` names no context (10 R34). -/
def windowWord (s : State) (view : HashCtx → Word) : Word :=
  if s.ctxsel.toNat < s.cfg.nctx then view (hashCtx s.ctxsel.toNat s) else 0

/-- `HBUFi`: four pending bytes, most significant first, 0 beyond the pending length (10 R34). -/
def hbufWord (x : HashCtx) (i : Nat) : Word :=
  wordOfLanes (byteAt x.buf (4 * i)) (byteAt x.buf (4 * i + 1)) (byteAt x.buf (4 * i + 2)) (byteAt x.buf (4 * i + 3))

/-- The value at a place while `BUSY = 0` (10 R21 to R36, 20 R63, R72). -/
def placeRead (s : State) : Place → Word
  | .id => Config.idWord
  | .cmd => s.cmd
  | .status => statusWord s
  | .errcode => s.errcode.zeroExtend 32
  | .errlog => s.errlog
  | .ctrl => ctrlWord s
  | .mlen => s.mlen
  | .idlen => s.idlen
  | .klen => s.klen
  | .olen => s.olen
  | .ctxsel => s.ctxsel.zeroExtend 32
  | .hbufLen => windowWord s fun x => BitVec.ofNat 32 x.buf.length
  | .hcntHi => windowWord s fun x => x.cnt.extractLsb' 32 32
  | .hcntLo => windowWord s fun x => x.cnt.extractLsb' 0 32
  | .hv i => windowWord s fun x => x.v.get i
  | .hbuf i => windowWord s fun x => hbufWord x i
  | .domBits => s.domBits
  | .opWord r i => regWord s.cfg.nw (s.regs.get r) i
  | .bufWord b a => bufWordRead s b a (bufVisible s b)
  | .reserved => 0

/-- The six registers that read their value while `BUSY = 1` (20 R71). -/
def readableWhenBusy : Place → Bool
  | .id | .cmd | .status | .errcode | .errlog | .ctrl => true
  | .mlen | .idlen | .klen | .olen | .ctxsel | .hbufLen | .hcntHi | .hcntLo => false
  | .hv _ | .hbuf _ | .domBits | .opWord _ _ | .bufWord _ _ | .reserved => false

/-- `BusRead(off)`: a legal read (20 R67, R71). -/
def busRead (s : State) (off : Nat) : Word :=
  if s.busy && !readableWhenBusy (place s.cfg off) then 0 else placeRead s (place s.cfg off)

/-- A write to `CTRL`: SRST resets and the other bits are lost; else IE is stored and ACK clears `DONE` (10 R28). -/
def ctrlWrite (v : Word) (s : State) : State :=
  if v.getLsbD 0 then resetCore s
  else { s with ie := v.getLsbD 1, done := s.done && !v.getLsbD 2 }

/-- A write to word i of an operand register; a domain register clears `DOMOK`, whatever is written (10 R36, R37). -/
def opWordWrite (r : OpReg) (i : Nat) (v : Word) (s : State) : State :=
  let s' := setReg r (withRegWord s.cfg.nw (s.regs.get r) i v) s
  if r.isDomain then { s' with domok := false } else s'

/-- A legal write while `BUSY = 0`, to any place but `CTRL` (20 R67, 10 R23 to R41); read-only and reserved places and
`OUTBUF` ignore it. -/
def placeWrite (v : Word) (s : State) : Place → State
  | .cmd => issue v s
  | .mlen => { s with mlen := v }
  | .idlen => { s with idlen := v }
  | .klen => { s with klen := v }
  | .ctxsel => { s with ctxsel := v.extractLsb' 0 4 }
  | .domBits => { s with domBits := v, domok := false }
  | .opWord r i => opWordWrite r i v s
  | .bufWord .id a => memWrite .id a (lanesOfWord v) s
  | .bufWord .msg a => memWrite .msg a (lanesOfWord v) s
  | .bufWord .out _ => s
  | .id | .status | .errcode | .errlog | .ctrl | .olen | .hbufLen | .hcntHi | .hcntLo => s
  | .hv _ | .hbuf _ | .reserved => s

/-- `BusWrite(off, v)`: a legal write; while `BUSY = 1` one to any place but `CTRL` is dropped and logged (20 R70). -/
def busWrite (off : Nat) (v : Word) (s : State) : State :=
  if place s.cfg off = .ctrl then ctrlWrite v s
  else if s.busy then logError busyWrBit s
  else placeWrite v s (place s.cfg off)

/-- A legal access is 32 bits wide at a multiple of 4 inside the window (20 R65, R66). -/
def legalAccess (width off : Nat) : Bool := width = 32 && off % 4 = 0 && off < windowSize

/-- The bus error response; a read returns 0 (20 R66, V-X-6). -/
def BusReply.failed : BusReply := ⟨true, 0⟩

/-- The response to a write. -/
def BusReply.written : BusReply := ⟨false, 0⟩

/-- A move of the host (70 R295). -/
def hostMove (m : HostMove) (s : State) : State :=
  match m with
  | .rst => resetCore s
  | .read width off =>
    if legalAccess width off then { s with reply := ⟨false, busRead s off⟩ }
    else { logError busErrBit s with reply := BusReply.failed }
  | .write width off v =>
    if legalAccess width off then { busWrite off v s with reply := BusReply.written }
    else { logError busErrBit s with reply := BusReply.failed }

/-- Whether a request to the RNG port is outstanding: a drawing state with no answer there, in which the limit allows the
draw. Over `RETRY_LIMIT` the CORE makes no request (41 R137), so an answer that comes then is late. DEDUCED (log 21). -/
def State.rngWaiting (s : State) : Bool :=
  (s.seq = .kgDraw || s.seq = .sgDraw || s.seq = .enDraw) && s.rng.isEmpty
    && !overLimit s.cfg.retryLimit (s.tmp.tries + 1)

/-- The RNG port answers the outstanding request; with none outstanding the answer is late and is ignored (41 R135,
70 R281; log 21). -/
def rngMove (a : RngAnswer) (s : State) : State := if s.rngWaiting then { s with rng := [a] } else s

end Sys2Proof.Machine
end

