-- ==== Sys2Proof/Machine/Der.lean ====
section
/-! DEFINITION. The DER encoder and decoder and the commands `DER_ENC_SIG`, `DER_DEC_SIG`, `DER_ENC_CT`, `DER_DEC_CT`
(45 R210 to R228). A parser answers `none` where the rule raises `ERR_ENCODING`; `stop` is the end of its range, which it
never reads at or beyond. -/

namespace Sys2Proof.Machine

/-- The tag of a SEQUENCE (45 R211). -/
def tagSequence : Byte := 0x30

/-- The tag of an INTEGER (45 R211). -/
def tagInteger : Byte := 0x02

/-- The tag of an OCTET STRING (45 R211). -/
def tagOctets : Byte := 0x04

/-- `DerLen(L)` (45 R212). -/
def derLen (n : Nat) : Bytes :=
  if n < 128 then [BitVec.ofNat 8 n]
  else (0x80 ||| BitVec.ofNat 8 (minbytes n).length) :: minbytes n

/-- `tag ‖ length ‖ content` (45 R211). -/
def derElement (tag : Byte) (content : Bytes) : Bytes := tag :: (derLen content.length ++ content)

/-- The content of an INTEGER: the shortest two's-complement encoding (45 R213). -/
def derIntContent (v : Nat) : Bytes :=
  if v = 0 then [0x00]
  else if 0x80 ≤ (byteAt (minbytes v) 0).toNat then 0x00 :: minbytes v
  else minbytes v

/-- `DerInt(v)` (45 R213). -/
def derInt (v : Nat) : Bytes := derElement tagInteger (derIntContent v)

/-- `DerOct(s)` (45 R214). -/
def derOct (s : Bytes) : Bytes := derElement tagOctets s

/-- `DerSeq(body)` (45 R215). -/
def derSeq (body : Bytes) : Bytes := derElement tagSequence body

/-- `ParseLen(b, i, end)`: the length and the index after it (45 R216). -/
def parseLen (b : Bytes) (i stop : Nat) : Option (Nat × Nat) :=
  if stop ≤ i then none
  else
    let f := (byteAt b i).toNat
    if f < 0x80 then (if stop < i + 1 + f then none else some (f, i + 1))
    else if f = 0x80 then none
    else
      let n := f % 0x80
      if 4 < n then none
      else if stop < i + 1 + n then none
      else if byteAt b (i + 1) = 0 then none
      else
        let len := intOf (slice b (i + 1) n)
        if len < 128 then none
        else if stop < i + 1 + n + len then none
        else some (len, i + 1 + n)

/-- `ParseTLV(b, i, end, tag)`: the content range (45 R217). -/
def parseTlv (b : Bytes) (i stop : Nat) (tag : Byte) : Option (Nat × Nat) :=
  if stop ≤ i then none
  else if byteAt b i ≠ tag then none
  else (parseLen b (i + 1) stop).map fun r => (r.2, r.2 + r.1)

/-- `ParseInt(b, i, end, maxbits)`: the value and the index after it (45 R218). -/
def parseInt (b : Bytes) (i stop maxBits : Nat) : Option (Nat × Nat) :=
  match parseTlv b i stop tagInteger with
  | none => none
  | some (s, e) =>
    if e = s then none
    else if 0x80 ≤ (byteAt b s).toNat then none
    else if 2 ≤ e - s ∧ byteAt b s = 0 ∧ (byteAt b (s + 1)).toNat < 0x80 then none
    else if 2 ^ maxBits ≤ intOf (slice b s (e - s)) then none
    else some (intOf (slice b s (e - s)), e)

/-- `ParseOct(b, i, end)`: the content and the index after it (45 R219). -/
def parseOct (b : Bytes) (i stop : Nat) : Option (Bytes × Nat) :=
  (parseTlv b i stop tagOctets).map fun r => (slice b r.1 (r.2 - r.1), r.2)

/-- `DerSig(R, S)` (45 R220); `parseSig` reads it back (R227). -/
def derSig (r s : Nat) : Bytes := derSeq (derInt r ++ derInt s)

/-- `ParseSig(b)` (45 R220): it accepts `derSig` of the values it reads and nothing else (R227). -/
def parseSig (opBits : Nat) (b : Bytes) : Option (Nat × Nat) :=
  match parseTlv b 0 b.length tagSequence with
  | none => none
  | some (s, e) =>
    if e ≠ b.length then none
    else match parseInt b s e opBits with
      | none => none
      | some (r, i) =>
        match parseInt b i e opBits with
        | none => none
        | some (v, j) => if j ≠ e then none else some (r, v)

/-- `DerCt(X, Y, C3, C2)`: the tag before the body (45 R221, C3); `parseCt` reads it back (R227). -/
def derCt (ct : Ciphertext) : Bytes := derSeq (derInt ct.c1.x ++ derInt ct.c1.y ++ derOct ct.c3 ++ derOct ct.c2)

/-- `ParseCt(b)` (45 R221): it accepts `derCt` of the values it reads and nothing else (R227). -/
def parseCt (keyBytes : Nat) (b : Bytes) : Option Ciphertext :=
  match parseTlv b 0 b.length tagSequence with
  | none => none
  | some (s, e) =>
    if e ≠ b.length then none
    else match parseInt b s e (8 * keyBytes) with
      | none => none
      | some (x, i1) =>
        match parseInt b i1 e (8 * keyBytes) with
        | none => none
        | some (y, i2) =>
          match parseOct b i2 e with
          | none => none
          | some (c3, i3) =>
            match parseOct b i3 e with
            | none => none
            | some (c2, i4) =>
              if i4 ≠ e then none
              else if c3.length ≠ Config.c3Len then none
              else some ⟨⟨x, y⟩, c2, c3⟩

/-- The end of a command whose output may not fit: `ERR_PARAM` before any write (45 R222, R225, R226). -/
def outputOrParam (i : Instr) (out : Bytes) (s : State) : State :=
  if s.cfg.outCap < out.length then raise (destinations i) .param s else complete (output out s)

/-- `DER_RUN` of `DER_ENC_SIG` (45 R222). -/
def derEncSigRun (s : State) : State := outputOrParam .derEncSig (derSig s.regs.sigR s.regs.sigS) s

/-- `DER_RUN` of `DER_DEC_SIG` (45 R223). -/
def derDecSigRun (s : State) : State :=
  match parseSig s.cfg.opBits s.message with
  | none => raise (destinations .derDecSig) .encoding s
  | some (r, v) => complete (setReg .sigS v (setReg .sigR r s))

/-- `DER_RUN` of `DER_ENC_CT` (45 R225). -/
def derEncCtRun (s : State) : State :=
  if byteAt s.message 0 ≠ 0x04 then raise (destinations .derEncCt) .encoding s
  else outputOrParam .derEncCt (derCt (splitFlat s.keyBytes s.message)) s

/-- `DER_RUN` of `DER_DEC_CT` (45 R226). -/
def derDecCtRun (s : State) : State :=
  match parseCt s.keyBytes s.message with
  | none => raise (destinations .derDecCt) .encoding s
  | some ct => outputOrParam .derDecCt (flatBytes s.keyBytes ct) s

/-- Run states of `DER_ENC_SIG` (45 R228). -/
def derEncSigBody : State → Option State := singleState .derRun derEncSigRun

/-- Run states of `DER_DEC_SIG` (45 R228). -/
def derDecSigBody : State → Option State := singleState .derRun derDecSigRun

/-- Run states of `DER_ENC_CT` (45 R228). -/
def derEncCtBody : State → Option State := singleState .derRun derEncCtRun

/-- Run states of `DER_DEC_CT` (45 R228). -/
def derDecCtBody : State → Option State := singleState .derRun derDecCtRun

/-- `DER_ENC_SIG` (45 R222). -/
def execDerEncSig (s : State) : Host.Outcome State Fault Refusal := runCommand .derEncSig derEncSigBody s

/-- `DER_DEC_SIG` (45 R223). -/
def execDerDecSig (s : State) : Host.Outcome State Fault Refusal := runCommand .derDecSig derDecSigBody s

/-- `DER_ENC_CT` (45 R225); `execDerDecCt` undoes it (R227). -/
def execDerEncCt (s : State) : Host.Outcome State Fault Refusal := runCommand .derEncCt derEncCtBody s

/-- `DER_DEC_CT` (45 R226); it gives back the flat form that `execDerEncCt` encoded (R227). -/
def execDerDecCt (s : State) : Host.Outcome State Fault Refusal := runCommand .derDecCt derDecCtBody s

end Sys2Proof.Machine
end

