-- ==== Sys2Proof/Machine/Kdf.lean ====
section
/-! DEFINITION. The KDF keystream generator and the command `KDF` (42 R155 to R158). -/

namespace Sys2Proof.Machine

/-- `be32(ct)`, the counter as hash input (42 R155). The spec leaves open what a counter above 2^32 - 1 does, and no command
reaches it (42 R156, 91 N7): there the model takes a free value. DESIGN CHOICE (log 25). -/
def kdfCounter (ct : Nat) : Bytes := if ct < 2 ^ 32 then be 4 ct else Config.counterFree ct

/-- The loop of `Kdf`: n more hash calls from counter ct on, each in `HI` (42 R155). The result is `HI` and the keystream. -/
def kdfLoop (seed : Bytes) : Nat → Nat → HashCtx → Bytes → HashCtx × Bytes
  | 0, _, hi, ks => (hi, ks)
  | n + 1, ct, _, ks =>
    let hi' := absorb HashCtx.init (seed ++ kdfCounter ct)
    kdfLoop seed n (ct + 1) hi' (ks ++ finalize hi')

/-- `Kdf(zx, zy, outLen)` on the serialised coordinates `seed = ser(zx) ‖ ser(zy)`, started with the context `hi`: what it
leaves in `HI`, and the keystream (42 R155). -/
def kdfStream (seed : Bytes) (outLen : Nat) (hi : HashCtx) : HashCtx × Bytes :=
  let r := kdfLoop seed (ceilDiv outLen 32) 1 hi []
  (r.1, r.2.take outLen)

/-- `ser(zx) ‖ ser(zy)` (42 R155). -/
def kdfSeed (zx zy : Nat) (s : State) : Bytes := s.ser zx ++ s.ser zy

/-- `KDF_RUN` (42 R157). -/
def kdfRun (s : State) : State :=
  let r := kdfStream (kdfSeed s.regs.kdfZx s.regs.kdfZy s) s.klen.toNat s.hi
  complete (output r.2 { s with hi := r.1 })

/-- Run states of `KDF` (42 R158). -/
def kdfBody : State → Option State := singleState .kdfRun kdfRun

/-- `KDF` (42 R157). -/
def execKdf (s : State) : Host.Outcome State Fault Refusal := runCommand .kdf kdfBody s

end Sys2Proof.Machine
end

