-- ==== Sys2Proof/Machine/Encryption.lean ====
section
/-! DEFINITION. The encryption commands `ENCRYPT` and `DECRYPT` (44 R190 to R205), one definition for each sequencer state. -/

namespace Sys2Proof.Machine

/-- `EN_DRAW` with an accepted draw (44 R192). -/
def enAccept (k : Nat) (s : State) : State := { s with tmp := { s.tmp with k := k }, seq := .enPoint }

/-- `EN_POINT`: `C1 = k·G` in P1 and the shared point `k·PB` in P2 (44 R192). -/
def enPoint (s : State) : State :=
  { s with tmp := { s.tmp with p1 := s.gaMulBase s.tmp.k, p2 := s.gaMul s.pubKey s.tmp.k }, seq := .enKdf }

/-- `EN_KDF`: the keystream, `C2` in wbuf; retry when the keystream changed nothing (44 R193). -/
def enKdf (s : State) : State :=
  let r := kdfStream (kdfSeed s.tmp.p2.x s.tmp.p2.y s) s.mlen.toNat s.hi
  let c2 := xorBytes s.message r.2
  { s with
    hi := r.1
    tmp := { s.tmp with ks := r.2, wbuf := c2 }
    seq := if c2 = s.message then .enDraw else .enTag }

/-- The context that holds `ser(x2) ‖ m ‖ ser(y2)`, the input of the tag (44 R195). -/
def tagCtx (q : Point) (m : Bytes) (s : State) : HashCtx := absorb HashCtx.init (s.ser q.x ++ m ++ s.ser q.y)

/-- `EN_TAG`: C3, the hash of the plaintext between the coordinates, computed in `HI` (44 R195). -/
def enTag (s : State) : State :=
  let x := tagCtx s.tmp.p2 s.message s
  { s with hi := x, tmp := { s.tmp with c3 := finalize x }, seq := .enOut }

/-- `EN_OUT` (44 R196). -/
def enOut (s : State) : State := complete (output (flatBytes s.keyBytes ⟨s.tmp.p1, s.tmp.wbuf, s.tmp.c3⟩) s)

/-- Run states of `ENCRYPT` (44 R194). -/
def encryptBody (s : State) : Option State :=
  match s.seq with
  | .enDraw => drawScalar .encrypt enAccept s
  | .enPoint => some (enPoint s)
  | .enKdf => some (enKdf s)
  | .enTag => some (enTag s)
  | .enOut => some (enOut s)
  | _ => none

/-- `ENCRYPT` (44 R191). -/
def execEncrypt (s : State) : Host.Outcome State Fault Refusal := runCommand .encrypt encryptBody s

/-- The ciphertext in `MSGBUF`, split (44 R198). -/
def State.flatInput (s : State) : Ciphertext := splitFlat s.keyBytes s.message

/-- `DE_PARSE`: a first byte other than 0x04 raises `ERR_ENCODING`; C1 is kept in P1 (44 R199; log 9). -/
def deParse (s : State) : State :=
  if byteAt s.message 0 ≠ 0x04 then raise (destinations .decrypt) .encoding s
  else { s with tmp := { s.tmp with p1 := s.flatInput.c1 }, seq := .deCof }

/-- `DE_COF`: the cofactor is 1; a point at infinity raises `ERR_INTEGRITY` (44 R200). -/
def deCof (s : State) : State :=
  if s.gaIsInf (s.gaMul s.tmp.p1 1) then raise (destinations .decrypt) .integrity s else { s with seq := .deShare }

/-- `DE_SHARE` (44 R201). -/
def deShare (s : State) : State :=
  { s with tmp := { s.tmp with p2 := s.gaMul s.tmp.p1 s.regs.keyD }, seq := .deKdf }

/-- `DE_KDF`: the candidate plaintext in wbuf (44 R202). -/
def deKdf (s : State) : State :=
  let r := kdfStream (kdfSeed s.tmp.p2.x s.tmp.p2.y s) s.flatInput.c2.length s.hi
  { s with hi := r.1, tmp := { s.tmp with ks := r.2, wbuf := xorBytes s.flatInput.c2 r.2 }, seq := .deTag }

/-- `DE_TAG`: a tag that differs raises `ERR_INTEGRITY` (44 R203). -/
def deTag (s : State) : State :=
  let x := tagCtx s.tmp.p2 s.tmp.wbuf s
  if finalize x ≠ s.flatInput.c3 then raise (destinations .decrypt) .integrity { s with hi := x }
  else { s with hi := x, seq := .deOut }

/-- `DE_OUT` (44 R204). -/
def deOut (s : State) : State := complete (output s.tmp.wbuf s)

/-- Run states of `DECRYPT` (44 R204). -/
def decryptBody (s : State) : Option State :=
  match s.seq with
  | .deParse => some (deParse s)
  | .deCof => some (deCof s)
  | .deShare => some (deShare s)
  | .deKdf => some (deKdf s)
  | .deTag => some (deTag s)
  | .deOut => some (deOut s)
  | _ => none

/-- `DECRYPT` (44 R198). -/
def execDecrypt (s : State) : Host.Outcome State Fault Refusal := runCommand .decrypt decryptBody s

end Sys2Proof.Machine
end

