-- ==== Sys2Proof/Machine/Hash.lean ====
section
/-! DEFINITION. The hash commands `H_RESET`, `H_UPDATE`, `H_FINAL`, `H_DIGEST` (40 R115 to R120). -/

namespace Sys2Proof.Machine

/-- `HASH_RUN` of `H_RESET c` (40 R115). -/
def hResetRun (c : BitVec 4) (s : State) : State := setHashCtx c.toNat HashCtx.init s

/-- `HASH_RUN` of `H_UPDATE c` (40 R116). -/
def hUpdateRun (c : BitVec 4) (s : State) : State :=
  setHashCtx c.toNat (absorb (hashCtx c.toNat s) s.message) s

/-- `HASH_RUN` of `H_FINAL c`: the context is not changed (40 R117, C1). -/
def hFinalRun (c : BitVec 4) (s : State) : State := output (finalize (hashCtx c.toNat s)) s

/-- `HASH_RUN` of `H_DIGEST c`: reset, update, finalize; the context keeps the absorbed message (40 R118, D9). -/
def hDigestRun (c : BitVec 4) (s : State) : State :=
  let x := absorb HashCtx.init s.message
  output (finalize x) (setHashCtx c.toNat x s)

/-- Run states of `H_RESET` (40 R119). -/
def hResetBody (c : BitVec 4) : State → Option State := singleState .hashRun (complete ∘ hResetRun c)

/-- Run states of `H_UPDATE` (40 R119). -/
def hUpdateBody (c : BitVec 4) : State → Option State := singleState .hashRun (complete ∘ hUpdateRun c)

/-- Run states of `H_FINAL` (40 R119). -/
def hFinalBody (c : BitVec 4) : State → Option State := singleState .hashRun (complete ∘ hFinalRun c)

/-- Run states of `H_DIGEST` (40 R119). -/
def hDigestBody (c : BitVec 4) : State → Option State := singleState .hashRun (complete ∘ hDigestRun c)

/-- `H_RESET c` (40 R115). -/
def execHReset (c : BitVec 4) (s : State) : Host.Outcome State Fault Refusal :=
  runCommand (.hReset c) (hResetBody c) s

/-- `H_UPDATE c` (40 R116). -/
def execHUpdate (c : BitVec 4) (s : State) : Host.Outcome State Fault Refusal :=
  runCommand (.hUpdate c) (hUpdateBody c) s

/-- `H_FINAL c` (40 R117). -/
def execHFinal (c : BitVec 4) (s : State) : Host.Outcome State Fault Refusal :=
  runCommand (.hFinal c) (hFinalBody c) s

/-- `H_DIGEST c` (40 R118). -/
def execHDigest (c : BitVec 4) (s : State) : Host.Outcome State Fault Refusal :=
  runCommand (.hDigest c) (hDigestBody c) s

end Sys2Proof.Machine
end

