-- ==== Sys2Proof/Machine/Keypair.lean ====
section
/-! DEFINITION. The domain and key-pair commands `DOM_CHECK`, `KEYGEN`, `PUBKEY` (41 R138 to R144). -/

namespace Sys2Proof.Machine

/-- `DOM_RUN` (41 R139): `DOMOK` and `RESULT` take the verdict, and a domain that is not valid raises `ERR_DOMAIN`. -/
def domCheckRun (s : State) : State :=
  let ok := validDomain s.cfg.opBits s.dom
  let s' := { s with domok := ok, result := ok }
  if ok then complete s' else raise (destinations .domCheck) .domain s'

/-- Run states of `DOM_CHECK` (41 R144). -/
def domCheckBody : State → Option State := singleState .domRun domCheckRun

/-- `DOM_CHECK` (41 R139). -/
def execDomCheck (s : State) : Host.Outcome State Fault Refusal := runCommand .domCheck domCheckBody s

/-- `KG_DRAW` with an accepted draw: `d` stands in the temporary `k` until `KG_PUB`. DEDUCED (41 R142, 10 R42; log 9). -/
def kgAccept (d : Nat) (s : State) : State := { s with tmp := { s.tmp with k := d }, seq := .kgPub }

/-- `KG_PUB`: `KEY_D <- d; (KEY_QX, KEY_QY) <- GA.mulBase(d)` (41 R142). -/
def kgPub (s : State) : State :=
  complete (setPubKey (s.gaMulBase s.tmp.k) (setReg .keyD s.tmp.k s))

/-- Run states of `KEYGEN` (41 R144). -/
def keygenBody (s : State) : Option State :=
  match s.seq with
  | .kgDraw => drawScalar .keygen kgAccept s
  | .kgPub => some (kgPub s)
  | _ => none

/-- `KEYGEN` (41 R142). -/
def execKeygen (s : State) : Host.Outcome State Fault Refusal := runCommand .keygen keygenBody s

/-- `PUB_RUN`: `(KEY_QX, KEY_QY) <- GA.mulBase(KEY_D)` (41 R141). -/
def pubkeyRun (s : State) : State := complete (setPubKey (s.gaMulBase s.regs.keyD) s)

/-- Run states of `PUBKEY` (41 R144). -/
def pubkeyBody : State → Option State := singleState .pubRun pubkeyRun

/-- `PUBKEY` (41 R141). -/
def execPubkey (s : State) : Host.Outcome State Fault Refusal := runCommand .pubkey pubkeyBody s

end Sys2Proof.Machine
end

