-- ==== Sys2Proof/Machine/Keys.lean ====
section
/-! DEFINITION. The key byte forms: `KEY_ENC.PUB/RAW/PRIV` and `KEY_DEC.PUB/RAW/PRIV` (46 R240 to R245). -/

namespace Sys2Proof.Machine

/-- `KEY_RUN` of `KEY_ENC` (46 R242): no test is made on the register values. -/
def keyEncRun (f : KeyForm) (s : State) : State := complete (output (keyFormBytes f s) s)

/-- The coordinates in a byte string, from index i on (46 R243). -/
def pointAt (keyBytes : Nat) (b : Bytes) (i : Nat) : Point :=
  ⟨intOf (slice b i keyBytes), intOf (slice b (i + keyBytes) keyBytes)⟩

/-- `KEY_RUN` of `KEY_DEC.PUB` (46 R243): a wrong first byte raises `ERR_ENCODING`. -/
def keyDecPubRun (s : State) : State :=
  if byteAt s.message 0 ≠ 0x04 then raise (destinations .keyDecPub) .encoding s
  else complete (setPubKey (pointAt s.keyBytes s.message 1) s)

/-- `KEY_RUN` of `KEY_DEC.RAW` (46 R243). -/
def keyDecRawRun (s : State) : State := complete (setPubKey (pointAt s.keyBytes s.message 0) s)

/-- `KEY_RUN` of `KEY_DEC.PRIV` (46 R243). -/
def keyDecPrivRun (s : State) : State := complete (setReg .keyD (intOf (slice s.message 0 s.keyBytes)) s)

/-- Run states of `KEY_ENC.PUB` (46 R245). -/
def keyEncPubBody : State → Option State := singleState .keyRun (keyEncRun .pub)

/-- Run states of `KEY_ENC.RAW` (46 R245). -/
def keyEncRawBody : State → Option State := singleState .keyRun (keyEncRun .raw)

/-- Run states of `KEY_ENC.PRIV` (46 R245). -/
def keyEncPrivBody : State → Option State := singleState .keyRun (keyEncRun .priv)

/-- Run states of `KEY_DEC.PUB` (46 R245). -/
def keyDecPubBody : State → Option State := singleState .keyRun keyDecPubRun

/-- Run states of `KEY_DEC.RAW` (46 R245). -/
def keyDecRawBody : State → Option State := singleState .keyRun keyDecRawRun

/-- Run states of `KEY_DEC.PRIV` (46 R245). -/
def keyDecPrivBody : State → Option State := singleState .keyRun keyDecPrivRun

/-- `KEY_ENC.PUB` (46 R242). -/
def execKeyEncPub (s : State) : Host.Outcome State Fault Refusal := runCommand .keyEncPub keyEncPubBody s

/-- `KEY_ENC.RAW` (46 R242). -/
def execKeyEncRaw (s : State) : Host.Outcome State Fault Refusal := runCommand .keyEncRaw keyEncRawBody s

/-- `KEY_ENC.PRIV` (46 R242). -/
def execKeyEncPriv (s : State) : Host.Outcome State Fault Refusal := runCommand .keyEncPriv keyEncPrivBody s

/-- `KEY_DEC.PUB` (46 R243). -/
def execKeyDecPub (s : State) : Host.Outcome State Fault Refusal := runCommand .keyDecPub keyDecPubBody s

/-- `KEY_DEC.RAW` (46 R243). -/
def execKeyDecRaw (s : State) : Host.Outcome State Fault Refusal := runCommand .keyDecRaw keyDecRawBody s

/-- `KEY_DEC.PRIV` (46 R243). -/
def execKeyDecPriv (s : State) : Host.Outcome State Fault Refusal := runCommand .keyDecPriv keyDecPrivBody s

end Sys2Proof.Machine
end

