-- ==== Sys2Proof/Machine/Signature.lean ====
section
/-! DEFINITION. The signature commands `SIGN`, `SIGN.U`, `VERIFY`, `VERIFY.U` (43 R165 to R187), one definition for each
sequencer state. `u` is the flag `U` (43 R166). -/

namespace Sys2Proof.Machine

/-- The input of the Z-value hash (43 R167): the identifier's length in bits, the identifier, and six integers of minimal
length, not padded. -/
def zInput (d : Domain) (uid : Bytes) (q : Point) : Bytes :=
  be 2 (8 * uid.length) ++ uid ++ minbytes d.a ++ minbytes d.b ++ minbytes d.gx ++ minbytes d.gy
    ++ minbytes q.x ++ minbytes q.y

/-- `SG_Z`, `VF_Z`: the Z-value, computed in `HI` (43 R167). -/
def computeZ (u : Bool) (q : Point) (s : State) : State :=
  let x := absorb HashCtx.init (zInput s.dom (userId u s) q)
  { s with hi := x, tmp := { s.tmp with z := finalize x } }

/-- `SG_E`, `VF_E`: `e`, the digest of `Z ‖ M` read big-endian, computed in `HI` (43 R168). -/
def computeE (s : State) : State :=
  let x := absorb (absorb HashCtx.init s.tmp.z) s.message
  { s with hi := x, tmp := { s.tmp with e := intOf (finalize x) } }

/-- `SG_PUB` (43 R171). -/
def sgPub (s : State) : State :=
  { s with tmp := { s.tmp with pp := s.gaMulBase s.regs.keyD }, seq := .sgZ }

/-- `SG_Z` (43 R172). -/
def sgZ (u : Bool) (s : State) : State := { computeZ u s.tmp.pp s with seq := .sgE }

/-- `SG_E` (43 R172). -/
def sgE (s : State) : State := { computeE s with seq := .sgDraw }

/-- `SG_DRAW` with an accepted draw (43 R173). -/
def sgAccept (k : Nat) (s : State) : State := { s with tmp := { s.tmp with k := k }, seq := .sgPoint }

/-- `SG_POINT` (43 R174). -/
def sgPoint (s : State) : State := { s with tmp := { s.tmp with p1 := s.gaMulBase s.tmp.k }, seq := .sgR }

/-- `SG_R`: `r = (e + x1) mod N`; retry when `r = 0` or `r + k = N` (43 R174). -/
def sgR (s : State) : State :=
  let r := (s.tmp.e + s.tmp.p1.x) % s.regs.domN
  { s with
    tmp := { s.tmp with r := r }
    seq := if r = 0 ∨ r + s.tmp.k = s.regs.domN then .sgDraw else .sgS }

/-- `s = (inv(1 + D, N) * ((k - r*D) mod N)) mod N` (43 R175). -/
def signatureS (n d k r : Nat) : Nat := (inv (1 + d) n * modN ((k : Int) - r * d) n) % n

/-- `SG_S`: retry when `s = 0` (43 R175). -/
def sgS (s : State) : State :=
  let v := signatureS s.regs.domN s.regs.keyD s.tmp.k s.tmp.r
  { s with tmp := { s.tmp with s := v }, seq := if v = 0 then .sgDraw else .sgOut }

/-- `SG_OUT` (43 R177). -/
def sgOut (s : State) : State := complete (setReg .sigS s.tmp.s (setReg .sigR s.tmp.r s))

/-- The run states of `SIGN` (43 R176). -/
def signStates (i : Instr) (u : Bool) (s : State) : Option State :=
  match s.seq with
  | .sgPub => some (sgPub s)
  | .sgZ => some (sgZ u s)
  | .sgE => some (sgE s)
  | .sgDraw => drawScalar i sgAccept s
  | .sgPoint => some (sgPoint s)
  | .sgR => some (sgR s)
  | .sgS => some (sgS s)
  | .sgOut => some (sgOut s)
  | _ => none

/-- Run states of `SIGN`, `U = 0`. -/
def signBody : State → Option State := signStates .sign false

/-- Run states of `SIGN.U`, `U = 1`. -/
def signUBody : State → Option State := signStates .signU true

/-- `SIGN` (43 R170). -/
def execSign (s : State) : Host.Outcome State Fault Refusal := runCommand .sign signBody s

/-- `SIGN.U` (43 R170). -/
def execSignU (s : State) : Host.Outcome State Fault Refusal := runCommand .signU signUBody s

/-- The end of `VERIFY` with a boolean result: a rejected signature is not an error (43 R180, 60 R251). -/
def vfEnd (accepted : Bool) (s : State) : State := complete { s with result := accepted }

/-- `VF_RANGE` (43 R181). -/
def vfRange (s : State) : State :=
  if s.regs.sigR = 0 ∨ s.regs.sigR ≥ s.regs.domN ∨ s.regs.sigS = 0 ∨ s.regs.sigS ≥ s.regs.domN then vfEnd false s
  else { s with seq := .vfZ }

/-- `VF_Z`: the public point is taken from the registers (43 R182). -/
def vfZ (u : Bool) (s : State) : State := { computeZ u s.pubKey s with seq := .vfE }

/-- `VF_E` (43 R182). -/
def vfE (s : State) : State := { computeE s with seq := .vfT }

/-- `VF_T` (43 R183). -/
def vfT (s : State) : State :=
  let t := (s.regs.sigR + s.regs.sigS) % s.regs.domN
  let s' := { s with tmp := { s.tmp with t := t } }
  if t = 0 then vfEnd false s' else { s' with seq := .vfPoint }

/-- `GA.mul(PA, t)` of `VERIFY`. For PA = `INF`, 43 R186 and 93 U2 leave the answer open although 41 R132 has `INF` within
the contract; the model takes the weaker of the two, a free value. DEDUCED (log 23). -/
def verifyKeyMul (s : State) (t : Nat) : Point :=
  if s.pubKey = Point.inf then Config.verifyInfFree s.dom t else s.gaMul s.pubKey t

/-- `VF_POINT`: `GA.add(GA.mulBase(SIG_S), GA.mul(PA, t))`, rejected at infinity (43 R184). -/
def vfPoint (s : State) : State :=
  let x := s.gaAdd (s.gaMulBase s.regs.sigS) (verifyKeyMul s s.tmp.t)
  let s' := { s with tmp := { s.tmp with p1 := x } }
  if s.gaIsInf x then vfEnd false s' else { s' with seq := .vfCmp }

/-- `VF_CMP`: accept exactly when `(e + x1) mod N = SIG_R` (43 R185). -/
def vfCmp (s : State) : State := vfEnd ((s.tmp.e + s.tmp.p1.x) % s.regs.domN = s.regs.sigR) s

/-- The run states of `VERIFY` (43 R185). -/
def verifyStates (u : Bool) (s : State) : Option State :=
  match s.seq with
  | .vfRange => some (vfRange s)
  | .vfZ => some (vfZ u s)
  | .vfE => some (vfE s)
  | .vfT => some (vfT s)
  | .vfPoint => some (vfPoint s)
  | .vfCmp => some (vfCmp s)
  | _ => none

/-- Run states of `VERIFY`, `U = 0`. -/
def verifyBody : State → Option State := verifyStates false

/-- Run states of `VERIFY.U`, `U = 1`. -/
def verifyUBody : State → Option State := verifyStates true

/-- `VERIFY` (43 R180). -/
def execVerify (s : State) : Host.Outcome State Fault Refusal := runCommand .verify verifyBody s

/-- `VERIFY.U` (43 R180). -/
def execVerifyU (s : State) : Host.Outcome State Fault Refusal := runCommand .verifyU verifyUBody s

end Sys2Proof.Machine
end

