-- ==== Sys2Proof/Machine/Dispatch.lean ====
section
/-! DEFINITION. The meaning of each command, one arm per constructor of Instr (30 R83). -/

namespace Sys2Proof.Machine

/-- The run of command `i` from the state it stands in, until it ends or waits for the RNG port (70 R293 (a), R294). -/
def exec (i : Instr) (s : State) : Host.Outcome State Fault Refusal :=
  match i with
  | .hReset c => Sys2Proof.Machine.execHReset c s
  | .hUpdate c => Sys2Proof.Machine.execHUpdate c s
  | .hFinal c => Sys2Proof.Machine.execHFinal c s
  | .hDigest c => Sys2Proof.Machine.execHDigest c s
  | .domCheck => Sys2Proof.Machine.execDomCheck s
  | .keygen => Sys2Proof.Machine.execKeygen s
  | .pubkey => Sys2Proof.Machine.execPubkey s
  | .kdf => Sys2Proof.Machine.execKdf s
  | .sign => Sys2Proof.Machine.execSign s
  | .signU => Sys2Proof.Machine.execSignU s
  | .verify => Sys2Proof.Machine.execVerify s
  | .verifyU => Sys2Proof.Machine.execVerifyU s
  | .encrypt => Sys2Proof.Machine.execEncrypt s
  | .decrypt => Sys2Proof.Machine.execDecrypt s
  | .derEncSig => Sys2Proof.Machine.execDerEncSig s
  | .derDecSig => Sys2Proof.Machine.execDerDecSig s
  | .derEncCt => Sys2Proof.Machine.execDerEncCt s
  | .derDecCt => Sys2Proof.Machine.execDerDecCt s
  | .keyEncPub => Sys2Proof.Machine.execKeyEncPub s
  | .keyEncRaw => Sys2Proof.Machine.execKeyEncRaw s
  | .keyEncPriv => Sys2Proof.Machine.execKeyEncPriv s
  | .keyDecPub => Sys2Proof.Machine.execKeyDecPub s
  | .keyDecRaw => Sys2Proof.Machine.execKeyDecRaw s
  | .keyDecPriv => Sys2Proof.Machine.execKeyDecPriv s

end Sys2Proof.Machine
end

