-- ==== Sys2Proof/WellFormed.lean ====
section
/-! DEFINITION. Which commands are legal on a CORE with `nctx` host contexts (30 R81, R85). -/

namespace Sys2Proof

/-- `CTX` is legal only when `CTX < NCTX`; the other commands carry no field that could be ill-formed, since their
fields are fixed by the constructor (30 R81). -/
def Instr.WellFormed (nctx : Nat) : Instr → Bool
  | .hReset c => c.toNat < nctx
  | .hUpdate c => c.toNat < nctx
  | .hFinal c => c.toNat < nctx
  | .hDigest c => c.toNat < nctx
  | .domCheck => true
  | .keygen => true
  | .pubkey => true
  | .kdf => true
  | .sign => true
  | .signU => true
  | .verify => true
  | .verifyU => true
  | .encrypt => true
  | .decrypt => true
  | .derEncSig => true
  | .derDecSig => true
  | .derEncCt => true
  | .derDecCt => true
  | .keyEncPub => true
  | .keyEncRaw => true
  | .keyEncPriv => true
  | .keyDecPub => true
  | .keyDecRaw => true
  | .keyDecPriv => true

end Sys2Proof
end

