-- ==== Sys2Proof/Decode.lean ====
section
/-! DEFINITION. Decoder and encoder of the command word (30 R80 to R85). -/

namespace Sys2Proof

/-- `OP`, bits 7:0 (30 R80). -/
def fieldOp (w : Word) : BitVec 8 := w.extractLsb' 0 8

/-- `CTX`, bits 11:8 (30 R80). -/
def fieldCtx (w : Word) : BitVec 4 := w.extractLsb' 8 4

/-- `F`, bits 15:12 (30 R80). -/
def fieldF (w : Word) : BitVec 4 := w.extractLsb' 12 4

/-- Bits 31:16, reserved (30 R80). -/
def fieldReserved (w : Word) : BitVec 16 := w.extractLsb' 16 16

/-- A row of the opcode map: the row matches a word when `(word & mask) == pattern`, and the command it then stands for
is `make CTX` (30 R82). -/
structure OpRow where
  mask : Word
  pattern : Word
  make : BitVec 4 → Instr

/-- The 24 rows of spec/opcode_table.json in the table's order (30 R83). -/
def opRows : List OpRow := [
  ⟨0xFFFFF0FF, 0x00000001, fun c => .hReset c⟩,
  ⟨0xFFFFF0FF, 0x00000002, fun c => .hUpdate c⟩,
  ⟨0xFFFFF0FF, 0x00000003, fun c => .hFinal c⟩,
  ⟨0xFFFFF0FF, 0x00000004, fun c => .hDigest c⟩,
  ⟨0xFFFFFFFF, 0x00000010, fun _ => .domCheck⟩,
  ⟨0xFFFFFFFF, 0x00000011, fun _ => .keygen⟩,
  ⟨0xFFFFFFFF, 0x00000012, fun _ => .pubkey⟩,
  ⟨0xFFFFFFFF, 0x00000018, fun _ => .kdf⟩,
  ⟨0xFFFFFFFF, 0x00000020, fun _ => .sign⟩,
  ⟨0xFFFFFFFF, 0x00001020, fun _ => .signU⟩,
  ⟨0xFFFFFFFF, 0x00000021, fun _ => .verify⟩,
  ⟨0xFFFFFFFF, 0x00001021, fun _ => .verifyU⟩,
  ⟨0xFFFFFFFF, 0x00000028, fun _ => .encrypt⟩,
  ⟨0xFFFFFFFF, 0x00000029, fun _ => .decrypt⟩,
  ⟨0xFFFFFFFF, 0x00000030, fun _ => .derEncSig⟩,
  ⟨0xFFFFFFFF, 0x00000031, fun _ => .derDecSig⟩,
  ⟨0xFFFFFFFF, 0x00000032, fun _ => .derEncCt⟩,
  ⟨0xFFFFFFFF, 0x00000033, fun _ => .derDecCt⟩,
  ⟨0xFFFFFFFF, 0x00000038, fun _ => .keyEncPub⟩,
  ⟨0xFFFFFFFF, 0x00001038, fun _ => .keyEncRaw⟩,
  ⟨0xFFFFFFFF, 0x00002038, fun _ => .keyEncPriv⟩,
  ⟨0xFFFFFFFF, 0x00000039, fun _ => .keyDecPub⟩,
  ⟨0xFFFFFFFF, 0x00001039, fun _ => .keyDecRaw⟩,
  ⟨0xFFFFFFFF, 0x00002039, fun _ => .keyDecPriv⟩]

/-- What a row reads from a word: nothing where it does not match, and for an `H_*` row nothing where
`CTX >= NCTX` (30 R82). -/
def OpRow.read (nctx : Nat) (w : Word) (row : OpRow) : Option Instr :=
  if w &&& row.mask = row.pattern ∧ (row.make (fieldCtx w)).WellFormed nctx then some (row.make (fieldCtx w)) else none

/-- The decoder: the first row that matches; `none` is an illegal word (30 R82, R85). -/
def decode (nctx : Nat) (w : Word) : Option Instr := opRows.findSome? (OpRow.read nctx w)

/-- The word of an `H_*` command: `opcode | (c << 8)` (30 R83). -/
def hashWord (opcode : Word) (c : BitVec 4) : Word := opcode ||| (c.zeroExtend 32 <<< 8)

/-- The full word of a command (30 R83). -/
def encode : Instr → Word
  | .hReset c => hashWord 0x00000001 c
  | .hUpdate c => hashWord 0x00000002 c
  | .hFinal c => hashWord 0x00000003 c
  | .hDigest c => hashWord 0x00000004 c
  | .domCheck => 0x00000010
  | .keygen => 0x00000011
  | .pubkey => 0x00000012
  | .kdf => 0x00000018
  | .sign => 0x00000020
  | .signU => 0x00001020
  | .verify => 0x00000021
  | .verifyU => 0x00001021
  | .encrypt => 0x00000028
  | .decrypt => 0x00000029
  | .derEncSig => 0x00000030
  | .derDecSig => 0x00000031
  | .derEncCt => 0x00000032
  | .derDecCt => 0x00000033
  | .keyEncPub => 0x00000038
  | .keyEncRaw => 0x00001038
  | .keyEncPriv => 0x00002038
  | .keyDecPub => 0x00000039
  | .keyDecRaw => 0x00001039
  | .keyDecPriv => 0x00002039

/-- The command the decoder reads from the low `nbits` bits of `w`, with the default `NCTX` of 00 R8, the one the reset
state carries. DESIGN CHOICE (log 12). A command is one 32-bit word, so no bytes are laid out (30 R80). -/
def decodeTableWord (nbits w : Nat) : Option Instr :=
  decode Config.default.nctx (BitVec.ofNat 32 (w % 2 ^ nbits))

end Sys2Proof
end

