-- ==== Sys2Proof/Machine/Turn.lean ====
section
/-! DEFINITION. One turn of the sequencer on any command (70 R293 (b)), and the turns of an illegal word (30 R85). -/

namespace Sys2Proof.Machine

/-- The run states of each command. -/
def body : Instr → State → Option State
  | .hReset c => hResetBody c
  | .hUpdate c => hUpdateBody c
  | .hFinal c => hFinalBody c
  | .hDigest c => hDigestBody c
  | .domCheck => domCheckBody
  | .keygen => keygenBody
  | .pubkey => pubkeyBody
  | .kdf => kdfBody
  | .sign => signBody
  | .signU => signUBody
  | .verify => verifyBody
  | .verifyU => verifyUBody
  | .encrypt => encryptBody
  | .decrypt => decryptBody
  | .derEncSig => derEncSigBody
  | .derDecSig => derDecSigBody
  | .derEncCt => derEncCtBody
  | .derDecCt => derDecCtBody
  | .keyEncPub => keyEncPubBody
  | .keyEncRaw => keyEncRawBody
  | .keyEncPriv => keyEncPrivBody
  | .keyDecPub => keyDecPubBody
  | .keyDecRaw => keyDecRawBody
  | .keyDecPriv => keyDecPrivBody

/-- One turn of the sequencer on command `i`; `none` when there is no move (70 R293 (b)). -/
def turn (i : Instr) : State → Option State := phase i (body i)

/-- The sequencer states in which an illegal word can stand: it ends in `CHECK` (30 R85). -/
def illegalOwns (q : Seq) : Bool := q = .idle || q = .check || q = .finish

/-- The end of an illegal word: `ERR_ILLEGAL` in `CHECK`, with no destination register (30 R85, 60 R256). From `FINISH`
the command ends; in `IDLE` there is nothing to do. -/
def illegalRun (s : State) : State :=
  if s.seq = .check then raise [] .illegal s else if s.seq = .finish then finish s else s

/-- The run of an illegal word (30 R85). -/
def execIllegal (s : State) : Host.Outcome State Fault Refusal :=
  if illegalOwns s.seq then .next (illegalRun s) else .fault .foreignSequencerState

/-- The CORE's turn at the granularity of one sequencer state: the command decoded from `CUR` takes one turn, an idle or
waiting CORE stays as it is (30 R84, 70 R293 (b)). -/
def tickCore (s : State) : Host.Outcome State Fault Refusal :=
  match decode s.cfg.nctx s.cur with
  | none => execIllegal s
  | some i => if owns i s.seq then .next ((turn i s).getD s) else .fault .foreignSequencerState

end Sys2Proof.Machine
end

