-- ==== Sys2Proof/Machine/Step.lean ====
section
/-! DEFINITION. One step of the machine: the agent whose turn it is moves (00 R7, 20 R68). -/

namespace Sys2Proof.Machine

/-- The CORE's turn: an idle CORE waits for a `CMD` write (60 R263); else it runs the command it decodes from `CUR`, or
ends an illegal word (30 R84, R85). -/
def runCore (s : State) : Host.Outcome State Fault Refusal :=
  if s.seq = .idle then .next s
  else match decode s.cfg.nctx s.cur with
    | none => execIllegal s
    | some i => exec i s

/-- One step: the next move of the agenda is made; with none left the CORE has the turn (log 5). -/
def step (s : State) : Host.Outcome State Fault Refusal :=
  match s.agenda with
  | [] => runCore s
  | .core :: rest => runCore { s with agenda := rest }
  | .tick :: rest => tickCore { s with agenda := rest }
  | .host m :: rest => .next (hostMove m { s with agenda := rest })
  | .rng a :: rest => .next (rngMove a { s with agenda := rest })

/-- The state in which the very next step runs the command word `w`: the word is issued as a write to `CMD` issues it
(30 R84 (1)) and the CORE has the turn (log 12). -/
def State.withFetchWord (s : State) (nbits w : Nat) : State :=
  { issue (BitVec.ofNat 32 (w % 2 ^ nbits)) s with agenda := [] }

end Sys2Proof.Machine
end

