-- ==== Sys2Proof/Machine/Script.lean ====
section
/-! DEFINITION. The script language of 30 R86 and R87: each line as the host moves it expands to. It is notation for
examples, not a feature of the hardware (D33). -/

namespace Sys2Proof.Machine.Script

/-- `WR place, v` (30 R86). -/
def wr (p : Place) (v : Word) : List Move := [.host (.write 32 p.offset v)]

/-- `RD place` (30 R86). -/
def rd (p : Place) : List Move := [.host (.read 32 p.offset)]

/-- `CMD mnemonic` (30 R86). -/
def cmd (i : Instr) : List Move := wr .cmd (encode i)

/-- `WAIT`: the CORE runs, then `STATUS` is read (30 R86). One read stands for the polling, since the CORE has the turn
before it (log 17). -/
def wait : List Move := .core :: rd .status

/-- `LDI reg, n`: one write for each word (30 R87). -/
def ldi (c : Config.Params) (r : OpReg) (n : Nat) : List Move :=
  (List.range c.nw).flatMap fun i => wr (.opWord r i) (regWord c.nw n i)

/-- `LDB buf, s`: one write for each group of four bytes, the last padded with zero bytes (30 R87). -/
def ldb (b : Buf) (s : Bytes) : List Move :=
  (List.range (ceilDiv s.length 4)).flatMap fun j =>
    wr (.bufWord b (4 * j))
      (wordOfLanes (byteAt s (4 * j)) (byteAt s (4 * j + 1)) (byteAt s (4 * j + 2)) (byteAt s (4 * j + 3)))

/-- `MSG s` (30 R87). -/
def msg (s : Bytes) : List Move := ldb .msg s ++ wr .mlen (BitVec.ofNat 32 s.length)

/-- `UID s` (30 R87). -/
def uid (s : Bytes) : List Move := ldb .id s ++ wr .idlen (BitVec.ofNat 32 s.length)

/-- `RUN mnemonic` (30 R87). -/
def run (i : Instr) : List Move := cmd i ++ wait

/-- `OUT n` (30 R87). -/
def out (n : Nat) : List Move := (List.range (ceilDiv n 4)).flatMap fun j => rd (.bufWord .out (4 * j))

/-- `GETI reg` (30 R87). -/
def geti (c : Config.Params) (r : OpReg) : List Move := (List.range c.nw).flatMap fun i => rd (.opWord r i)

/-- `ACK`, which keeps `IE` (30 R87). -/
def ack (ie : Bool) : List Move := wr .ctrl (bit ie 1 ||| bit true 2)

/-- `SRST` (30 R87). -/
def srst : List Move := wr .ctrl 1

end Sys2Proof.Machine.Script
end

