-- ==== Sys2Proof/Safety.lean ====
section
/-! DEFINITION. What counts as a safe state: the named premises of 70 R296 and the invariants of the machine. -/

namespace Sys2Proof.Machine

/-- The parameters are legal: in their ranges, and `DEFAULT_DOMAIN` valid (00 R8). -/
abbrev ParamsLegal (c : Config.Params) : Prop := c.sized = true ∧ validDomain c.opBits c.defaultDomain = true

/-- `Idle` (70 R296): no command executes and every temporary is cleared. -/
abbrev Idle (s : State) : Prop := s.seq = .idle ∧ s.tmp = Temps.cleared ∧ s.hi = HashCtx.init

/-- `NoFault` (70 R296). -/
abbrev NoFault (s : State) : Prop := s.errlog = 0

/-- `DomainChecked` (70 R296). -/
abbrev DomainChecked (s : State) : Prop := s.domok = true

/-- `DomainValid` (70 R296). -/
abbrev DomainValid (s : State) : Prop := validDomain s.cfg.opBits s.dom = true

/-- `GACorrect` (70 R296, 41 R132): within the contract the four functions of a provider are those of the group law of
41 R133. A premise on the configuration. -/
structure GACorrect (g : Config.GAPort) : Prop where
  add : ∀ d q r, domainInContract d = true → pointInContract d q = true → pointInContract d r = true →
    g.add d q r = curveAdd d q r
  mul : ∀ d q k, domainInContract d = true → pointInContract d q = true → g.mul d q k = curveMul d q k
  mulBase : ∀ d k, domainInContract d = true → pointInContract d d.g = true → g.mulBase d k = g.mul d d.g k
  isInf : ∀ d q, domainInContract d = true → pointInContract d q = true → g.isInf d q = decide (q = Point.inf)

/-- The commands that use `KEY_D` as a private key of the domain (10 R38, 41 R141). -/
def usesPrivateKey : Instr → Bool
  | .hReset _ => false
  | .hUpdate _ => false
  | .hFinal _ => false
  | .hDigest _ => false
  | .domCheck => false
  | .keygen => false
  | .pubkey => true
  | .kdf => false
  | .sign => true
  | .signU => true
  | .verify => false
  | .verifyU => false
  | .encrypt => false
  | .decrypt => true
  | .derEncSig => false
  | .derDecSig => false
  | .derEncCt => false
  | .derDecCt => false
  | .keyEncPub => false
  | .keyEncRaw => false
  | .keyEncPriv => false
  | .keyDecPub => false
  | .keyDecRaw => false
  | .keyDecPriv => false

/-- The commands that use `KEY_QX`, `KEY_QY` as a public key of the domain (10 R38). -/
def usesPublicKey : Instr → Bool
  | .hReset _ => false
  | .hUpdate _ => false
  | .hFinal _ => false
  | .hDigest _ => false
  | .domCheck => false
  | .keygen => false
  | .pubkey => false
  | .kdf => false
  | .sign => false
  | .signU => false
  | .verify => true
  | .verifyU => true
  | .encrypt => true
  | .decrypt => false
  | .derEncSig => false
  | .derDecSig => false
  | .derEncCt => false
  | .derDecCt => false
  | .keyEncPub => false
  | .keyEncRaw => false
  | .keyEncPriv => false
  | .keyDecPub => false
  | .keyDecRaw => false
  | .keyDecPriv => false

/-- `KeysOnDomain` (70 R296) for command `i`: where it is used, the private key is in [1, N-1]; where it is used, the public
key is a finite point of the curve. -/
abbrev KeysOnDomain (i : Instr) (s : State) : Prop :=
  (usesPrivateKey i = true → 1 ≤ s.regs.keyD ∧ s.regs.keyD + 1 ≤ s.regs.domN)
    ∧ (usesPublicKey i = true → s.pubKey ≠ Point.inf ∧ onCurve s.dom s.pubKey = true)

/-- `PortsAnswer` (70 R296) for the run of command `i` from `s`: no request of it is left unanswered. GA answers inside the
turn of the CORE (log 6), so the requests are those to the RNG port. -/
def PortsAnswer (i : Instr) (s : State) : Prop := ∀ t, exec i s = .next t → t.rngWaiting = false

/-- `DrawAccepted` (70 R296), with the retry limit kept: the answers of the port are values the loop `rejects`, then one it
accepts, `k`, then `rest`, and `RETRY_LIMIT` allows that many draws (41 R137). Each value is read modulo the bound N. -/
def DrawAccepted (s : State) (rejects : Nat → Prop) (k : Nat) (rest : List RngAnswer) : Prop :=
  ∃ (zs : List Nat) (v : Nat), s.rng = zs.map RngAnswer.value ++ RngAnswer.value v :: rest
    ∧ (∀ z ∈ zs, z % s.regs.domN = 0 ∨ rejects (z % s.regs.domN))
    ∧ k = v % s.regs.domN ∧ k ≠ 0 ∧ ¬ rejects k
    ∧ overLimit s.cfg.retryLimit (s.tmp.tries + zs.length + 1) = false

/-- A hash context holds fewer than 64 pending bytes, as many as its bit count says (10 R35, 40 R113). -/
abbrev HashCtx.wf (x : HashCtx) : Prop := x.buf.length < 64 ∧ x.cnt.toNat % 512 = 8 * x.buf.length

/-- The operand registers a command can write: the column "written by commands" of 10 R36. -/
def writes : Instr → List OpReg
  | .hReset _ => []
  | .hUpdate _ => []
  | .hFinal _ => []
  | .hDigest _ => []
  | .domCheck => []
  | .keygen => [.keyD, .keyQx, .keyQy]
  | .pubkey => [.keyQx, .keyQy]
  | .kdf => []
  | .sign => [.sigR, .sigS]
  | .signU => [.sigR, .sigS]
  | .verify => []
  | .verifyU => []
  | .encrypt => []
  | .decrypt => []
  | .derEncSig => []
  | .derDecSig => [.sigR, .sigS]
  | .derEncCt => []
  | .derDecCt => []
  | .keyEncPub => []
  | .keyEncRaw => []
  | .keyEncPriv => []
  | .keyDecPub => [.keyQx, .keyQy]
  | .keyDecRaw => [.keyQx, .keyQy]
  | .keyDecPriv => [.keyD]

/-- The host hash context a command can write (10 R35, 40 R120). -/
def writesCtx : Instr → Option (BitVec 4)
  | .hReset c => some c
  | .hUpdate c => some c
  | .hFinal _ => none
  | .hDigest c => some c
  | .domCheck => none
  | .keygen => none
  | .pubkey => none
  | .kdf => none
  | .sign => none
  | .signU => none
  | .verify => none
  | .verifyU => none
  | .encrypt => none
  | .decrypt => none
  | .derEncSig => none
  | .derDecSig => none
  | .derEncCt => none
  | .derDecCt => none
  | .keyEncPub => none
  | .keyEncRaw => none
  | .keyEncPriv => none
  | .keyDecPub => none
  | .keyDecRaw => none
  | .keyDecPriv => none

/-- The sequencer stands on the path of the command in `CUR`, an illegal word having none (10 R27, 30 R84). -/
def OnPath (s : State) : Prop :=
  s.seq = .idle ∨
    match decode s.cfg.nctx s.cur with
    | none => illegalOwns s.seq = true
    | some i => owns i s.seq = true

/-- The structural invariant of the machine. -/
structure CoreInv (s : State) : Prop where
  params : s.cfg.sized = true
  memory : Memory.wf s.mem = true
  contexts : s.hc.length = s.cfg.nctx
  pending : ∀ x ∈ s.hc, x.wf
  internal : s.hi.wf
  registers : ∀ r, s.regs.get r < 2 ^ s.cfg.opBits
  errlogReserved : s.errlog &&& 0xFFFFFE01 = 0
  errcodeClear : s.err = false → s.errcode = 0
  errcodeKind : s.err = true → 1 ≤ s.errcode.toNat ∧ s.errcode.toNat ≤ 6
  statusWhileBusy : s.seq ≠ .idle → s.done = false ∧ s.err = false ∧ s.result = false ∧ s.olen = 0
  clearedWhenIdle : s.seq = .idle → s.tmp = Temps.cleared ∧ s.hi = HashCtx.init
  onPath : OnPath s

/-- The domain invariant (70 R296): a checked domain is a valid one, and so is the one reset loads. -/
structure DomainInv (s : State) : Prop where
  params : ParamsLegal s.cfg
  checked : DomainChecked s → DomainValid s

/-- The sequencer state in which a command draws, if it draws (41 R142, 43 R173, 44 R192). -/
def drawState : Instr → Option Seq
  | .hReset _ => none
  | .hUpdate _ => none
  | .hFinal _ => none
  | .hDigest _ => none
  | .domCheck => none
  | .keygen => some .kgDraw
  | .pubkey => none
  | .kdf => none
  | .sign => some .sgDraw
  | .signU => some .sgDraw
  | .verify => none
  | .verifyU => none
  | .encrypt => some .enDraw
  | .decrypt => none
  | .derEncSig => none
  | .derDecSig => none
  | .derEncCt => none
  | .derDecCt => none
  | .keyEncPub => none
  | .keyEncRaw => none
  | .keyEncPriv => none
  | .keyDecPub => none
  | .keyDecRaw => none
  | .keyDecPriv => none

/-- The commands that write `OUTBUF` (70 R284). -/
def makesOutput : Instr → Bool
  | .hReset _ => false
  | .hUpdate _ => false
  | .hFinal _ => true
  | .hDigest _ => true
  | .domCheck => false
  | .keygen => false
  | .pubkey => false
  | .kdf => true
  | .sign => false
  | .signU => false
  | .verify => false
  | .verifyU => false
  | .encrypt => true
  | .decrypt => true
  | .derEncSig => true
  | .derDecSig => false
  | .derEncCt => true
  | .derDecCt => true
  | .keyEncPub => true
  | .keyEncRaw => true
  | .keyEncPriv => true
  | .keyDecPub => false
  | .keyDecRaw => false
  | .keyDecPriv => false

/-- The commands that write `STATUS.RESULT` (10 R24). -/
def writesResult (i : Instr) : Bool := i = .domCheck || i = .verify || i = .verifyU

/-! The end of a command, and the values its rules give it. -/

/-- The state after `FINISH` (30 R84 (4)), all else as in `s`. -/
def Finished (s : State) : State :=
  { s with tmp := Temps.cleared, hi := HashCtx.init, done := true, seq := .idle }

/-- The state after an error that zeroes no register (60 R256 steps 2, 3). -/
def Failed (k : ErrKind) (s : State) : State :=
  { Finished s with errcode := k.code, err := true, errlog := s.errlog ||| bit true k.code.toNat }

/-- The state after a command that wrote `data` to `OUTBUF` from index 0 (10 R32). -/
def Delivered (data : Bytes) (s : State) : State :=
  { Finished s with mem := memSetBytes s.mem Buf.out.base data, olen := BitVec.ofNat 32 data.length }

/-- `ZValue(uid, q.x, q.y)` (43 R167). -/
def zValue (u : Bool) (q : Point) (s : State) : Bytes := sm3 (zInput s.dom (userId u s) q)

/-- `EValue(Z, M)` with the Z-value of q (43 R168). -/
def eValue (u : Bool) (q : Point) (s : State) : Nat := intOf (sm3 (zValue u q s ++ s.message))

/-- The `r` that `SIGN` computes from the scalar k: `(e + x1) mod N`, the public point recomputed from `KEY_D`
(43 R170). -/
def signR (u : Bool) (s : State) (k : Nat) : Nat :=
  (eValue u (s.gaMulBase s.regs.keyD) s + (s.gaMulBase k).x) % s.regs.domN

/-- The `s` that `SIGN` computes from the scalar k (43 R170, R175). -/
def signS (u : Bool) (s : State) (k : Nat) : Nat := signatureS s.regs.domN s.regs.keyD k (signR u s k)

/-- The scalars the loop of `SIGN` rejects: r = 0, r + k = N, s = 0 (43 R176). -/
abbrev signRejects (u : Bool) (s : State) (k : Nat) : Prop :=
  signR u s k = 0 ∨ signR u s k + k = s.regs.domN ∨ signS u s k = 0

/-- The point of `VERIFY`: `GA.add(GA.mulBase(S), GA.mul(PA, t))` (43 R180, R186; log 23). -/
def verifyPoint (s : State) : Point :=
  s.gaAdd (s.gaMulBase s.regs.sigS) (verifyKeyMul s ((s.regs.sigR + s.regs.sigS) % s.regs.domN))

/-- The verdict of `VERIFY`, its steps 1 to 5 (43 R180). -/
def verifyAccepts (u : Bool) (s : State) : Bool :=
  decide (1 ≤ s.regs.sigR ∧ s.regs.sigR < s.regs.domN ∧ 1 ≤ s.regs.sigS ∧ s.regs.sigS < s.regs.domN)
    && decide ((s.regs.sigR + s.regs.sigS) % s.regs.domN ≠ 0)
    && !s.gaIsInf (verifyPoint s)
    && decide ((eValue u s.pubKey s + (verifyPoint s).x) % s.regs.domN = s.regs.sigR)

/-- `Kdf(q.x, q.y, n)` (42 R155). -/
def keystream (q : Point) (n : Nat) (s : State) : Bytes := (kdfStream (kdfSeed q.x q.y s) n HashCtx.init).2

/-- The tag of a plaintext under a shared point: `SM3(ser(x2) ‖ m ‖ ser(y2))` (44 R195). -/
def tagOf (q : Point) (m : Bytes) (s : State) : Bytes := sm3 (s.ser q.x ++ m ++ s.ser q.y)

/-- The body of the ciphertext that `ENCRYPT` makes with the scalar k (44 R191). -/
def encryptBodyOf (s : State) (k : Nat) : Bytes :=
  xorBytes s.message (keystream (s.gaMul s.pubKey k) s.mlen.toNat s)

/-- The ciphertext that `ENCRYPT` makes with the scalar k (44 R191). -/
def ciphertextOf (s : State) (k : Nat) : Ciphertext :=
  ⟨s.gaMulBase k, encryptBodyOf s k, tagOf (s.gaMul s.pubKey k) s.message s⟩

/-- The scalars the loop of `ENCRYPT` rejects: the keystream changes nothing (44 R193). -/
abbrev encryptRejects (s : State) (k : Nat) : Prop := encryptBodyOf s k = s.message

/-- The shared point of `DECRYPT` (44 R201). -/
def decryptShare (s : State) : Point := s.gaMul s.flatInput.c1 s.regs.keyD

/-- The candidate plaintext of `DECRYPT` (44 R202). -/
def decryptPlain (s : State) : Bytes :=
  xorBytes s.flatInput.c2 (keystream (decryptShare s) s.flatInput.c2.length s)

/-- The host copies the output of a command to `MSGBUF` and its length to `MLEN`, for the command that reads it back
(44 R205, 45 R227). -/
def outputAsMessage (s : State) : State :=
  { s with mem := memSetBytes s.mem 0x100000 (memGetBytes s.mem 0x200000 s.olen.toNat), mlen := s.olen }

/-! The pre-checks, by the classes of 60 R260. -/

/-- The commands that read `MSGBUF` (70 R284). -/
def readsMessage : Instr → Bool
  | .hReset _ => false
  | .hUpdate _ => true
  | .hFinal _ => false
  | .hDigest _ => true
  | .domCheck => false
  | .keygen => false
  | .pubkey => false
  | .kdf => false
  | .sign => true
  | .signU => true
  | .verify => true
  | .verifyU => true
  | .encrypt => true
  | .decrypt => true
  | .derEncSig => false
  | .derDecSig => true
  | .derEncCt => true
  | .derDecCt => true
  | .keyEncPub => false
  | .keyEncRaw => false
  | .keyEncPriv => false
  | .keyDecPub => true
  | .keyDecRaw => true
  | .keyDecPriv => true

/-- The commands that need `DOMOK = 1`, `KDF` only when `COORD_SER = fixed` (41 R143). -/
def needsDomain (c : Config.Params) : Instr → Bool
  | .hReset _ => false
  | .hUpdate _ => false
  | .hFinal _ => false
  | .hDigest _ => false
  | .domCheck => false
  | .keygen => true
  | .pubkey => true
  | .kdf => c.coordSer = .fixed
  | .sign => true
  | .signU => true
  | .verify => true
  | .verifyU => true
  | .encrypt => true
  | .decrypt => true
  | .derEncSig => false
  | .derDecSig => false
  | .derEncCt => true
  | .derDecCt => true
  | .keyEncPub => true
  | .keyEncRaw => true
  | .keyEncPriv => true
  | .keyDecPub => true
  | .keyDecRaw => true
  | .keyDecPriv => true

/-- Class (b): the length registers against the capacities (60 R260). -/
abbrev lengthsFit (i : Instr) (s : State) : Prop :=
  (i = .signU ∨ i = .verifyU → s.idlen.toNat ≤ s.cfg.idCap ∧ s.idlen.toNat ≤ 8191)
    ∧ (readsMessage i = true → s.mlen.toNat ≤ s.cfg.msgCap)
    ∧ (i = .encrypt → 1 ≤ s.mlen.toNat)
    ∧ (i = .kdf → s.klen.toNat ≤ s.cfg.outCap)

/-- Class (c): `DOMOK`, where the command needs it (60 R260). -/
abbrev domainReady (i : Instr) (s : State) : Prop := needsDomain s.cfg i = true → s.domok = true

/-- Class (d), first: the input length against the form (60 R260). -/
abbrev inputFormFits (i : Instr) (s : State) : Prop :=
  (i = .decrypt ∨ i = .derEncCt → s.c1Len + 32 ≤ s.mlen.toNat)
    ∧ (i = .keyDecPub → s.mlen.toNat = 2 * s.keyBytes + 1)
    ∧ (i = .keyDecRaw → s.mlen.toNat = 2 * s.keyBytes)
    ∧ (i = .keyDecPriv → s.mlen.toNat = s.keyBytes)

/-- Class (d), second: a fixed output length against `OUTCAP` (60 R260). -/
abbrev outputFits (i : Instr) (s : State) : Prop :=
  (i = .encrypt → s.c1Len + s.mlen.toNat + 32 ≤ s.cfg.outCap)
    ∧ (i = .decrypt → s.mlen.toNat - s.c1Len - 32 ≤ s.cfg.outCap)
    ∧ (i = .keyEncPub → 2 * s.keyBytes + 1 ≤ s.cfg.outCap)
    ∧ (i = .keyEncRaw → 2 * s.keyBytes ≤ s.cfg.outCap)
    ∧ (i = .keyEncPriv → s.keyBytes ≤ s.cfg.outCap)

/-- Class (d), third: the private key range (60 R260). -/
abbrev keyInRange (i : Instr) (s : State) : Prop :=
  (i = .pubkey ∨ i = .decrypt → 1 ≤ s.regs.keyD ∧ s.regs.keyD + 1 ≤ s.regs.domN)
    ∧ (i = .sign ∨ i = .signU → 1 ≤ s.regs.keyD ∧ s.regs.keyD + 2 ≤ s.regs.domN)

/-- Every pre-check of a command passes (60 R260). -/
abbrev Prechecked (i : Instr) (s : State) : Prop :=
  i.WellFormed s.cfg.nctx = true ∧ lengthsFit i s ∧ domainReady i s ∧ inputFormFits i s ∧ outputFits i s ∧ keyInRange i s

/-! Illegal words (30 R85) and offsets that ignore writes (20 R67). -/

/-- The 18 opcodes (30 R83). -/
def opcodes : List (BitVec 8) :=
  [0x01, 0x02, 0x03, 0x04, 0x10, 0x11, 0x12, 0x18, 0x20, 0x21, 0x28, 0x29, 0x30, 0x31, 0x32, 0x33, 0x38, 0x39]

/-- The opcodes of the `H_*` commands. -/
def hashOpcodes : List (BitVec 8) := [0x01, 0x02, 0x03, 0x04]

/-- A word is illegal, clause by clause (30 R85). -/
abbrev IllegalWord (nctx : Nat) (w : Word) : Prop :=
  fieldOp w ∉ opcodes
    ∨ fieldReserved w ≠ 0
    ∨ (fieldCtx w ≠ 0 ∧ fieldOp w ∉ hashOpcodes)
    ∨ (nctx ≤ (fieldCtx w).toNat ∧ fieldOp w ∈ hashOpcodes)
    ∨ (fieldF w ≠ 0 ∧ fieldOp w ≠ 0x20 ∧ fieldOp w ≠ 0x21 ∧ fieldOp w ≠ 0x38 ∧ fieldOp w ≠ 0x39)
    ∨ ((fieldF w).extractLsb' 1 3 ≠ 0 ∧ (fieldOp w = 0x20 ∨ fieldOp w = 0x21))
    ∨ (2 < (fieldF w).toNat ∧ (fieldOp w = 0x38 ∨ fieldOp w = 0x39))

/-- The reserved offsets: they read 0 and ignore writes (10 R21, R36, 20 R61). -/
abbrev reservedOffset (c : Config.Params) (off : Nat) : Prop :=
  off = 0x38 ∨ off = 0x3C
    ∨ (0xA4 ≤ off ∧ off < 0x100)
    ∨ (0x100 ≤ off ∧ off < 0x780 ∧ c.nw ≤ (off - 0x100) % 0x80 / 4)
    ∨ (0x780 ≤ off ∧ off < 0x1000)
    ∨ (0x1000 + c.idCap ≤ off ∧ off < 0x100000)
    ∨ (0x100000 + c.msgCap ≤ off ∧ off < 0x200000)
    ∨ (0x200000 + c.outCap ≤ off ∧ off < 0x400000)

/-- The read-only offsets: the RO registers and `OUTBUF` (10 R21, 20 R61). -/
abbrev readOnlyOffset (c : Config.Params) (off : Nat) : Prop :=
  off = 0x00 ∨ off = 0x08 ∨ off = 0x0C ∨ off = 0x10 ∨ off = 0x24
    ∨ (0x2C ≤ off ∧ off < 0x38)
    ∨ (0x40 ≤ off ∧ off < 0xA0)
    ∨ (0x200000 ≤ off ∧ off < 0x200000 + c.outCap)

/-- The words of the operand registers k = 0..5 (10 R36, R37). -/
abbrev domainOffset (c : Config.Params) (off : Nat) : Prop :=
  0x100 ≤ off ∧ off < 0x400 ∧ (off - 0x100) % 0x80 / 4 < c.nw

/-! Runs and the invariant of what is in flight. -/

/-- n turns of the CORE at the granularity of sequencer states (70 R293 (b)). -/
def ticks : Nat → State → Host.Outcome State Fault Refusal
  | 0, s => .next s
  | n + 1, s =>
    match tickCore s with
    | .next s' => ticks n s'
    | .fault f => .fault f
    | .refused r => .refused r

/-- An offset inside one of the three buffers (20 R61). -/
def inBuffer (c : Config.Params) (off : Nat) : Prop := ∃ b a, a < Buf.cap c b ∧ off = b.base + a

/-- What holds of a command in flight: past `CHECK` its pre-checks hold, since nothing they read can change (20 R70), and the
working copy has the length its output takes from it; and no byte outside the buffers is ever written (20 R74). -/
structure FlightInv (s : State) : Prop where
  cells : ∀ off, memGet s.mem off ≠ 0 → inBuffer s.cfg off
  outputLength : s.olen.toNat ≤ s.cfg.outCap
  checked : ∀ i, decode s.cfg.nctx s.cur = some i → s.seq ∈ path i → Prechecked i s
  encryptBody : s.seq = .enTag ∨ s.seq = .enOut → s.tmp.wbuf.length = s.mlen.toNat
  encryptTag : s.seq = .enOut → s.tmp.c3.length = 32
  decryptBody : s.seq = .deTag ∨ s.seq = .deOut → s.tmp.wbuf.length = s.mlen.toNat - s.c1Len - 32

end Sys2Proof.Machine
end

