-- ==== Sys2Proof/Certificates/Slice0/Obligations.lean ====
section
/-! DEFINITION. The statements for the provers. Each names the rule of spec/ it formalises, or the sections it rests on. A
statement about a run is about `exec`, which runs a command until it ends or waits for the RNG port (log 6), `FINISH` in the
turn that ends it (log 7); the state `.check` is the one in which a command stands once it is issued (30 R84). What is the
model's own and not the spec's: the fields `rng`, `agenda` and `reply` (log 4, 5, 13), that a draw is read modulo N (log 4),
that a register keeps a value modulo 2^OPBITS (log 14), and that `CUR` stays and `HI` is cleared at the end of a command
(log 8). -/

open Sys2Proof Sys2Proof.Machine

/-! Encoding (30 R80 to R85). -/

/-- Decoder and encoder agree in both directions: the decoder reads a command from a word exactly when the command is
legal and the word is its encoding. No bit is dropped and no second word decodes to a command (30 R81, R82, R83). -/
def Obligations.DecodeAndEncodeAgree : Prop :=
  ∀ (nctx : Nat) (w : Word) (i : Instr), decode nctx w = some i ↔ i.WellFormed nctx = true ∧ encode i = w

/-- The rows are disjoint, and a decoder may test them in any order: a word decodes to a command exactly when some row
reads it so (30 R82). -/
def Obligations.OpcodeRowsAreDisjoint : Prop :=
  opRows.Pairwise (fun a b => ∀ w : Word, ¬ (w &&& a.mask = a.pattern ∧ w &&& b.mask = b.pattern))
    ∧ ∀ (nctx : Nat) (w : Word) (i : Instr), decode nctx w = some i ↔ ∃ row ∈ opRows, row.read nctx w = some i

/-- A word does not decode exactly when a clause of 30 R85 says so, the all-zero word among them; it is accepted by the
issue step, ends with `ERR_ILLEGAL`, and changes only `CMD`, `CUR`, `STATUS`, `ERRCODE`, `ERRLOG` and `OLEN`, the
temporaries being clear as they were (30 R85). -/
def Obligations.IllegalWordsEndWithErrIllegal : Prop :=
  (∀ (nctx : Nat) (w : Word), decode nctx w = none ↔ IllegalWord nctx w)
    ∧ (∀ nctx : Nat, IllegalWord nctx 0)
    ∧ ∀ (s : State) (w : Word), Idle s → IllegalWord s.cfg.nctx w →
        runCore (placeWrite w s .cmd) = .next { s with
          cmd := w, cur := w, done := true, err := true, result := false, errcode := 5
          errlog := s.errlog ||| 0x20, olen := 0 }

/-- The words of 30 R83, read by the decoder of a CORE with four contexts. -/
def Obligations.TableWordsDecode : Prop :=
  decode 4 0x00000001 = some (.hReset 0) ∧ decode 4 0x00000302 = some (.hUpdate 3)
    ∧ decode 4 0x00000103 = some (.hFinal 1) ∧ decode 4 0x00000204 = some (.hDigest 2)
    ∧ decode 4 0x00000010 = some .domCheck ∧ decode 4 0x00000011 = some .keygen ∧ decode 4 0x00000012 = some .pubkey
    ∧ decode 4 0x00000018 = some .kdf ∧ decode 4 0x00001020 = some .signU ∧ decode 4 0x00000021 = some .verify
    ∧ decode 4 0x00000028 = some .encrypt ∧ decode 4 0x00000029 = some .decrypt
    ∧ decode 4 0x00000032 = some .derEncCt ∧ decode 4 0x00002038 = some .keyEncPriv
    ∧ decode 4 0x00001039 = some .keyDecRaw ∧ decode 4 0x00000401 = none

/-! Steps (00 R7, 20 R68, 30 R84). -/

/-- A step runs the decoded command: with no move left or at a move of the CORE, a busy CORE whose `CUR` decodes to the
legal command `i` runs `exec i` on the state, the move used up; at a `tick` it takes one turn. An idle CORE waits. A move of
the host or of the RNG port is that move; an answer of the port is taken exactly when a draw waits for one and the limit allows
the draw, and is ignored otherwise (41 R135, R137, 70 R281; log 21). The agenda is the model's own way to say whose turn it is
(log 5). -/
def Obligations.StepRunsTheDecodedCommand : Prop :=
  (∀ (s : State) (i : Instr), s.seq ≠ .idle → decode s.cfg.nctx s.cur = some i →
      i.WellFormed s.cfg.nctx = true
      ∧ (s.agenda = [] → step s = exec i s)
      ∧ (∀ rest, s.agenda = .core :: rest → step s = exec i { s with agenda := rest })
      ∧ (∀ rest, s.agenda = .tick :: rest → owns i s.seq = true →
          step s = .next ((turn i { s with agenda := rest }).getD { s with agenda := rest })))
    ∧ (∀ s : State, s.seq = .idle → s.agenda = [] → step s = .next s)
    ∧ (∀ (s : State) (m : HostMove) (rest : List Move), s.agenda = .host m :: rest →
        step s = .next (hostMove m { s with agenda := rest }))
    ∧ ∀ (s : State) (a : RngAnswer) (rest : List Move), s.agenda = .rng a :: rest →
        step s = .next (rngMove a { s with agenda := rest })
          ∧ ((s.seq = .kgDraw ∨ s.seq = .sgDraw ∨ s.seq = .enDraw) ∧ s.rng = []
              ∧ overLimit s.cfg.retryLimit (s.tmp.tries + 1) = false →
              step s = .next { s with agenda := rest, rng := [a] })
          ∧ (¬ ((s.seq = .kgDraw ∨ s.seq = .sgDraw ∨ s.seq = .enDraw) ∧ s.rng = []
              ∧ overLimit s.cfg.retryLimit (s.tmp.tries + 1) = false) →
              step s = .next { s with agenda := rest })

/-- `CMD`: a write while `BUSY = 0` issues the word, with every assignment of 30 R84 (1) and no other; while `BUSY = 1` it is
dropped and sets `ERRLOG.BUSYWR`; a read returns the last issued word, 0 after reset (10 R23, 30 R84 (1)). -/
def Obligations.CmdWriteIssues : Prop :=
  (∀ (s : State) (w : Word), s.seq = .idle →
      busWrite 0x04 w s = { s with
        cur := w, cmd := w, done := false, err := false, result := false, errcode := 0, olen := 0
        tmp := { s.tmp with tries := 0 }, seq := .check })
    ∧ (∀ (s : State) (w : Word), s.seq ≠ .idle → busWrite 0x04 w s = { s with errlog := s.errlog ||| 0x80 })
    ∧ (∀ s : State, busRead s 0x04 = s.cmd)
    ∧ busRead State.reset 0x04 = 0

/-! The bus (10, 20). -/

/-- Writes while busy: every legal write but one to `CTRL` is dropped and sets `ERRLOG.BUSYWR`; a write to `CTRL` acts
normally, `ACK` doing nothing because `DONE = 0` (20 R70). -/
def Obligations.BusyWritesAreDropped : Prop :=
  ∀ (s : State) (off : Nat) (v : Word), s.seq ≠ .idle → off % 4 = 0 → off < 0x400000 →
    (off ≠ 0x14 → busWrite off v s = { s with errlog := s.errlog ||| 0x80 })
    ∧ (off = 0x14 → v.getLsbD 0 = true → busWrite off v s = resetCore s)
    ∧ (off = 0x14 → v.getLsbD 0 = false → s.done = false → busWrite off v s = { s with ie := v.getLsbD 1 })

/-- Reads while busy: `ID`, `CMD`, `STATUS`, `ERRCODE`, `ERRLOG` and `CTRL` return their values, every other offset
returns 0 (20 R71). -/
def Obligations.BusyReadsAreHidden : Prop :=
  ∀ (s : State) (off : Nat), s.seq ≠ .idle → off % 4 = 0 → off < 0x400000 →
    busRead s off =
      if off = 0x00 then 0x474D4C07 else if off = 0x04 then s.cmd else if off = 0x08 then statusWord s
      else if off = 0x0C then s.errcode.zeroExtend 32 else if off = 0x10 then s.errlog
      else if off = 0x14 then ctrlWord s else 0

/-- `STATUS` bit by bit, `BUSY` being `SEQ != IDLE`, and the level of `irq` (10 R24, 60 R253). -/
def Obligations.StatusWordAndInterruptLine : Prop :=
  ∀ s : State,
    (busRead s 0x08).getLsbD 0 = decide (s.seq ≠ .idle)
    ∧ (busRead s 0x08).getLsbD 1 = s.done ∧ (busRead s 0x08).getLsbD 2 = s.err
    ∧ (busRead s 0x08).getLsbD 3 = s.result ∧ (busRead s 0x08).getLsbD 4 = s.domok
    ∧ (∀ n, 5 ≤ n → (busRead s 0x08).getLsbD n = false)
    ∧ s.irq = (s.ie && s.done)

/-- Output masking: each byte lane of an `OUTBUF` word reads the stored byte when its index is below `OLEN`, else 0
(20 R72). -/
def Obligations.OutputIsMaskedByOlen : Prop :=
  ∀ (s : State) (a : Nat), s.cfg.sized = true → s.seq = .idle → a % 4 = 0 → a < s.cfg.outCap →
    busRead s (0x200000 + a) =
      (if a < s.olen.toNat then memGet s.mem (0x200000 + a) else 0)
        ++ (if a + 1 < s.olen.toNat then memGet s.mem (0x200000 + a + 1) else 0)
        ++ (if a + 2 < s.olen.toNat then memGet s.mem (0x200000 + a + 2) else 0)
        ++ (if a + 3 < s.olen.toNat then memGet s.mem (0x200000 + a + 3) else (0 : Byte))

/-- Byte order of the window: the word at index a of `IDBUF` or `MSGBUF` carries byte a in bits 31:24 down to byte a+3 in
bits 7:0; a write stores those four bytes, leaves every other byte, and reads back (20 R62, R63). -/
def Obligations.BufferWordsAreBigEndian : Prop :=
  ∀ (s : State) (b : Buf) (a : Nat) (v : Word), b ≠ .out → s.cfg.sized = true → Memory.wf s.mem = true → s.seq = .idle →
    a % 4 = 0 → a < b.cap s.cfg →
    busRead s (b.base + a) =
      memGet s.mem (b.base + a) ++ memGet s.mem (b.base + a + 1) ++ memGet s.mem (b.base + a + 2)
        ++ memGet s.mem (b.base + a + 3)
    ∧ (∀ y, memGet (busWrite (b.base + a) v s).mem y =
        if y = b.base + a then v.extractLsb' 24 8 else if y = b.base + a + 1 then v.extractLsb' 16 8
        else if y = b.base + a + 2 then v.extractLsb' 8 8 else if y = b.base + a + 3 then v.extractLsb' 0 8
        else memGet s.mem y)
    ∧ busWrite (b.base + a) v s = { s with mem := (busWrite (b.base + a) v s).mem }
    ∧ busRead (busWrite (b.base + a) v s) (b.base + a) = v

/-- The words of an operand register: the slot's words in order, each big-endian, are `be_{OPBITS/8}` of the value; a write
replaces one word and leaves the others and every other register (10 R36). -/
def Obligations.OperandWordsAreBigEndian : Prop :=
  ∀ (s : State) (r : OpReg) (i : Nat) (v : Word), s.cfg.sized = true → s.regs.get r < 2 ^ s.cfg.opBits → s.seq = .idle →
    i < s.cfg.nw →
    (List.range s.cfg.nw).flatMap (fun j => lanesOfWord (busRead s (0x100 + 0x80 * r.slot + 4 * j)))
        = be (s.cfg.opBits / 8) (s.regs.get r)
    ∧ busRead (busWrite (0x100 + 0x80 * r.slot + 4 * i) v s) (0x100 + 0x80 * r.slot + 4 * i) = v
    ∧ (∀ j, j < s.cfg.nw → j ≠ i →
        busRead (busWrite (0x100 + 0x80 * r.slot + 4 * i) v s) (0x100 + 0x80 * r.slot + 4 * j)
          = busRead s (0x100 + 0x80 * r.slot + 4 * j))
    ∧ (∀ r', r' ≠ r → (busWrite (0x100 + 0x80 * r.slot + 4 * i) v s).regs.get r' = s.regs.get r')
    ∧ (busWrite (0x100 + 0x80 * r.slot + 4 * i) v s).regs.get r < 2 ^ s.cfg.opBits

/-- A write to `DOM_BITS` or to a word of an operand register k = 0..5 clears `DOMOK`, whatever is written; no other write
but a reset through `CTRL` touches it (10 R37, 20 R67). -/
def Obligations.DomainWritesClearDomok : Prop :=
  ∀ (s : State) (off : Nat) (v : Word), s.cfg.sized = true → s.seq = .idle → off % 4 = 0 → off < 0x400000 → off ≠ 0x14 →
    (off = 0xA0 ∨ domainOffset s.cfg off → (busWrite off v s).domok = false)
    ∧ (¬ (off = 0xA0 ∨ domainOffset s.cfg off) → (busWrite off v s).domok = s.domok)

/-- `CTRL`: `SRST` resets and the other bits of the write are lost; else `IE` is stored and `ACK` clears `DONE` and nothing
else, busy or not; it reads `IE` in bit 1 and 0 elsewhere (10 R28). -/
def Obligations.CtrlWriteActs : Prop :=
  ∀ (s : State) (v : Word),
    (v.getLsbD 0 = true → busWrite 0x14 v s = resetCore s)
    ∧ (v.getLsbD 0 = false → busWrite 0x14 v s = { s with ie := v.getLsbD 1, done := s.done && !v.getLsbD 2 })
    ∧ busRead s 0x14 = if s.ie then 2 else 0

/-- A malformed access receives the error response, sets `ERRLOG.BUSERR` and does nothing else, busy or not; a malformed read
returns 0 (20 R66). -/
def Obligations.MalformedAccessOnlyLogs : Prop :=
  ∀ (s : State) (width off : Nat) (v : Word), ¬ (width = 32 ∧ off % 4 = 0 ∧ off < 0x400000) →
    hostMove (.read width off) s = { s with errlog := s.errlog ||| 0x100, reply := ⟨true, 0⟩ }
    ∧ hostMove (.write width off v) s = { s with errlog := s.errlog ||| 0x100, reply := ⟨true, 0⟩ }

/-- Side effects, place by place: a read has none. While idle, a write to a read-only or reserved offset or to `OUTBUF` is
ignored, and a reserved offset reads 0; a write to `CMD` issues and one to `CTRL` acts; one to `DOM_BITS` stores and clears
`DOMOK`; one to a word of an operand register changes that register, and `DOMOK` exactly when it is a domain register; one to
a length register, to `CTXSEL` or to a buffer stores and does nothing else. Every legal offset is one of these
(20 R67, 10 R21, R37). -/
def Obligations.OnlyFourKindsOfWriteHaveSideEffects : Prop :=
  ∀ (s : State) (off : Nat) (v : Word), s.cfg.sized = true → off % 4 = 0 → off < 0x400000 →
    hostMove (.read 32 off) s = { s with reply := ⟨false, busRead s off⟩ }
    ∧ (reservedOffset s.cfg off → busRead s off = 0)
    ∧ (off = 0x14 → busWrite off v s = ctrlWrite v s)
    ∧ (s.seq = .idle →
        (reservedOffset s.cfg off ∨ readOnlyOffset s.cfg off → busWrite off v s = s)
        ∧ (off = 0x04 → busWrite off v s = issue v s)
        ∧ (off = 0x18 → busWrite off v s = { s with mlen := v })
        ∧ (off = 0x1C → busWrite off v s = { s with idlen := v })
        ∧ (off = 0x20 → busWrite off v s = { s with klen := v })
        ∧ (off = 0x28 → busWrite off v s = { s with ctxsel := v.extractLsb' 0 4 })
        ∧ (off = 0xA0 → busWrite off v s = { s with domBits := v, domok := false })
        ∧ (∀ (r : OpReg) (i : Nat), i < s.cfg.nw → off = 0x100 + 0x80 * r.slot + 4 * i →
            busWrite off v s = { s with
              regs := (busWrite off v s).regs, domok := if r.isDomain then false else s.domok }
            ∧ ∀ r', r' ≠ r → (busWrite off v s).regs.get r' = s.regs.get r')
        ∧ (∀ (b : Buf) (a : Nat), b ≠ .out → a < b.cap s.cfg → off = b.base + a →
            busWrite off v s = { s with mem := (busWrite off v s).mem }
            ∧ ∀ y, y < off ∨ off + 4 ≤ y → Memory.wf s.mem = true → memGet (busWrite off v s).mem y = memGet s.mem y))
    ∧ (off = 0x04 ∨ off = 0x14 ∨ off = 0x18 ∨ off = 0x1C ∨ off = 0x20 ∨ off = 0x28 ∨ off = 0xA0
        ∨ reservedOffset s.cfg off ∨ readOnlyOffset s.cfg off
        ∨ (∃ (r : OpReg) (i : Nat), i < s.cfg.nw ∧ off = 0x100 + 0x80 * r.slot + 4 * i)
        ∨ ∃ (b : Buf) (a : Nat), b ≠ .out ∧ a < b.cap s.cfg ∧ off = b.base + a)

/-- The length registers and `DOM_BITS` store all 32 bits, `CTXSEL` its low four; a write changes that register alone, but
that one to `DOM_BITS` clears `DOMOK`, and reads back. `ID`, `ERRCODE` and `ERRLOG` read their value at every time, `OLEN`,
`DOM_BITS`, the length registers and `CTXSEL` while idle (10 R22, R25, R26, R29 to R33, R37). -/
def Obligations.LengthRegistersStore : Prop :=
  (∀ (s : State) (v : Word), s.seq = .idle →
    busWrite 0x18 v s = { s with mlen := v } ∧ busRead (busWrite 0x18 v s) 0x18 = v
    ∧ busWrite 0x1C v s = { s with idlen := v } ∧ busRead (busWrite 0x1C v s) 0x1C = v
    ∧ busWrite 0x20 v s = { s with klen := v } ∧ busRead (busWrite 0x20 v s) 0x20 = v
    ∧ busWrite 0x28 v s = { s with ctxsel := v.extractLsb' 0 4 } ∧ busRead (busWrite 0x28 v s) 0x28 = v &&& 0xF
    ∧ busWrite 0xA0 v s = { s with domBits := v, domok := false } ∧ busRead (busWrite 0xA0 v s) 0xA0 = v)
    ∧ (∀ s : State, busRead s 0x00 = 0x474D4C07 ∧ busRead s 0x0C = s.errcode.zeroExtend 32 ∧ busRead s 0x10 = s.errlog)
    ∧ ∀ s : State, s.seq = .idle →
        busRead s 0x18 = s.mlen ∧ busRead s 0x1C = s.idlen ∧ busRead s 0x20 = s.klen ∧ busRead s 0x24 = s.olen
        ∧ busRead s 0x28 = s.ctxsel.zeroExtend 32 ∧ busRead s 0xA0 = s.domBits

/-- The hash window shows the context that `CTXSEL` names, 0 beyond its pending bytes; it reads 0 where `CTXSEL` names no
context and while the CORE is busy; a write to it is ignored (10 R34). -/
def Obligations.HashWindowShowsTheSelectedContext : Prop :=
  ∀ (s : State), s.hc.length = s.cfg.nctx → (∀ x ∈ s.hc, x.buf.length < 64) →
    (s.seq = .idle → ∀ x, s.hc[s.ctxsel.toNat]? = some x →
        (∀ i, i < 8 → busRead s (0x40 + 4 * i) = x.v.get i)
        ∧ busRead s 0x30 = x.cnt.extractLsb' 32 32 ∧ busRead s 0x34 = x.cnt.extractLsb' 0 32
        ∧ (busRead s 0x2C).toNat = x.buf.length
        ∧ ∀ i, i < 16 → busRead s (0x60 + 4 * i) =
            x.buf.getD (4 * i) 0 ++ x.buf.getD (4 * i + 1) 0 ++ x.buf.getD (4 * i + 2) 0 ++ x.buf.getD (4 * i + 3) (0 : Byte))
    ∧ (s.cfg.nctx ≤ s.ctxsel.toNat ∨ s.seq ≠ .idle →
        (∀ i, i < 8 → busRead s (0x40 + 4 * i) = 0) ∧ busRead s 0x30 = 0 ∧ busRead s 0x34 = 0 ∧ busRead s 0x2C = 0
        ∧ ∀ i, i < 16 → busRead s (0x60 + 4 * i) = 0)
    ∧ (s.seq = .idle → ∀ (off : Nat) (v : Word), 0x2C ≤ off ∧ off < 0x38 ∨ 0x40 ≤ off ∧ off < 0xA0 → off % 4 = 0 →
        busWrite off v s = s)

/-! Rules of the whole machine. -/

/-- `ERRLOG` is sticky: no step clears a bit of it but one that resets, by `rst` or by `CTRL.SRST` (10 R26). -/
def Obligations.ErrlogIsSticky : Prop :=
  ∀ s t : State, step s = .next t →
    (∀ rest, s.agenda ≠ .host .rst :: rest) →
    (∀ v rest, v.getLsbD 0 = true → s.agenda ≠ .host (.write 32 0x14 v) :: rest) →
    s.errlog &&& t.errlog = s.errlog

/-- Reset, by either event, from any state, gives every piece of state the value of the table of 10 R44 (10 R44). The
parameters are fixed (00 R8); of the model's own fields `rng`, `agenda` and `reply` the statement says nothing. -/
def Obligations.ResetSetsEveryPieceOfState : Prop :=
  ∀ s : State,
    hostMove .rst s = {
      cfg := s.cfg, cmd := 0, cur := 0, done := false, err := false, result := false, domok := true, errcode := 0
      errlog := 0, ie := false, mlen := 0, idlen := 0, klen := 0, olen := 0, ctxsel := 0
      domBits := BitVec.ofNat 32 s.cfg.defaultDomain.bits
      regs := ⟨s.cfg.defaultDomain.p, s.cfg.defaultDomain.a, s.cfg.defaultDomain.b, s.cfg.defaultDomain.gx,
        s.cfg.defaultDomain.gy, s.cfg.defaultDomain.n, 0, 0, 0, 0, 0, 0, 0⟩
      hc := List.replicate s.cfg.nctx ⟨Words8.iv, [], 0⟩, hi := ⟨Words8.iv, [], 0⟩, mem := [], seq := .idle
      tmp := ⟨0, [], 0, 0, 0, 0, ⟨0, 0⟩, ⟨0, 0⟩, ⟨0, 0⟩, [], [], [], 0⟩
      rng := (hostMove .rst s).rng, agenda := (hostMove .rst s).agenda, reply := (hostMove .rst s).reply }
    ∧ (∀ v : Word, v.getLsbD 0 = true → busWrite 0x14 v s = hostMove .rst s)
    ∧ busRead (hostMove .rst s) 0x08 = 0x10 ∧ busRead (hostMove .rst s) 0x00 = 0x474D4C07
    ∧ (hostMove .rst s).irq = false
    ∧ ∀ off, memGet (hostMove .rst s).mem off = 0

/-- Every step keeps the structural invariant: canonical memory, one context for each index, fewer than 64 pending bytes in
each and a bit count that agrees, registers within their width, reserved bits of `ERRLOG` 0, `ERRCODE` 0 exactly without an
error, the status and `OLEN` clear while busy, the temporaries clear while idle, the sequencer on the path of the command in
`CUR`. -/
def Obligations.StepKeepsCoreInv : Prop := ∀ s t : State, CoreInv s → step s = .next t → CoreInv t

/-- Every step keeps: a checked domain is a valid domain (70 R296). -/
def Obligations.StepKeepsDomainInv : Prop := ∀ s t : State, DomainInv s → step s = .next t → DomainInv t

/-- Every step keeps the invariant of a command in flight: past `CHECK` its pre-checks hold, its working copy has its
length, and no byte outside the buffers is written (20 R70, R74). -/
def Obligations.StepKeepsFlightInv : Prop := ∀ s t : State, CoreInv s → FlightInv s → step s = .next t → FlightInv t

/-- The reset state meets the structural invariant and the flight invariant, for every legal choice of the parameters. -/
def Obligations.ResetMeetsTheInvariants : Prop :=
  ∀ c : Config.Params, c.sized = true → CoreInv (State.resetWith c) ∧ FlightInv (State.resetWith c)

/-- After reset `Idle`, `NoFault` and `DomainChecked` hold, and `DomainValid` when `DEFAULT_DOMAIN` is valid (70 R296). -/
def Obligations.ResetMeetsTheLaunchPremises : Prop :=
  (∀ c : Config.Params, Idle (State.resetWith c) ∧ NoFault (State.resetWith c) ∧ DomainChecked (State.resetWith c))
    ∧ ∀ c : Config.Params, ParamsLegal c → DomainValid (State.resetWith c) ∧ DomainInv (State.resetWith c)

/-- The machine never stops: from a state of the structural invariant every step answers a next state. No behaviour of the
spec is without an outcome (70 R295, 93 part 1). -/
def Obligations.StepNeverStops : Prop := ∀ s : State, CoreInv s → ∃ t, step s = .next t

/-! The run of a command (30 R84, 60, 70). -/

/-- A run ends in `IDLE` with `DONE = 1` and the temporaries clear, or it stands at a draw whose request the RNG port has
not answered, and then stays `BUSY` as it is until it does. Every command that draws nothing ends, and so does every run whose
requests are answered (70 R290, R294, R296). -/
def Obligations.RunEndsOrWaitsForTheRng : Prop :=
  ∀ (i : Instr) (s : State), owns i s.seq = true →
    ∃ t, exec i s = .next t ∧
      ((t.seq = .idle ∧ (s.seq ≠ .idle → t.done = true ∧ t.tmp = Temps.cleared ∧ t.hi = HashCtx.init))
        ∨ (drawState i = some t.seq ∧ t.rng = [] ∧ overLimit t.cfg.retryLimit (t.tmp.tries + 1) = false
            ∧ exec i t = .next t))
      ∧ (PortsAnswer i s → t.seq = .idle)

/-- With a numeric `RETRY_LIMIT` a command that draws ends after at most that many draws (41 R137, 70 R290). -/
def Obligations.RetryLimitEndsEveryRun : Prop :=
  ∀ (i : Instr) (s : State) (n : Nat), s.seq = .check → s.tmp.tries = 0 → s.cfg.retryLimit = some n → n ≤ s.rng.length →
    ∃ t, exec i s = .next t ∧ t.seq = .idle

/-- The two granularities of 70 R293 agree: enough turns of one sequencer state each reach what one run reaches, and stay
there. -/
def Obligations.TicksRefineTheRun : Prop :=
  ∀ s : State, OnPath s → ∃ n, ∀ m, n ≤ m → ticks m s = runCore s

/-- The frame of every command: what no run of it changes, whether it ends, fails or waits. The operand registers it does not
write; the contexts it does not name; for a command without output all of memory and `OLEN`; for the others every byte below
`OUTBUF`, and, when the state meets the invariant of a command in flight, every byte outside `OUTBUF[0..OLEN)`; `DOMOK` but by
`DOM_CHECK`; `RESULT` but by `DOM_CHECK` and `VERIFY`; the length registers, `CTXSEL`, `IE`, `CMD`, `CUR`, `DOM_BITS`
(60 R257, 10 R35, R36, R41). -/
def Obligations.CommandFrame : Prop :=
  ∀ (i : Instr) (s t : State), exec i s = .next t →
    t.cfg = s.cfg ∧ t.cmd = s.cmd ∧ t.cur = s.cur ∧ t.ie = s.ie ∧ t.mlen = s.mlen ∧ t.idlen = s.idlen ∧ t.klen = s.klen
    ∧ t.ctxsel = s.ctxsel ∧ t.domBits = s.domBits ∧ t.agenda = s.agenda ∧ t.reply = s.reply
    ∧ (∀ r, r ∉ writes i → t.regs.get r = s.regs.get r)
    ∧ t.hc.length = s.hc.length
    ∧ (∀ n, (∀ c, writesCtx i = some c → n ≠ c.toNat) → t.hc[n]? = s.hc[n]?)
    ∧ (makesOutput i = false → t.mem = s.mem ∧ t.olen = s.olen)
    ∧ (Memory.wf s.mem = true → ∀ y, y < 0x200000 → memGet t.mem y = memGet s.mem y)
    ∧ (Memory.wf s.mem = true → s.cfg.sized = true → decode s.cfg.nctx s.cur = some i → FlightInv s →
        ∀ y, y < 0x200000 ∨ 0x200000 + t.olen.toNat ≤ y → memGet t.mem y = memGet s.mem y)
    ∧ (i ≠ .domCheck → t.domok = s.domok)
    ∧ (writesResult i = false → t.result = s.result)

/-- Pre-checks: they are made in the classes of 60 R260 and in that order; the first that fails ends the command with its
error and changes nothing but the status registers, the temporaries being cleared; when all pass, the command enters its
first run state. Class (a) is decoding (60 R255, R260, 30 R84 (2)). -/
def Obligations.PrechecksInOrder : Prop :=
  ∀ (i : Instr) (s : State), s.seq = .check → i.WellFormed s.cfg.nctx = true →
    (¬ lengthsFit i s → exec i s = .next (Failed .param s))
    ∧ (lengthsFit i s → ¬ domainReady i s → exec i s = .next (Failed .domain s))
    ∧ (lengthsFit i s → domainReady i s → ¬ inputFormFits i s → exec i s = .next (Failed .encoding s))
    ∧ (lengthsFit i s → domainReady i s → inputFormFits i s → ¬ (outputFits i s ∧ keyInRange i s) →
        exec i s = .next (Failed .param s))
    ∧ (Prechecked i s → exec i s = exec i { s with seq := (path i).headD .finish })

/-- A command that fails past `CHECK` leaves its destination registers 0 and everything else of the frame as it was: the
other registers, memory, `OLEN`, the contexts; the code is recorded in `ERRCODE`, `ERR` and the sticky log (60 R256, R257). -/
def Obligations.FailedRunZeroesItsDestinations : Prop :=
  ∀ (i : Instr) (s t : State), s.seq = .check → Prechecked i s → s.err = false → exec i s = .next t → t.err = true →
    (∀ r, t.regs.get r = if r ∈ destinations i then 0 else s.regs.get r)
    ∧ t.mem = s.mem ∧ t.olen = s.olen ∧ t.hc = s.hc
    ∧ t.seq = .idle ∧ t.done = true ∧ t.tmp = Temps.cleared ∧ t.hi = HashCtx.init
    ∧ ∃ k : ErrKind, t.errcode = k.code ∧ t.errlog = s.errlog ||| bit true k.code.toNat

/-- `DrawScalar`: over the limit, or at an answer `Fail`, the command ends with `ERR_RNG` and its destinations 0; a draw of 0
is drawn again; `tries` counts every draw (41 R137, R135). That an answer v is read as v modulo N is the model's choice
(log 4). -/
def Obligations.DrawFailsWithErrRng : Prop :=
  ∀ (i : Instr) (s : State), drawState i = some s.seq →
    (∀ rest, s.rng = .fail :: rest → overLimit s.cfg.retryLimit (s.tmp.tries + 1) = false →
        exec i s = .next { Failed .rng s with regs := (clearRegs (destinations i) s).regs, rng := rest })
    ∧ (∀ n, s.cfg.retryLimit = some n → n < s.tmp.tries + 1 →
        exec i s = .next { Failed .rng s with regs := (clearRegs (destinations i) s).regs })
    ∧ (∀ v rest, s.rng = .value v :: rest → v % s.regs.domN = 0 →
        overLimit s.cfg.retryLimit (s.tmp.tries + 1) = false →
        exec i s = exec i { s with rng := rest, tmp := { s.tmp with tries := s.tmp.tries + 1 } })

/-! What each command does. -/

/-- `H_RESET c` puts the initial context; `H_UPDATE c` absorbs the message (40 R115, R116). -/
def Obligations.HashStateCommands : Prop :=
  ∀ (c : BitVec 4) (s : State), s.seq = .check → c.toNat < s.cfg.nctx →
    exec (.hReset c) s = .next { Finished s with hc := s.hc.set c.toNat ⟨Words8.iv, [], 0⟩ }
    ∧ (s.mlen.toNat ≤ s.cfg.msgCap →
        exec (.hUpdate c) s = .next { Finished s with hc := s.hc.set c.toNat (absorb (hashCtx c.toNat s) s.message) })

/-- `H_FINAL c` delivers the digest of the context and does not change it; `H_DIGEST c` delivers `SM3` of the message and
leaves the context holding the absorbed message (40 R117, R118). -/
def Obligations.HashDigestCommands : Prop :=
  ∀ (c : BitVec 4) (s : State), s.seq = .check → c.toNat < s.cfg.nctx →
    exec (.hFinal c) s = .next { Finished s with
      mem := memSetBytes s.mem 0x200000 (finalize (hashCtx c.toNat s)), olen := 32 }
    ∧ (s.mlen.toNat ≤ s.cfg.msgCap →
        exec (.hDigest c) s = .next { Finished s with
          hc := s.hc.set c.toNat (absorb ⟨Words8.iv, [], 0⟩ s.message)
          mem := memSetBytes s.mem 0x200000 (sm3 s.message), olen := 32 })

/-- `DOM_CHECK`: `DOMOK` and `RESULT` take the verdict of `ValidDomain`, and an invalid domain ends with `ERR_DOMAIN`
(41 R139). A domain is valid exactly when the six conditions of 41 R138 hold, primality being the mathematical property
(log 16) and infinity being asked of the port (log 24); on a curve that is not singular the sixth is N·G = `INF` by the group
law (41 R133). -/
def Obligations.DomCheckCompletes : Prop :=
  ∀ s : State,
    (s.seq = .check → DomainValid s → exec .domCheck s = .next { Finished s with domok := true, result := true })
    ∧ (s.seq = .check → ¬ DomainValid s → exec .domCheck s = .next { Finished s with
        domok := false, result := false, err := true, errcode := 2, errlog := s.errlog ||| 4 })
    ∧ (DomainValid s ↔
        (1 ≤ s.domBits.toNat ∧ s.domBits.toNat ≤ s.cfg.opBits ∧ s.regs.domP < 2 ^ s.domBits.toNat)
        ∧ (3 < s.regs.domP ∧ s.regs.domP.Prime)
        ∧ (s.regs.domA < s.regs.domP ∧ s.regs.domB < s.regs.domP ∧ s.regs.domGx < s.regs.domP ∧ s.regs.domGy < s.regs.domP)
        ∧ (¬ (s.regs.domGx = 0 ∧ s.regs.domGy = 0)
          ∧ s.regs.domGy ^ 2 % s.regs.domP
              = (s.regs.domGx ^ 3 + s.regs.domA * s.regs.domGx + s.regs.domB) % s.regs.domP)
        ∧ s.regs.domN.Prime
        ∧ s.gaIsInf (s.gaMulBase s.regs.domN) = true)
    ∧ (domainInContract s.dom = true → onCurve s.dom s.dom.g = true →
        (s.gaIsInf (s.gaMulBase s.regs.domN) = true ↔ curveMul s.dom s.dom.g s.regs.domN = ⟨0, 0⟩))

/-- `KEYGEN`: with an accepted draw d, `KEY_D <- d` and the public key is `GA.mulBase(d)`; draws of 0 are rejected
(41 R142, R137). A register keeps a coordinate modulo 2^OPBITS (log 14); within the GA contract, P no more than that, it keeps
all of it. -/
def Obligations.KeygenCompletes : Prop :=
  ∀ (s : State) (d : Nat) (rest : List RngAnswer), s.seq = .check → s.domok = true → 0 < s.regs.domN →
    s.regs.domN ≤ 2 ^ s.cfg.opBits → DrawAccepted s (fun _ => False) d rest →
    exec .keygen s = .next { Finished s with
      regs := { s.regs with
        keyD := d, keyQx := (s.gaMulBase d).x % 2 ^ s.cfg.opBits, keyQy := (s.gaMulBase d).y % 2 ^ s.cfg.opBits }
      rng := rest }
    ∧ (domainInContract s.dom = true → onCurve s.dom s.dom.g = true → s.regs.domP ≤ 2 ^ s.cfg.opBits →
        ∃ t, exec .keygen s = .next t ∧ t.regs.keyD = d ∧ t.pubKey = curveMul s.dom s.dom.g d)

/-- `PUBKEY`: the public key registers take `GA.mulBase(KEY_D)` (41 R141), each coordinate modulo 2^OPBITS (log 14); within
the GA contract, P no more than that, all of it. -/
def Obligations.PubkeyCompletes : Prop :=
  ∀ s : State, s.seq = .check → s.domok = true → 1 ≤ s.regs.keyD → s.regs.keyD < s.regs.domN →
    exec .pubkey s = .next { Finished s with
      regs := { s.regs with
        keyQx := (s.gaMulBase s.regs.keyD).x % 2 ^ s.cfg.opBits
        keyQy := (s.gaMulBase s.regs.keyD).y % 2 ^ s.cfg.opBits } }
    ∧ (domainInContract s.dom = true → onCurve s.dom s.dom.g = true → s.regs.domP ≤ 2 ^ s.cfg.opBits →
        ∃ t, exec .pubkey s = .next t ∧ t.pubKey = curveMul s.dom s.dom.g s.regs.keyD)

/-- `KDF`: `OUTBUF` takes `Kdf(KDF_ZX, KDF_ZY, KLEN)` and `OLEN` takes `KLEN`; `DOMOK` is needed only when
`COORD_SER = fixed` (42 R157). -/
def Obligations.KdfCompletes : Prop :=
  ∀ s : State, s.seq = .check → s.klen.toNat ≤ s.cfg.outCap → (s.cfg.coordSer = .fixed → s.domok = true) →
    exec .kdf s = .next { Finished s with
      mem := memSetBytes s.mem 0x200000 (keystream ⟨s.regs.kdfZx, s.regs.kdfZy⟩ s.klen.toNat s), olen := s.klen }

/-- `SIGN` and `SIGN.U`: with draws that the loop rejects (0, r = 0, r + k = N, s = 0) and then an accepted scalar k, the
signature registers take the r and s of k, computed from the e of the identifier and the message (43 R170 to R177). -/
def Obligations.SignCompletes : Prop :=
  ∀ (i : Instr) (u : Bool) (s : State) (k : Nat) (rest : List RngAnswer),
    (i = .sign ∧ u = false) ∨ (i = .signU ∧ u = true) →
    s.seq = .check → Prechecked i s → s.regs.domN ≤ 2 ^ s.cfg.opBits →
    DrawAccepted s (signRejects u s) k rest →
    exec i s = .next { Finished s with regs := { s.regs with sigR := signR u s k, sigS := signS u s k }, rng := rest }

/-- A signature of a run that ends without error is in range, both halves in [1, N-1] (43 R178). -/
def Obligations.SignatureIsInRange : Prop :=
  ∀ (i : Instr) (s t : State), i = .sign ∨ i = .signU → s.seq = .check → s.err = false →
    s.regs.domN ≤ 2 ^ s.cfg.opBits → exec i s = .next t → t.seq = .idle → t.err = false →
    1 ≤ t.regs.sigR ∧ t.regs.sigR < s.regs.domN ∧ 1 ≤ t.regs.sigS ∧ t.regs.sigS < s.regs.domN

/-- `VERIFY` and `VERIFY.U`: `RESULT` takes the verdict of the five steps, and nothing else changes (43 R180 to R185). With
the public key `INF` the answer to `GA.mul(PA, t)` is a free value (43 R186; log 23). -/
def Obligations.VerifyCompletes : Prop :=
  ∀ (i : Instr) (u : Bool) (s : State), (i = .verify ∧ u = false) ∨ (i = .verifyU ∧ u = true) →
    s.seq = .check → Prechecked i s →
    exec i s = .next { Finished s with result := verifyAccepts u s }

/-- `ENCRYPT`: with draws that the loop rejects (0, a keystream that changes nothing) and then an accepted scalar k, the flat
form of the ciphertext of k is delivered (44 R191 to R196). -/
def Obligations.EncryptCompletes : Prop :=
  ∀ (s : State) (k : Nat) (rest : List RngAnswer), s.seq = .check → Prechecked .encrypt s →
    DrawAccepted s (encryptRejects s) k rest →
    exec .encrypt s = .next { Finished s with
      mem := memSetBytes s.mem 0x200000 (flatBytes s.keyBytes (ciphertextOf s k))
      olen := BitVec.ofNat 32 (s.c1Len + s.mlen.toNat + 32), rng := rest }

/-- `DECRYPT`: a first byte other than 0x04 ends with `ERR_ENCODING`, a C1 at infinity or a tag that differs with
`ERR_INTEGRITY`, and then no byte is delivered; else the plaintext is delivered (44 R198 to R204). -/
def Obligations.DecryptCompletes : Prop :=
  ∀ s : State, s.seq = .check → Prechecked .decrypt s →
    exec .decrypt s = .next
      (if byteAt s.message 0 ≠ 0x04 then Failed .encoding s
        else if s.gaIsInf (s.gaMul s.flatInput.c1 1) = true then Failed .integrity s
        else if tagOf (decryptShare s) (decryptPlain s) s ≠ s.flatInput.c3 then Failed .integrity s
        else { Finished s with
          mem := memSetBytes s.mem 0x200000 (decryptPlain s)
          olen := BitVec.ofNat 32 (s.mlen.toNat - s.c1Len - 32) })

/-- `DER_ENC_SIG` delivers the structured form of the signature registers, or ends with `ERR_PARAM` when it does not fit;
`DER_DEC_SIG` loads them, or ends with `ERR_ENCODING` and both 0 (45 R222, R223). -/
def Obligations.DerSignatureCommands : Prop :=
  ∀ s : State, s.seq = .check →
    exec .derEncSig s = .next
      (if s.cfg.outCap < (derSig s.regs.sigR s.regs.sigS).length then Failed .param s
        else Delivered (derSig s.regs.sigR s.regs.sigS) s)
    ∧ (s.mlen.toNat ≤ s.cfg.msgCap →
        exec .derDecSig s = .next
          (match parseSig s.cfg.opBits s.message with
            | none => { Failed .encoding s with regs := { s.regs with sigR := 0, sigS := 0 } }
            | some (r, v) => { Finished s with regs := { s.regs with sigR := r, sigS := v } }))

/-- `DER_ENC_CT` delivers the structured form of the flat ciphertext; `DER_DEC_CT` delivers the flat form of the structured
one; each ends with `ERR_ENCODING` on bad input and with `ERR_PARAM` before any write when the output does not fit
(45 R225, R226). -/
def Obligations.DerCiphertextCommands : Prop :=
  ∀ s : State, s.seq = .check →
    (Prechecked .derEncCt s →
        exec .derEncCt s = .next
          (if byteAt s.message 0 ≠ 0x04 then Failed .encoding s
            else if s.cfg.outCap < (derCt s.flatInput).length then Failed .param s
            else Delivered (derCt s.flatInput) s))
    ∧ (Prechecked .derDecCt s →
        exec .derDecCt s = .next
          (match parseCt s.keyBytes s.message with
            | none => Failed .encoding s
            | some ct =>
              if s.cfg.outCap < (flatBytes s.keyBytes ct).length then Failed .param s
              else Delivered (flatBytes s.keyBytes ct) s))

/-- `KEY_ENC.PUB`, `.RAW` and `.PRIV` deliver the byte form of the key registers, whatever these hold (46 R240, R242). -/
def Obligations.KeyEncodeCommands : Prop :=
  ∀ s : State, s.seq = .check → s.domok = true →
    (2 * s.keyBytes + 1 ≤ s.cfg.outCap →
        exec .keyEncPub s = .next
          (Delivered (0x04 :: (fix s.regs.keyQx s.keyBytes ++ fix s.regs.keyQy s.keyBytes)) s))
    ∧ (2 * s.keyBytes ≤ s.cfg.outCap →
        exec .keyEncRaw s = .next (Delivered (fix s.regs.keyQx s.keyBytes ++ fix s.regs.keyQy s.keyBytes) s))
    ∧ (s.keyBytes ≤ s.cfg.outCap → exec .keyEncPriv s = .next (Delivered (fix s.regs.keyD s.keyBytes) s))

/-- `KEY_DEC.PUB`, `.RAW` and `.PRIV` load the registers of their form from a message of the form's length; a first byte of
`PUB` other than 0x04 ends with `ERR_ENCODING` and the public key 0 (46 R240, R243). -/
def Obligations.KeyDecodeCommands : Prop :=
  ∀ s : State, s.seq = .check → s.domok = true → s.mlen.toNat ≤ s.cfg.msgCap → 8 * s.keyBytes ≤ s.cfg.opBits →
    (s.mlen.toNat = 2 * s.keyBytes + 1 →
        exec .keyDecPub s = .next
          (if byteAt s.message 0 ≠ 0x04 then { Failed .encoding s with regs := { s.regs with keyQx := 0, keyQy := 0 } }
            else { Finished s with
              regs := { s.regs with
                keyQx := intOf (slice s.message 1 s.keyBytes)
                keyQy := intOf (slice s.message (1 + s.keyBytes) s.keyBytes) } }))
    ∧ (s.mlen.toNat = 2 * s.keyBytes →
        exec .keyDecRaw s = .next { Finished s with
          regs := { s.regs with
            keyQx := intOf (slice s.message 0 s.keyBytes)
            keyQy := intOf (slice s.message s.keyBytes s.keyBytes) } })
    ∧ (s.mlen.toNat = s.keyBytes →
        exec .keyDecPriv s = .next { Finished s with regs := { s.regs with keyD := intOf (slice s.message 0 s.keyBytes) } })

/-! SM3, the KDF and the encodings. -/

/-- A message absorbed in any split finalizes to its `SM3` (40 R114, 70 R286). -/
def Obligations.ChunkedHashIsSm3 : Prop :=
  ∀ chunks : List Bytes, finalize (chunks.foldl absorb HashCtx.init) = sm3 chunks.flatten

/-- `Absorb`: the count grows by 8 bits a byte modulo 2^64; a whole block is compressed at once and the rest absorbed; fewer
than 64 bytes stay pending; absorbing nothing changes nothing, and absorbing `d1` then `d2` is absorbing `d1 ‖ d2`
(40 R113). -/
def Obligations.AbsorbIsAStream : Prop :=
  ∀ x : HashCtx, x.buf.length < 64 →
    absorb x [] = x
    ∧ (∀ d, (absorb x d).buf.length < 64 ∧ (absorb x d).cnt = x.cnt + BitVec.ofNat 64 (8 * d.length))
    ∧ (∀ d, (x.buf ++ d).length < 64 → (absorb x d).v = x.v ∧ (absorb x d).buf = x.buf ++ d)
    ∧ (∀ d, 64 ≤ (x.buf ++ d).length →
        (absorb x d).v = (absorb ⟨sm3CF x.v ((x.buf ++ d).take 64), [], 0⟩ ((x.buf ++ d).drop 64)).v
        ∧ (absorb x d).buf = (absorb ⟨sm3CF x.v ((x.buf ++ d).take 64), [], 0⟩ ((x.buf ++ d).drop 64)).buf)
    ∧ ∀ d1 d2, absorb (absorb x d1) d2 = absorb x (d1 ++ d2)

/-- `Pad(buf, L)` is `buf ‖ 0x80 ‖ 0x00^z ‖ be64(L)` with the smallest z that makes the length a multiple of 64, 64 bytes
up to 55 pending and 128 from 56 on (40 R111). -/
def Obligations.PaddingFillsTheBlock : Prop :=
  ∀ (buf : Bytes) (bits : Nat), buf.length < 64 → bits < 2 ^ 64 →
    ∃ z, sm3Pad buf bits = buf ++ [0x80] ++ List.replicate z 0 ++ be 8 bits
      ∧ z = (119 - buf.length) % 64 ∧ (sm3Pad buf bits).length % 64 = 0
      ∧ (∀ y, (buf.length + 1 + y + 8) % 64 = 0 → z ≤ y)
      ∧ (sm3Pad buf bits).length = (if buf.length ≤ 55 then 64 else 128)
      ∧ intOf ((sm3Pad buf bits).drop (buf.length + 1 + z)) = bits

/-- Message expansion: 68 words, the first sixteen those of the block, each later one by the recurrence (40 R102, R104). -/
def Obligations.ExpansionFollowsTheRecurrence : Prop :=
  ∀ b : Bytes, b.length = 64 →
    (expandW b).length = 68
    ∧ (∀ i, i < 16 → ((expandW b).getD i 0).toNat = intOf (slice b (4 * i) 4))
    ∧ ∀ j, 16 ≤ j → j < 68 →
        (expandW b).getD j 0 =
          sm3P1 ((expandW b).getD (j - 16) 0 ^^^ (expandW b).getD (j - 9) 0 ^^^ ((expandW b).getD (j - 3) 0).rotateLeft 15)
            ^^^ ((expandW b).getD (j - 13) 0).rotateLeft 7 ^^^ (expandW b).getD (j - 6) 0

/-- The compression function, as 40 R103 and R105 to R109 write it: there are words W, W' and working states `st` such that
W and W' are the two expansions of the block, `st 0` is V, each of the 64 rounds makes `st (j + 1)` of `st j`, and the result
is the wordwise xor of V and `st 64`. All sums are modulo 2^32 (40 R110). -/
def Obligations.CompressionFollowsTheRounds : Prop :=
  ∀ (v : Words8) (b : Bytes), b.length = 64 →
    ∃ (w w' : Nat → Word) (st : Nat → Words8),
      (∀ i, i < 16 → (w i).toNat = intOf (slice b (4 * i) 4))
      ∧ (∀ j, 16 ≤ j → j < 68 →
          let x := w (j - 16) ^^^ w (j - 9) ^^^ (w (j - 3)).rotateLeft 15
          w j = (x ^^^ x.rotateLeft 15 ^^^ x.rotateLeft 23) ^^^ (w (j - 13)).rotateLeft 7 ^^^ w (j - 6))
      ∧ (∀ j, j < 64 → w' j = w j ^^^ w (j + 4))
      ∧ st 0 = v
      ∧ (∀ j, j < 64 →
          let r := st j
          let t : Word := if j < 16 then 0x79cc4519 else 0x7a879d8a
          let ff := if j < 16 then r.a ^^^ r.b ^^^ r.c else (r.a ||| r.b) &&& (r.a ||| r.c) &&& (r.b ||| r.c)
          let gg := if j < 16 then r.e ^^^ r.f ^^^ r.g else (r.e &&& r.f) ||| (~~~r.e &&& r.g)
          let ss1 := (r.a.rotateLeft 12 + r.e + t.rotateLeft (j % 32)).rotateLeft 7
          let ss2 := ss1 ^^^ r.a.rotateLeft 12
          let tt1 := ff + r.d + ss2 + w' j
          let tt2 := gg + r.h + ss1 + w j
          (st (j + 1)).a = tt1 ∧ (st (j + 1)).b = r.a ∧ (st (j + 1)).c = r.b.rotateLeft 9 ∧ (st (j + 1)).d = r.c
          ∧ (st (j + 1)).e = tt2 ^^^ tt2.rotateLeft 9 ^^^ tt2.rotateLeft 17
          ∧ (st (j + 1)).f = r.e ∧ (st (j + 1)).g = r.f.rotateLeft 19 ∧ (st (j + 1)).h = r.g)
      ∧ ∀ i, i < 8 → (sm3CF v b).get i = v.get i ^^^ (st 64).get i

/-- The keystream has the length asked for, and its byte i is byte `i mod 32` of `SM3(ser(zx) ‖ ser(zy) ‖ counter)` with the
counter i/32 + 1, which is `be32` of it up to 2^32 - 1, the bound of 42 R155; so a longer request extends a shorter one
(42 R155, R156). Above that bound the counter's bytes are the model's free value (91 N7; log 25); no command reaches it. -/
def Obligations.KeystreamIsCounterMode : Prop :=
  ∀ (s : State) (q : Point) (n : Nat), (keystream q n s).length = n
    ∧ (∀ i, i < n → byteAt (keystream q n s) i = byteAt (sm3 (s.ser q.x ++ s.ser q.y ++ kdfCounter (i / 32 + 1))) (i % 32))
    ∧ (∀ ct, ct ≤ 2 ^ 32 - 1 → kdfCounter ct = be 4 ct)
    ∧ ∀ m, m ≤ n → (keystream q n s).take m = keystream q m s

/-- The structured form of a signature is canonical: a byte string parses to (R, S) exactly when it is the encoding of R and
S and both fit the registers; so decoding and encoding are inverse in both directions (45 R220, R227). -/
def Obligations.SignatureFormIsCanonical : Prop :=
  ∀ (w : Nat) (b : Bytes) (r v : Nat), w ≤ 1024 → (parseSig w b = some (r, v) ↔ b = derSig r v ∧ r < 2 ^ w ∧ v < 2 ^ w)

/-- The structured form of a ciphertext is canonical, and the flat form splits and joins exactly, so
`UnmarshalDER(MarshalDER(c)) = c`; and `DER_DEC_CT` of the output of a completed `DER_ENC_CT`, copied to `MSGBUF` by the host,
delivers the flat form bit for bit, each form fitting the buffer it is to be written to (45 R221, R225, R226, R227). -/
def Obligations.CiphertextFormIsCanonical : Prop :=
  (∀ (kb : Nat) (b : Bytes) (ct : Ciphertext), kb ≤ 2 ^ 20 → ct.c2.length ≤ 2 ^ 20 →
      (parseCt kb b = some ct ↔
        b = derCt ct ∧ ct.c1.x < 2 ^ (8 * kb) ∧ ct.c1.y < 2 ^ (8 * kb) ∧ ct.c3.length = 32))
    ∧ (∀ (kb : Nat) (f : Bytes), byteAt f 0 = 0x04 → 2 * kb + 1 + 32 ≤ f.length → f.length ≤ 2 ^ 20 →
        flatBytes kb (splitFlat kb f) = f ∧ parseCt kb (derCt (splitFlat kb f)) = some (splitFlat kb f))
    ∧ (∀ (kb : Nat) (ct : Ciphertext), ct.c1.x < 2 ^ (8 * kb) → ct.c1.y < 2 ^ (8 * kb) → ct.c3.length = 32 →
        splitFlat kb (flatBytes kb ct) = ct)
    ∧ ∀ s t : State, s.seq = .check → s.err = false → s.cfg.sized = true → Memory.wf s.mem = true →
        exec .derEncCt s = .next t → t.err = false → t.olen.toNat ≤ s.cfg.msgCap → s.mlen.toNat ≤ s.cfg.outCap →
        ∃ w, exec .derDecCt (issue (encode .derDecCt) (outputAsMessage t)) = .next w
          ∧ w.err = false ∧ w.seq = .idle ∧ memRead .out 0 w.olen.toNat w = s.message

/-- Key byte forms round trip: what `KEY_ENC` writes `KEY_DEC` reads back, and the other way round (46 R244). -/
def Obligations.KeyFormsRoundTrip : Prop :=
  (∀ s : State, s.regs.keyD < 2 ^ (8 * s.keyBytes) → s.regs.keyQx < 2 ^ (8 * s.keyBytes) →
      s.regs.keyQy < 2 ^ (8 * s.keyBytes) →
      byteAt (keyFormBytes .pub s) 0 = 0x04 ∧ pointAt s.keyBytes (keyFormBytes .pub s) 1 = s.pubKey
      ∧ pointAt s.keyBytes (keyFormBytes .raw s) 0 = s.pubKey
      ∧ intOf (slice (keyFormBytes .priv s) 0 s.keyBytes) = s.regs.keyD
      ∧ ∀ f, (keyFormBytes f s).length = f.length s.keyBytes)
    ∧ ∀ (kb : Nat) (b : Bytes),
        (b.length = 2 * kb + 1 → byteAt b 0 = 0x04 → pointBytes kb (pointAt kb b 1) = b)
        ∧ (b.length = 2 * kb → fix (pointAt kb b 0).x kb ++ fix (pointAt kb b 0).y kb = b)
        ∧ (b.length = kb → fix (intOf (slice b 0 kb)) kb = b)

/-! The GA port and the two round trips of the scheme. -/

/-- The GA port of the model meets the contract of 41 R132: within it, the answers are those of the group law of R133, and
they stay within it; and if G is not `INF`, N is prime and N·G is `INF`, then k·G is `INF` exactly when N divides k, as R133
concludes. -/
def Obligations.GAPortMeetsItsContract : Prop :=
  GACorrect ga
    ∧ (∀ (d : Domain) (q r : Point) (k : Nat), domainInContract d = true → pointInContract d q = true →
        pointInContract d r = true →
        pointInContract d (ga.add d q r) = true ∧ pointInContract d (ga.mul d q k) = true)
    ∧ ∀ (d : Domain) (k : Nat), domainInContract d = true → pointInContract d d.g = true → d.g ≠ Point.inf → d.n.Prime →
        ga.mulBase d d.n = Point.inf → (ga.isInf d (ga.mulBase d k) = true ↔ d.n ∣ k)

/-- A signature of a completed `SIGN` is accepted by `VERIFY` with the matching public key, the same identifier and the same
message, on a valid domain of the GA contract (43 R178). The premise that B is not 0 modulo P is the spec's point (0, 0)
that stands for infinity (41 R134): with B = 0 it is also a point of the curve, and R133 is no group law. -/
def Obligations.SignThenVerifyAccepts : Prop :=
  ∀ (u : Bool) (s t : State),
    s.seq = .check → s.err = false → DomainValid s → domainInContract s.dom = true → s.dom.b % s.dom.p ≠ 0 →
    s.regs.domN ≤ 2 ^ s.cfg.opBits → s.pubKey = s.gaMulBase s.regs.keyD →
    exec (if u then .signU else .sign) s = .next t → t.seq = .idle → t.err = false →
    ∃ w, exec (if u then .verifyU else .verify) (issue (encode (if u then .verifyU else .verify)) t) = .next w
      ∧ w.result = true ∧ w.err = false ∧ w.seq = .idle

/-- `DECRYPT` of the output of a completed `ENCRYPT`, copied to `MSGBUF` by the host, completes without error and delivers
the message, on a valid domain of the GA contract and with the matching private key (44 R205). The premise on B is that of
`SignThenVerifyAccepts`. -/
def Obligations.EncryptThenDecryptReturnsTheMessage : Prop :=
  ∀ s t : State,
    s.seq = .check → s.err = false → s.cfg.sized = true → Memory.wf s.mem = true → DomainValid s →
    domainInContract s.dom = true → s.dom.b % s.dom.p ≠ 0 →
    1 ≤ s.regs.keyD → s.regs.keyD < s.regs.domN → s.pubKey = s.gaMulBase s.regs.keyD →
    exec .encrypt s = .next t → t.seq = .idle → t.err = false → t.olen.toNat ≤ s.cfg.msgCap →
    ∃ w, exec .decrypt (issue (encode .decrypt) (outputAsMessage t)) = .next w
      ∧ w.err = false ∧ w.seq = .idle ∧ memRead .out 0 w.olen.toNat w = s.message
end

