-- ==== Sys2Proof/Laws/Bytes.lean ====
section
/-! SUPPORT. The laws of the big-endian encodings: lengths, values, and that encoding and reading are inverse. -/

namespace Sys2Proof.Machine

theorem modN_lt (a : Int) {n : Nat} (h : 0 < n) : modN a n < n := by
  have h1 := Int.emod_nonneg a (b := (n : Int)) (by omega)
  have h2 := Int.emod_lt_of_pos a (b := (n : Int)) (by omega)
  unfold modN
  omega

@[simp] theorem length_be (n v : Nat) : (be n v).length = n := by
  induction n with
  | zero => rfl
  | succ n ih => simp [be, ih]

theorem intOf_foldl (s : Bytes) (acc : Nat) :
    s.foldl (fun acc b => acc * 256 + b.toNat) acc = acc * 256 ^ s.length + intOf s := by
  induction s generalizing acc with
  | nil => simp [intOf]
  | cons b s ih =>
    simp only [List.foldl_cons, List.length_cons, intOf]
    rw [ih, ih (0 * 256 + b.toNat)]
    ring

@[simp] theorem intOf_nil : intOf [] = 0 := rfl

theorem intOf_cons (b : Byte) (s : Bytes) : intOf (b :: s) = b.toNat * 256 ^ s.length + intOf s := by
  rw [show intOf (b :: s) = s.foldl (fun acc b => acc * 256 + b.toNat) (0 * 256 + b.toNat) from rfl, intOf_foldl]
  simp

theorem intOf_append (s t : Bytes) : intOf (s ++ t) = intOf s * 256 ^ t.length + intOf t := by
  rw [← intOf_foldl, intOf, List.foldl_append, ← intOf]

theorem intOf_lt (s : Bytes) : intOf s < 256 ^ s.length := by
  induction s with
  | nil => simp
  | cons b s ih =>
    have hb := b.isLt
    rw [intOf_cons, List.length_cons, pow_succ]
    nlinarith [Nat.pow_pos (n := s.length) (show 0 < 256 by norm_num)]

theorem be_mod (n v k : Nat) (h : n ≤ k) : be n (v % 256 ^ k) = be n v := by
  induction n with
  | zero => rfl
  | succ n ih =>
    have hk : 256 ^ k = 256 ^ n * 256 * 256 ^ (k - n - 1) := by
      rw [← pow_succ, ← pow_add]; congr 1; omega
    simp only [be, ih (by omega), List.cons.injEq, and_true]
    apply BitVec.eq_of_toNat_eq
    simp only [BitVec.toNat_ofNat]
    rw [hk, mul_assoc, Nat.mod_mul_right_div_self, Nat.mod_mul_right_mod]

theorem intOf_be (n v : Nat) : intOf (be n v) = v % 256 ^ n := by
  induction n with
  | zero => simp [be, Nat.mod_one]
  | succ n ih =>
    have h : v % 256 ^ (n + 1) = v % 256 ^ n + 256 ^ n * (v / 256 ^ n % 256) := by rw [pow_succ, Nat.mod_mul]
    rw [be, intOf_cons, length_be, ih, BitVec.toNat_ofNat, h, Nat.add_comm, Nat.mul_comm]

theorem be_intOf (s : Bytes) : be s.length (intOf s) = s := by
  induction s with
  | nil => rfl
  | cons b s ih =>
    have hs := intOf_lt s
    have hp : 0 < 256 ^ s.length := Nat.pow_pos (by norm_num)
    have hd : intOf (b :: s) / 256 ^ s.length = b.toNat := by
      rw [intOf_cons, Nat.add_comm, Nat.add_mul_div_right _ _ hp, Nat.div_eq_of_lt hs, Nat.zero_add]
    have hm : intOf (b :: s) % 256 ^ s.length = intOf s := by
      rw [intOf_cons, Nat.add_comm, Nat.add_mul_mod_self_right, Nat.mod_eq_of_lt hs]
    rw [List.length_cons, be, hd, ← be_mod _ _ _ (Nat.le_refl _), hm, ih]
    simp

theorem intOf_injective {s t : Bytes} (hl : s.length = t.length) (h : intOf s = intOf t) : s = t := by
  rw [← be_intOf s, ← be_intOf t, hl, h]

theorem two_pow_eight_mul (w : Nat) : 2 ^ (8 * w) = 256 ^ w := by rw [pow_mul]; norm_num

theorem fix_eq_be (v w : Nat) : fix v w = be w v := by
  rw [fix, two_pow_eight_mul, be_mod _ _ _ (Nat.le_refl _)]

@[simp] theorem length_fix (v w : Nat) : (fix v w).length = w := by simp [fix]

theorem intOf_fix (v w : Nat) : intOf (fix v w) = v % 2 ^ (8 * w) := by
  rw [fix_eq_be, intOf_be, two_pow_eight_mul]

/-- `int(fix(v, w)) = v` for `v < 2^(8w)` (46 R244). -/
theorem intOf_fix_of_lt {v w : Nat} (h : v < 2 ^ (8 * w)) : intOf (fix v w) = v := by
  rw [intOf_fix, Nat.mod_eq_of_lt h]

theorem fix_intOf {s : Bytes} {w : Nat} (h : s.length = w) : fix (intOf s) w = s := by
  rw [fix_eq_be, ← h, be_intOf]

@[simp] theorem bitlen_zero : bitlen 0 = 0 := rfl

theorem lt_two_pow_bitlen (v : Nat) : v < 2 ^ bitlen v := by
  unfold bitlen
  split
  · subst_vars; decide
  · exact Nat.lt_log2_self

theorem two_pow_le_of_bitlen {v : Nat} (h : v ≠ 0) : 2 ^ (bitlen v - 1) ≤ v := by
  unfold bitlen
  rw [if_neg h, Nat.add_sub_cancel]
  exact Nat.log2_self_le h

theorem bitlen_pos {v : Nat} (h : v ≠ 0) : 0 < bitlen v := by simp [bitlen, h]

theorem bitlen_le {v n : Nat} (h : v < 2 ^ n) : bitlen v ≤ n := by
  by_cases hv : v = 0
  · simp [hv]
  · by_contra hc
    have h1 := two_pow_le_of_bitlen hv
    have h2 : 2 ^ n ≤ 2 ^ (bitlen v - 1) := Nat.pow_le_pow_right (by norm_num) (by omega)
    omega

theorem le_eight_mul_ceilDiv (n : Nat) : n ≤ 8 * ceilDiv n 8 ∧ 8 * ceilDiv n 8 < n + 8 := by
  unfold ceilDiv
  omega

@[simp] theorem length_minbytes (v : Nat) : (minbytes v).length = ceilDiv (bitlen v) 8 := by simp [minbytes]

@[simp] theorem minbytes_zero : minbytes 0 = [] := rfl

theorem lt_pow_length_minbytes (v : Nat) : v < 256 ^ (minbytes v).length := by
  rw [length_minbytes, ← two_pow_eight_mul]
  exact lt_of_lt_of_le (lt_two_pow_bitlen v) (Nat.pow_le_pow_right (by norm_num) (le_eight_mul_ceilDiv _).1)

/-- `int(minbytes(v)) = v` (00 R13). -/
@[simp] theorem intOf_minbytes (v : Nat) : intOf (minbytes v) = v := by
  have h := lt_pow_length_minbytes v
  rw [length_minbytes] at h
  rw [minbytes, intOf_be, Nat.mod_eq_of_lt h]

theorem minbytes_ne_nil {v : Nat} (h : v ≠ 0) : minbytes v ≠ [] := by
  intro hn
  apply h
  rw [← intOf_minbytes v, hn, intOf_nil]

/-- The first byte of `minbytes(v)` is not 0 (00 R13). -/
theorem byteAt_minbytes_ne_zero {v : Nat} (h : v ≠ 0) : byteAt (minbytes v) 0 ≠ 0 := by
  intro h0
  have hlen := minbytes_ne_nil h
  match hm : minbytes v with
  | [] => exact hlen hm
  | b :: s =>
    rw [hm] at h0
    have hb : b = 0 := by simpa [byteAt] using h0
    have hv : v = intOf s := by rw [← intOf_minbytes v, hm, intOf_cons, hb]; simp
    have hlt : v < 256 ^ s.length := hv ▸ intOf_lt s
    have hl : s.length + 1 = ceilDiv (bitlen v) 8 := by rw [← length_minbytes, hm]; rfl
    have h1 := two_pow_le_of_bitlen h
    have h2 := (le_eight_mul_ceilDiv (bitlen v)).2
    have hp := bitlen_pos h
    rw [← two_pow_eight_mul] at hlt
    have h3 : 2 ^ (8 * s.length) ≤ 2 ^ (bitlen v - 1) := Nat.pow_le_pow_right (by norm_num) (by omega)
    omega

/-- A byte string with a first byte other than 0 is the shortest of its value (00 R13). -/
theorem minbytes_intOf {s : Bytes} (h : s ≠ []) (h0 : byteAt s 0 ≠ 0) : minbytes (intOf s) = s := by
  match s with
  | [] => exact absurd rfl h
  | b :: t =>
    have hb : b.toNat ≠ 0 := by
      intro hz
      apply h0
      simp only [byteAt, List.getD_cons_zero]
      exact BitVec.eq_of_toNat_eq (by simpa using hz)
    have hlow : 256 ^ t.length ≤ intOf (b :: t) := by
      rw [intOf_cons]
      nlinarith [Nat.pow_pos (n := t.length) (show 0 < 256 by norm_num), Nat.pos_of_ne_zero hb]
    have hhigh := intOf_lt (b :: t)
    rw [← two_pow_eight_mul] at hlow hhigh
    have hne : intOf (b :: t) ≠ 0 := by have := Nat.pow_pos (n := 8 * t.length) (show 0 < 2 by norm_num); omega
    have hle : bitlen (intOf (b :: t)) ≤ 8 * (b :: t).length := bitlen_le hhigh
    have hgt : 8 * t.length < bitlen (intOf (b :: t)) := by
      by_contra hc
      have := lt_of_lt_of_le (lt_two_pow_bitlen (intOf (b :: t))) (Nat.pow_le_pow_right (by norm_num) (Nat.le_of_not_lt hc))
      omega
    have hc : ceilDiv (bitlen (intOf (b :: t))) 8 = (b :: t).length := by
      simp only [List.length_cons] at *
      unfold ceilDiv
      omega
    rw [minbytes, hc, be_intOf]

@[simp] theorem length_slice (s : Bytes) (a n : Nat) : (slice s a n).length = min n (s.length - a) := by
  simp [slice]

@[simp] theorem length_lanesOfWord (w : Word) : (lanesOfWord w).length = 4 := rfl

theorem wordOfLanes_lanesOfWord (w : Word) :
    wordOfLanes (w.extractLsb' 24 8) (w.extractLsb' 16 8) (w.extractLsb' 8 8) (w.extractLsb' 0 8) = w := by
  apply BitVec.eq_of_getLsbD_eq
  intro i hi
  simp only [wordOfLanes, BitVec.getLsbD_append, BitVec.getLsbD_extractLsb']
  by_cases h1 : i < 8
  · simp [h1]
  · by_cases h2 : i < 16
    · have : i - 8 < 8 := by omega
      simp [h1, this, show 8 + (i - 8) = i by omega]
    · by_cases h3 : i < 24
      · have e1 : ¬ i - 8 < 8 := by omega
        have e2 : i - 8 - 8 < 8 := by omega
        simp [h1, e1, e2, show 16 + (i - 8 - 8) = i by omega]
      · have e1 : ¬ i - 8 < 8 := by omega
        have e2 : ¬ i - 8 - 8 < 8 := by omega
        have e3 : i - 8 - 8 - 8 < 8 := by omega
        simp [h1, e1, e2, e3, show 24 + (i - 8 - 8 - 8) = i by omega]

end Sys2Proof.Machine
end

