-- ==== Sys2Proof/Laws/Memory.lean ====
section
/-! SUPPORT. The laws of the cells: a byte written reads back and leaves every other alone, and every operation keeps the
canonical form. -/

namespace Sys2Proof.Machine

theorem memGet_consCell (x : Nat) (v : Byte) (m : List Host.Cell) (y : Nat) (h : v = unlistedByte → memGet m x = unlistedByte) :
    memGet (consCell x v m) y = if y = x then v else memGet m y := by
  unfold consCell
  split
  · rename_i hv
    split
    · rename_i hy; rw [hy, hv, h hv]
    · rfl
  · rfl

theorem Memory.above_mono {x y : Nat} (hxy : y ≤ x) {m : List Host.Cell} (h : Memory.above x m = true) :
    Memory.above y m = true := by
  cases m with
  | nil => rfl
  | cons c rest =>
    simp only [Memory.above, Bool.and_eq_true, decide_eq_true_eq] at h ⊢
    exact ⟨⟨lt_of_le_of_lt hxy h.1.1, h.1.2⟩, h.2⟩

/-- Nothing is listed at or below a bound of the cells. -/
theorem memGet_of_above {x y : Nat} {m : List Host.Cell} (h : Memory.above x m = true) (hy : y ≤ x) :
    memGet m y = unlistedByte := by
  induction m generalizing x with
  | nil => rfl
  | cons c rest ih =>
    simp only [Memory.above, Bool.and_eq_true, decide_eq_true_eq] at h
    rw [memGet, if_neg (by omega), ih h.2 (by omega)]

theorem Memory.wf_iff_above (m : List Host.Cell) (a : Nat) (v : Byte) :
    Memory.wf ((a, v) :: m) = true ↔ v ≠ unlistedByte ∧ Memory.above a m = true := by
  simp [Memory.wf]

theorem Memory.wf_of_above {x : Nat} {m : List Host.Cell} (h : Memory.above x m = true) : Memory.wf m = true := by
  cases m with
  | nil => rfl
  | cons c rest =>
    simp only [Memory.above, Bool.and_eq_true, decide_eq_true_eq] at h
    exact (Memory.wf_iff_above _ _ _).2 ⟨h.1.2, h.2⟩

theorem Memory.above_consCell {b x : Nat} (v : Byte) {m : List Host.Cell} (hb : b < x) (h : Memory.above x m = true) :
    Memory.above b (consCell x v m) = true := by
  unfold consCell
  split
  · exact Memory.above_mono (by omega) h
  · rename_i hv
    simp [Memory.above, hb, hv, h]

theorem Memory.above_memSet {b : Nat} {m : List Host.Cell} (h : Memory.above b m = true) {x : Nat} (hx : b < x) (v : Byte) :
    Memory.above b (memSet m x v) = true := by
  induction m generalizing b with
  | nil => exact Memory.above_consCell v hx rfl
  | cons c rest ih =>
    obtain ⟨a, u⟩ := c
    have h' := h
    simp only [Memory.above, Bool.and_eq_true, decide_eq_true_eq] at h'
    unfold memSet
    split
    · rename_i hlt
      exact Memory.above_consCell v hx (by simp [Memory.above, hlt, h'.1.2, h'.2])
    · split
      · rename_i _ heq
        exact Memory.above_consCell v hx (heq ▸ h'.2)
      · simp [Memory.above, h'.1, ih h'.2 (show a < x by omega)]

/-- A write keeps the canonical form. -/
theorem Memory.wf_memSet {m : List Host.Cell} (h : Memory.wf m = true) (x : Nat) (v : Byte) :
    Memory.wf (memSet m x v) = true := by
  cases m with
  | nil =>
    unfold memSet consCell
    split <;> simp_all [Memory.wf, Memory.above]
  | cons c rest =>
    obtain ⟨a, u⟩ := c
    have h' := (Memory.wf_iff_above _ _ _).1 h
    unfold memSet
    split
    · rename_i hlt
      unfold consCell
      split
      · exact h
      · rename_i hv
        exact (Memory.wf_iff_above _ _ _).2 ⟨hv, by simp [Memory.above, hlt, h'.1, h'.2]⟩
    · split
      · rename_i _ heq
        unfold consCell
        split
        · exact Memory.wf_of_above h'.2
        · rename_i hv
          exact (Memory.wf_iff_above _ _ _).2 ⟨hv, heq ▸ h'.2⟩
      · exact (Memory.wf_iff_above _ _ _).2 ⟨h'.1, Memory.above_memSet h'.2 (by omega) v⟩

theorem memGet_memSet_above {b : Nat} {m : List Host.Cell} (h : Memory.above b m = true) (x : Nat) (v : Byte) (y : Nat) :
    memGet (memSet m x v) y = if y = x then v else memGet m y := by
  induction m generalizing b with
  | nil => exact memGet_consCell x v [] y (fun _ => rfl)
  | cons c rest ih =>
    obtain ⟨a, u⟩ := c
    simp only [Memory.above, Bool.and_eq_true, decide_eq_true_eq] at h
    unfold memSet
    split
    · rename_i hlt
      refine memGet_consCell x v _ y (fun _ => ?_)
      rw [memGet, if_neg (by omega)]
      exact memGet_of_above h.2 (by omega)
    · split
      · rename_i _ heq
        rw [memGet_consCell x v _ y (fun _ => memGet_of_above h.2 (by omega))]
        by_cases hy : y = x
        · simp [hy]
        · rw [if_neg hy, if_neg hy, memGet, if_neg (by omega)]
      · rename_i h1 h2
        rw [memGet, memGet, ih h.2]
        by_cases hy : y = a
        · rw [if_pos hy, if_neg (by omega), if_pos hy]
        · rw [if_neg hy, if_neg hy]

/-- A byte written reads back, and every other byte reads as before. -/
theorem memGet_memSet {m : List Host.Cell} (h : Memory.wf m = true) (x : Nat) (v : Byte) (y : Nat) :
    memGet (memSet m x v) y = if y = x then v else memGet m y := by
  cases m with
  | nil => exact memGet_consCell x v [] y (fun _ => rfl)
  | cons c rest =>
    obtain ⟨a, u⟩ := c
    have h' := (Memory.wf_iff_above _ _ _).1 h
    unfold memSet
    split
    · rename_i hlt
      refine memGet_consCell x v _ y (fun _ => ?_)
      rw [memGet, if_neg (by omega)]
      exact memGet_of_above h'.2 (by omega)
    · split
      · rename_i _ heq
        rw [memGet_consCell x v _ y (fun _ => memGet_of_above h'.2 (by omega))]
        by_cases hy : y = x
        · simp [hy]
        · rw [if_neg hy, if_neg hy, memGet, if_neg (by omega)]
      · rw [memGet, memGet, memGet_memSet_above h'.2]
        by_cases hy : y = a
        · rw [if_pos hy, if_neg (by omega), if_pos hy]
        · rw [if_neg hy, if_neg hy]

/-- Writing a byte string keeps the canonical form. -/
theorem Memory.wf_memSetBytes {m : List Host.Cell} (h : Memory.wf m = true) (a : Nat) (d : Bytes) :
    Memory.wf (memSetBytes m a d) = true := by
  induction d generalizing m a with
  | nil => exact h
  | cons b rest ih => exact ih (Memory.wf_memSet h a b) (a + 1)

/-- A byte string written reads back byte by byte, and every byte outside it reads as before. -/
theorem memGet_memSetBytes {m : List Host.Cell} (h : Memory.wf m = true) (a : Nat) (d : Bytes) (y : Nat) :
    memGet (memSetBytes m a d) y = if a ≤ y ∧ y < a + d.length then byteAt d (y - a) else memGet m y := by
  induction d generalizing m a with
  | nil => rw [if_neg (by simp)]; rfl
  | cons b rest ih =>
    rw [memSetBytes, ih (Memory.wf_memSet h a b), memGet_memSet h]
    simp only [List.length_cons]
    by_cases h1 : a + 1 ≤ y ∧ y < a + 1 + rest.length
    · rw [if_pos h1, if_pos (by omega), show y - a = (y - (a + 1)) + 1 by omega]
      simp [byteAt]
    · rw [if_neg h1]
      by_cases h2 : y = a
      · rw [if_pos h2, if_pos (by omega), h2]
        simp [byteAt]
      · rw [if_neg h2, if_neg (by omega)]

@[simp] theorem length_memGetBytes (m : List Host.Cell) (a n : Nat) : (memGetBytes m a n).length = n := by
  induction n generalizing a with
  | zero => rfl
  | succ n ih => simp [memGetBytes, ih]

theorem memGetBytes_congr {m m' : List Host.Cell} {a n : Nat} (h : ∀ y, a ≤ y → y < a + n → memGet m y = memGet m' y) :
    memGetBytes m a n = memGetBytes m' a n := by
  induction n generalizing a with
  | zero => rfl
  | succ n ih =>
    rw [memGetBytes, memGetBytes, h a (by omega) (by omega), ih (fun y h1 h2 => h y (by omega) (by omega))]

/-- What was written reads back as a string. -/
theorem memGetBytes_memSetBytes {m : List Host.Cell} (h : Memory.wf m = true) (a : Nat) (d : Bytes) :
    memGetBytes (memSetBytes m a d) a d.length = d := by
  induction d generalizing m a with
  | nil => rfl
  | cons b rest ih =>
    rw [memSetBytes, List.length_cons, memGetBytes, ih (Memory.wf_memSet h a b),
      memGet_memSetBytes (Memory.wf_memSet h a b), if_neg (by omega), memGet_memSet h, if_pos rfl]

/-- Two canonical memories with the same bytes are the same list. -/
theorem Memory.ext_above {b : Nat} {m m' : List Host.Cell} (h : Memory.above b m = true) (h' : Memory.above b m' = true)
    (hg : ∀ y, memGet m y = memGet m' y) : m = m' := by
  induction m generalizing b m' with
  | nil =>
    cases m' with
    | nil => rfl
    | cons c rest =>
      simp only [Memory.above, Bool.and_eq_true, decide_eq_true_eq] at h'
      have := hg c.1
      simp only [memGet, if_true] at this
      exact absurd this.symm h'.1.2
  | cons c rest ih =>
    obtain ⟨a, u⟩ := c
    simp only [Memory.above, Bool.and_eq_true, decide_eq_true_eq] at h
    cases m' with
    | nil =>
      have := hg a
      simp only [memGet, if_true] at this
      exact absurd this h.1.2
    | cons c' rest' =>
      obtain ⟨a', u'⟩ := c'
      simp only [Memory.above, Bool.and_eq_true, decide_eq_true_eq] at h'
      have ha : a = a' := by
        by_contra hne
        rcases Nat.lt_or_gt_of_ne hne with hlt | hgt
        · have := hg a
          rw [memGet, if_pos rfl, memGet, if_neg hne, memGet_of_above h'.2 (by omega)] at this
          exact h.1.2 this
        · have := hg a'
          rw [memGet, if_neg (by omega), memGet, if_pos rfl, memGet_of_above h.2 (by omega)] at this
          exact h'.1.2 this.symm
      subst ha
      have hu : u = u' := by simpa [memGet] using hg a
      subst hu
      congr 1
      refine ih h.2 h'.2 (fun y => ?_)
      by_cases hy : y = a
      · rw [hy, memGet_of_above h.2 (Nat.le_refl a), memGet_of_above h'.2 (Nat.le_refl a)]
      · have := hg y
        rwa [memGet, if_neg hy, memGet, if_neg hy] at this

end Sys2Proof.Machine
end

