-- ==== Sys2Proof/Laws/State.lean ====
section
/-! SUPPORT. What each update of the state does to each field, one lemma a field, true by unfolding. -/

namespace Sys2Proof.Machine

/-! `logError` -/

@[simp] theorem logError_cfg (n : Nat) (s : State) : (logError n s).cfg = s.cfg := rfl
@[simp] theorem logError_cmd (n : Nat) (s : State) : (logError n s).cmd = s.cmd := rfl
@[simp] theorem logError_cur (n : Nat) (s : State) : (logError n s).cur = s.cur := rfl
@[simp] theorem logError_done (n : Nat) (s : State) : (logError n s).done = s.done := rfl
@[simp] theorem logError_err (n : Nat) (s : State) : (logError n s).err = s.err := rfl
@[simp] theorem logError_result (n : Nat) (s : State) : (logError n s).result = s.result := rfl
@[simp] theorem logError_domok (n : Nat) (s : State) : (logError n s).domok = s.domok := rfl
@[simp] theorem logError_errcode (n : Nat) (s : State) : (logError n s).errcode = s.errcode := rfl
@[simp] theorem logError_errlog (n : Nat) (s : State) : (logError n s).errlog = s.errlog ||| bit true n := rfl
@[simp] theorem logError_ie (n : Nat) (s : State) : (logError n s).ie = s.ie := rfl
@[simp] theorem logError_mlen (n : Nat) (s : State) : (logError n s).mlen = s.mlen := rfl
@[simp] theorem logError_idlen (n : Nat) (s : State) : (logError n s).idlen = s.idlen := rfl
@[simp] theorem logError_klen (n : Nat) (s : State) : (logError n s).klen = s.klen := rfl
@[simp] theorem logError_olen (n : Nat) (s : State) : (logError n s).olen = s.olen := rfl
@[simp] theorem logError_ctxsel (n : Nat) (s : State) : (logError n s).ctxsel = s.ctxsel := rfl
@[simp] theorem logError_domBits (n : Nat) (s : State) : (logError n s).domBits = s.domBits := rfl
@[simp] theorem logError_regs (n : Nat) (s : State) : (logError n s).regs = s.regs := rfl
@[simp] theorem logError_hc (n : Nat) (s : State) : (logError n s).hc = s.hc := rfl
@[simp] theorem logError_hi (n : Nat) (s : State) : (logError n s).hi = s.hi := rfl
@[simp] theorem logError_mem (n : Nat) (s : State) : (logError n s).mem = s.mem := rfl
@[simp] theorem logError_seq (n : Nat) (s : State) : (logError n s).seq = s.seq := rfl
@[simp] theorem logError_tmp (n : Nat) (s : State) : (logError n s).tmp = s.tmp := rfl
@[simp] theorem logError_rng (n : Nat) (s : State) : (logError n s).rng = s.rng := rfl
@[simp] theorem logError_agenda (n : Nat) (s : State) : (logError n s).agenda = s.agenda := rfl
@[simp] theorem logError_reply (n : Nat) (s : State) : (logError n s).reply = s.reply := rfl

/-! `recordError` -/

@[simp] theorem recordError_cfg (k : ErrKind) (s : State) : (recordError k s).cfg = s.cfg := rfl
@[simp] theorem recordError_cmd (k : ErrKind) (s : State) : (recordError k s).cmd = s.cmd := rfl
@[simp] theorem recordError_cur (k : ErrKind) (s : State) : (recordError k s).cur = s.cur := rfl
@[simp] theorem recordError_done (k : ErrKind) (s : State) : (recordError k s).done = s.done := rfl
@[simp] theorem recordError_err (k : ErrKind) (s : State) : (recordError k s).err = true := rfl
@[simp] theorem recordError_result (k : ErrKind) (s : State) : (recordError k s).result = s.result := rfl
@[simp] theorem recordError_domok (k : ErrKind) (s : State) : (recordError k s).domok = s.domok := rfl
@[simp] theorem recordError_errcode (k : ErrKind) (s : State) : (recordError k s).errcode = k.code := rfl
@[simp] theorem recordError_errlog (k : ErrKind) (s : State) : (recordError k s).errlog = s.errlog ||| bit true k.code.toNat := rfl
@[simp] theorem recordError_ie (k : ErrKind) (s : State) : (recordError k s).ie = s.ie := rfl
@[simp] theorem recordError_mlen (k : ErrKind) (s : State) : (recordError k s).mlen = s.mlen := rfl
@[simp] theorem recordError_idlen (k : ErrKind) (s : State) : (recordError k s).idlen = s.idlen := rfl
@[simp] theorem recordError_klen (k : ErrKind) (s : State) : (recordError k s).klen = s.klen := rfl
@[simp] theorem recordError_olen (k : ErrKind) (s : State) : (recordError k s).olen = s.olen := rfl
@[simp] theorem recordError_ctxsel (k : ErrKind) (s : State) : (recordError k s).ctxsel = s.ctxsel := rfl
@[simp] theorem recordError_domBits (k : ErrKind) (s : State) : (recordError k s).domBits = s.domBits := rfl
@[simp] theorem recordError_regs (k : ErrKind) (s : State) : (recordError k s).regs = s.regs := rfl
@[simp] theorem recordError_hc (k : ErrKind) (s : State) : (recordError k s).hc = s.hc := rfl
@[simp] theorem recordError_hi (k : ErrKind) (s : State) : (recordError k s).hi = s.hi := rfl
@[simp] theorem recordError_mem (k : ErrKind) (s : State) : (recordError k s).mem = s.mem := rfl
@[simp] theorem recordError_seq (k : ErrKind) (s : State) : (recordError k s).seq = s.seq := rfl
@[simp] theorem recordError_tmp (k : ErrKind) (s : State) : (recordError k s).tmp = s.tmp := rfl
@[simp] theorem recordError_rng (k : ErrKind) (s : State) : (recordError k s).rng = s.rng := rfl
@[simp] theorem recordError_agenda (k : ErrKind) (s : State) : (recordError k s).agenda = s.agenda := rfl
@[simp] theorem recordError_reply (k : ErrKind) (s : State) : (recordError k s).reply = s.reply := rfl

/-! `memWrite` -/

@[simp] theorem memWrite_cfg (b : Buf) (a : Nat) (d : Bytes) (s : State) : (memWrite b a d s).cfg = s.cfg := rfl
@[simp] theorem memWrite_cmd (b : Buf) (a : Nat) (d : Bytes) (s : State) : (memWrite b a d s).cmd = s.cmd := rfl
@[simp] theorem memWrite_cur (b : Buf) (a : Nat) (d : Bytes) (s : State) : (memWrite b a d s).cur = s.cur := rfl
@[simp] theorem memWrite_done (b : Buf) (a : Nat) (d : Bytes) (s : State) : (memWrite b a d s).done = s.done := rfl
@[simp] theorem memWrite_err (b : Buf) (a : Nat) (d : Bytes) (s : State) : (memWrite b a d s).err = s.err := rfl
@[simp] theorem memWrite_result (b : Buf) (a : Nat) (d : Bytes) (s : State) : (memWrite b a d s).result = s.result := rfl
@[simp] theorem memWrite_domok (b : Buf) (a : Nat) (d : Bytes) (s : State) : (memWrite b a d s).domok = s.domok := rfl
@[simp] theorem memWrite_errcode (b : Buf) (a : Nat) (d : Bytes) (s : State) : (memWrite b a d s).errcode = s.errcode := rfl
@[simp] theorem memWrite_errlog (b : Buf) (a : Nat) (d : Bytes) (s : State) : (memWrite b a d s).errlog = s.errlog := rfl
@[simp] theorem memWrite_ie (b : Buf) (a : Nat) (d : Bytes) (s : State) : (memWrite b a d s).ie = s.ie := rfl
@[simp] theorem memWrite_mlen (b : Buf) (a : Nat) (d : Bytes) (s : State) : (memWrite b a d s).mlen = s.mlen := rfl
@[simp] theorem memWrite_idlen (b : Buf) (a : Nat) (d : Bytes) (s : State) : (memWrite b a d s).idlen = s.idlen := rfl
@[simp] theorem memWrite_klen (b : Buf) (a : Nat) (d : Bytes) (s : State) : (memWrite b a d s).klen = s.klen := rfl
@[simp] theorem memWrite_olen (b : Buf) (a : Nat) (d : Bytes) (s : State) : (memWrite b a d s).olen = s.olen := rfl
@[simp] theorem memWrite_ctxsel (b : Buf) (a : Nat) (d : Bytes) (s : State) : (memWrite b a d s).ctxsel = s.ctxsel := rfl
@[simp] theorem memWrite_domBits (b : Buf) (a : Nat) (d : Bytes) (s : State) : (memWrite b a d s).domBits = s.domBits := rfl
@[simp] theorem memWrite_regs (b : Buf) (a : Nat) (d : Bytes) (s : State) : (memWrite b a d s).regs = s.regs := rfl
@[simp] theorem memWrite_hc (b : Buf) (a : Nat) (d : Bytes) (s : State) : (memWrite b a d s).hc = s.hc := rfl
@[simp] theorem memWrite_hi (b : Buf) (a : Nat) (d : Bytes) (s : State) : (memWrite b a d s).hi = s.hi := rfl
@[simp] theorem memWrite_mem (b : Buf) (a : Nat) (d : Bytes) (s : State) : (memWrite b a d s).mem = memSetBytes s.mem (b.base + a) d := rfl
@[simp] theorem memWrite_seq (b : Buf) (a : Nat) (d : Bytes) (s : State) : (memWrite b a d s).seq = s.seq := rfl
@[simp] theorem memWrite_tmp (b : Buf) (a : Nat) (d : Bytes) (s : State) : (memWrite b a d s).tmp = s.tmp := rfl
@[simp] theorem memWrite_rng (b : Buf) (a : Nat) (d : Bytes) (s : State) : (memWrite b a d s).rng = s.rng := rfl
@[simp] theorem memWrite_agenda (b : Buf) (a : Nat) (d : Bytes) (s : State) : (memWrite b a d s).agenda = s.agenda := rfl
@[simp] theorem memWrite_reply (b : Buf) (a : Nat) (d : Bytes) (s : State) : (memWrite b a d s).reply = s.reply := rfl

/-! `output` -/

@[simp] theorem output_cfg (d : Bytes) (s : State) : (output d s).cfg = s.cfg := rfl
@[simp] theorem output_cmd (d : Bytes) (s : State) : (output d s).cmd = s.cmd := rfl
@[simp] theorem output_cur (d : Bytes) (s : State) : (output d s).cur = s.cur := rfl
@[simp] theorem output_done (d : Bytes) (s : State) : (output d s).done = s.done := rfl
@[simp] theorem output_err (d : Bytes) (s : State) : (output d s).err = s.err := rfl
@[simp] theorem output_result (d : Bytes) (s : State) : (output d s).result = s.result := rfl
@[simp] theorem output_domok (d : Bytes) (s : State) : (output d s).domok = s.domok := rfl
@[simp] theorem output_errcode (d : Bytes) (s : State) : (output d s).errcode = s.errcode := rfl
@[simp] theorem output_errlog (d : Bytes) (s : State) : (output d s).errlog = s.errlog := rfl
@[simp] theorem output_ie (d : Bytes) (s : State) : (output d s).ie = s.ie := rfl
@[simp] theorem output_mlen (d : Bytes) (s : State) : (output d s).mlen = s.mlen := rfl
@[simp] theorem output_idlen (d : Bytes) (s : State) : (output d s).idlen = s.idlen := rfl
@[simp] theorem output_klen (d : Bytes) (s : State) : (output d s).klen = s.klen := rfl
@[simp] theorem output_olen (d : Bytes) (s : State) : (output d s).olen = BitVec.ofNat 32 d.length := rfl
@[simp] theorem output_ctxsel (d : Bytes) (s : State) : (output d s).ctxsel = s.ctxsel := rfl
@[simp] theorem output_domBits (d : Bytes) (s : State) : (output d s).domBits = s.domBits := rfl
@[simp] theorem output_regs (d : Bytes) (s : State) : (output d s).regs = s.regs := rfl
@[simp] theorem output_hc (d : Bytes) (s : State) : (output d s).hc = s.hc := rfl
@[simp] theorem output_hi (d : Bytes) (s : State) : (output d s).hi = s.hi := rfl
@[simp] theorem output_mem (d : Bytes) (s : State) : (output d s).mem = memSetBytes s.mem (Buf.out.base + 0) d := rfl
@[simp] theorem output_seq (d : Bytes) (s : State) : (output d s).seq = s.seq := rfl
@[simp] theorem output_tmp (d : Bytes) (s : State) : (output d s).tmp = s.tmp := rfl
@[simp] theorem output_rng (d : Bytes) (s : State) : (output d s).rng = s.rng := rfl
@[simp] theorem output_agenda (d : Bytes) (s : State) : (output d s).agenda = s.agenda := rfl
@[simp] theorem output_reply (d : Bytes) (s : State) : (output d s).reply = s.reply := rfl

/-! `setReg` -/

@[simp] theorem setReg_cfg (r : OpReg) (v : Nat) (s : State) : (setReg r v s).cfg = s.cfg := rfl
@[simp] theorem setReg_cmd (r : OpReg) (v : Nat) (s : State) : (setReg r v s).cmd = s.cmd := rfl
@[simp] theorem setReg_cur (r : OpReg) (v : Nat) (s : State) : (setReg r v s).cur = s.cur := rfl
@[simp] theorem setReg_done (r : OpReg) (v : Nat) (s : State) : (setReg r v s).done = s.done := rfl
@[simp] theorem setReg_err (r : OpReg) (v : Nat) (s : State) : (setReg r v s).err = s.err := rfl
@[simp] theorem setReg_result (r : OpReg) (v : Nat) (s : State) : (setReg r v s).result = s.result := rfl
@[simp] theorem setReg_domok (r : OpReg) (v : Nat) (s : State) : (setReg r v s).domok = s.domok := rfl
@[simp] theorem setReg_errcode (r : OpReg) (v : Nat) (s : State) : (setReg r v s).errcode = s.errcode := rfl
@[simp] theorem setReg_errlog (r : OpReg) (v : Nat) (s : State) : (setReg r v s).errlog = s.errlog := rfl
@[simp] theorem setReg_ie (r : OpReg) (v : Nat) (s : State) : (setReg r v s).ie = s.ie := rfl
@[simp] theorem setReg_mlen (r : OpReg) (v : Nat) (s : State) : (setReg r v s).mlen = s.mlen := rfl
@[simp] theorem setReg_idlen (r : OpReg) (v : Nat) (s : State) : (setReg r v s).idlen = s.idlen := rfl
@[simp] theorem setReg_klen (r : OpReg) (v : Nat) (s : State) : (setReg r v s).klen = s.klen := rfl
@[simp] theorem setReg_olen (r : OpReg) (v : Nat) (s : State) : (setReg r v s).olen = s.olen := rfl
@[simp] theorem setReg_ctxsel (r : OpReg) (v : Nat) (s : State) : (setReg r v s).ctxsel = s.ctxsel := rfl
@[simp] theorem setReg_domBits (r : OpReg) (v : Nat) (s : State) : (setReg r v s).domBits = s.domBits := rfl
@[simp] theorem setReg_regs (r : OpReg) (v : Nat) (s : State) : (setReg r v s).regs = s.regs.put r (v % 2 ^ s.cfg.opBits) := rfl
@[simp] theorem setReg_hc (r : OpReg) (v : Nat) (s : State) : (setReg r v s).hc = s.hc := rfl
@[simp] theorem setReg_hi (r : OpReg) (v : Nat) (s : State) : (setReg r v s).hi = s.hi := rfl
@[simp] theorem setReg_mem (r : OpReg) (v : Nat) (s : State) : (setReg r v s).mem = s.mem := rfl
@[simp] theorem setReg_seq (r : OpReg) (v : Nat) (s : State) : (setReg r v s).seq = s.seq := rfl
@[simp] theorem setReg_tmp (r : OpReg) (v : Nat) (s : State) : (setReg r v s).tmp = s.tmp := rfl
@[simp] theorem setReg_rng (r : OpReg) (v : Nat) (s : State) : (setReg r v s).rng = s.rng := rfl
@[simp] theorem setReg_agenda (r : OpReg) (v : Nat) (s : State) : (setReg r v s).agenda = s.agenda := rfl
@[simp] theorem setReg_reply (r : OpReg) (v : Nat) (s : State) : (setReg r v s).reply = s.reply := rfl

/-! `setHashCtx` -/

@[simp] theorem setHashCtx_cfg (c : Nat) (x : HashCtx) (s : State) : (setHashCtx c x s).cfg = s.cfg := rfl
@[simp] theorem setHashCtx_cmd (c : Nat) (x : HashCtx) (s : State) : (setHashCtx c x s).cmd = s.cmd := rfl
@[simp] theorem setHashCtx_cur (c : Nat) (x : HashCtx) (s : State) : (setHashCtx c x s).cur = s.cur := rfl
@[simp] theorem setHashCtx_done (c : Nat) (x : HashCtx) (s : State) : (setHashCtx c x s).done = s.done := rfl
@[simp] theorem setHashCtx_err (c : Nat) (x : HashCtx) (s : State) : (setHashCtx c x s).err = s.err := rfl
@[simp] theorem setHashCtx_result (c : Nat) (x : HashCtx) (s : State) : (setHashCtx c x s).result = s.result := rfl
@[simp] theorem setHashCtx_domok (c : Nat) (x : HashCtx) (s : State) : (setHashCtx c x s).domok = s.domok := rfl
@[simp] theorem setHashCtx_errcode (c : Nat) (x : HashCtx) (s : State) : (setHashCtx c x s).errcode = s.errcode := rfl
@[simp] theorem setHashCtx_errlog (c : Nat) (x : HashCtx) (s : State) : (setHashCtx c x s).errlog = s.errlog := rfl
@[simp] theorem setHashCtx_ie (c : Nat) (x : HashCtx) (s : State) : (setHashCtx c x s).ie = s.ie := rfl
@[simp] theorem setHashCtx_mlen (c : Nat) (x : HashCtx) (s : State) : (setHashCtx c x s).mlen = s.mlen := rfl
@[simp] theorem setHashCtx_idlen (c : Nat) (x : HashCtx) (s : State) : (setHashCtx c x s).idlen = s.idlen := rfl
@[simp] theorem setHashCtx_klen (c : Nat) (x : HashCtx) (s : State) : (setHashCtx c x s).klen = s.klen := rfl
@[simp] theorem setHashCtx_olen (c : Nat) (x : HashCtx) (s : State) : (setHashCtx c x s).olen = s.olen := rfl
@[simp] theorem setHashCtx_ctxsel (c : Nat) (x : HashCtx) (s : State) : (setHashCtx c x s).ctxsel = s.ctxsel := rfl
@[simp] theorem setHashCtx_domBits (c : Nat) (x : HashCtx) (s : State) : (setHashCtx c x s).domBits = s.domBits := rfl
@[simp] theorem setHashCtx_regs (c : Nat) (x : HashCtx) (s : State) : (setHashCtx c x s).regs = s.regs := rfl
@[simp] theorem setHashCtx_hc (c : Nat) (x : HashCtx) (s : State) : (setHashCtx c x s).hc = s.hc.set c x := rfl
@[simp] theorem setHashCtx_hi (c : Nat) (x : HashCtx) (s : State) : (setHashCtx c x s).hi = s.hi := rfl
@[simp] theorem setHashCtx_mem (c : Nat) (x : HashCtx) (s : State) : (setHashCtx c x s).mem = s.mem := rfl
@[simp] theorem setHashCtx_seq (c : Nat) (x : HashCtx) (s : State) : (setHashCtx c x s).seq = s.seq := rfl
@[simp] theorem setHashCtx_tmp (c : Nat) (x : HashCtx) (s : State) : (setHashCtx c x s).tmp = s.tmp := rfl
@[simp] theorem setHashCtx_rng (c : Nat) (x : HashCtx) (s : State) : (setHashCtx c x s).rng = s.rng := rfl
@[simp] theorem setHashCtx_agenda (c : Nat) (x : HashCtx) (s : State) : (setHashCtx c x s).agenda = s.agenda := rfl
@[simp] theorem setHashCtx_reply (c : Nat) (x : HashCtx) (s : State) : (setHashCtx c x s).reply = s.reply := rfl

/-! `issue` -/

@[simp] theorem issue_cfg (w : Word) (s : State) : (issue w s).cfg = s.cfg := rfl
@[simp] theorem issue_cmd (w : Word) (s : State) : (issue w s).cmd = w := rfl
@[simp] theorem issue_cur (w : Word) (s : State) : (issue w s).cur = w := rfl
@[simp] theorem issue_done (w : Word) (s : State) : (issue w s).done = false := rfl
@[simp] theorem issue_err (w : Word) (s : State) : (issue w s).err = false := rfl
@[simp] theorem issue_result (w : Word) (s : State) : (issue w s).result = false := rfl
@[simp] theorem issue_domok (w : Word) (s : State) : (issue w s).domok = s.domok := rfl
@[simp] theorem issue_errcode (w : Word) (s : State) : (issue w s).errcode = 0 := rfl
@[simp] theorem issue_errlog (w : Word) (s : State) : (issue w s).errlog = s.errlog := rfl
@[simp] theorem issue_ie (w : Word) (s : State) : (issue w s).ie = s.ie := rfl
@[simp] theorem issue_mlen (w : Word) (s : State) : (issue w s).mlen = s.mlen := rfl
@[simp] theorem issue_idlen (w : Word) (s : State) : (issue w s).idlen = s.idlen := rfl
@[simp] theorem issue_klen (w : Word) (s : State) : (issue w s).klen = s.klen := rfl
@[simp] theorem issue_olen (w : Word) (s : State) : (issue w s).olen = 0 := rfl
@[simp] theorem issue_ctxsel (w : Word) (s : State) : (issue w s).ctxsel = s.ctxsel := rfl
@[simp] theorem issue_domBits (w : Word) (s : State) : (issue w s).domBits = s.domBits := rfl
@[simp] theorem issue_regs (w : Word) (s : State) : (issue w s).regs = s.regs := rfl
@[simp] theorem issue_hc (w : Word) (s : State) : (issue w s).hc = s.hc := rfl
@[simp] theorem issue_hi (w : Word) (s : State) : (issue w s).hi = s.hi := rfl
@[simp] theorem issue_mem (w : Word) (s : State) : (issue w s).mem = s.mem := rfl
@[simp] theorem issue_seq (w : Word) (s : State) : (issue w s).seq = .check := rfl
@[simp] theorem issue_tmp (w : Word) (s : State) : (issue w s).tmp = { s.tmp with tries := 0 } := rfl
@[simp] theorem issue_rng (w : Word) (s : State) : (issue w s).rng = s.rng := rfl
@[simp] theorem issue_agenda (w : Word) (s : State) : (issue w s).agenda = s.agenda := rfl
@[simp] theorem issue_reply (w : Word) (s : State) : (issue w s).reply = s.reply := rfl

/-! `complete` -/

@[simp] theorem complete_cfg (s : State) : (complete s).cfg = s.cfg := rfl
@[simp] theorem complete_cmd (s : State) : (complete s).cmd = s.cmd := rfl
@[simp] theorem complete_cur (s : State) : (complete s).cur = s.cur := rfl
@[simp] theorem complete_done (s : State) : (complete s).done = true := rfl
@[simp] theorem complete_err (s : State) : (complete s).err = s.err := rfl
@[simp] theorem complete_result (s : State) : (complete s).result = s.result := rfl
@[simp] theorem complete_domok (s : State) : (complete s).domok = s.domok := rfl
@[simp] theorem complete_errcode (s : State) : (complete s).errcode = s.errcode := rfl
@[simp] theorem complete_errlog (s : State) : (complete s).errlog = s.errlog := rfl
@[simp] theorem complete_ie (s : State) : (complete s).ie = s.ie := rfl
@[simp] theorem complete_mlen (s : State) : (complete s).mlen = s.mlen := rfl
@[simp] theorem complete_idlen (s : State) : (complete s).idlen = s.idlen := rfl
@[simp] theorem complete_klen (s : State) : (complete s).klen = s.klen := rfl
@[simp] theorem complete_olen (s : State) : (complete s).olen = s.olen := rfl
@[simp] theorem complete_ctxsel (s : State) : (complete s).ctxsel = s.ctxsel := rfl
@[simp] theorem complete_domBits (s : State) : (complete s).domBits = s.domBits := rfl
@[simp] theorem complete_regs (s : State) : (complete s).regs = s.regs := rfl
@[simp] theorem complete_hc (s : State) : (complete s).hc = s.hc := rfl
@[simp] theorem complete_hi (s : State) : (complete s).hi = HashCtx.init := rfl
@[simp] theorem complete_mem (s : State) : (complete s).mem = s.mem := rfl
@[simp] theorem complete_seq (s : State) : (complete s).seq = .idle := rfl
@[simp] theorem complete_tmp (s : State) : (complete s).tmp = Temps.cleared := rfl
@[simp] theorem complete_rng (s : State) : (complete s).rng = s.rng := rfl
@[simp] theorem complete_agenda (s : State) : (complete s).agenda = s.agenda := rfl
@[simp] theorem complete_reply (s : State) : (complete s).reply = s.reply := rfl

/-! `finish` -/

@[simp] theorem finish_cfg (s : State) : (finish s).cfg = s.cfg := rfl
@[simp] theorem finish_cmd (s : State) : (finish s).cmd = s.cmd := rfl
@[simp] theorem finish_cur (s : State) : (finish s).cur = s.cur := rfl
@[simp] theorem finish_done (s : State) : (finish s).done = true := rfl
@[simp] theorem finish_err (s : State) : (finish s).err = s.err := rfl
@[simp] theorem finish_result (s : State) : (finish s).result = s.result := rfl
@[simp] theorem finish_domok (s : State) : (finish s).domok = s.domok := rfl
@[simp] theorem finish_errcode (s : State) : (finish s).errcode = s.errcode := rfl
@[simp] theorem finish_errlog (s : State) : (finish s).errlog = s.errlog := rfl
@[simp] theorem finish_ie (s : State) : (finish s).ie = s.ie := rfl
@[simp] theorem finish_mlen (s : State) : (finish s).mlen = s.mlen := rfl
@[simp] theorem finish_idlen (s : State) : (finish s).idlen = s.idlen := rfl
@[simp] theorem finish_klen (s : State) : (finish s).klen = s.klen := rfl
@[simp] theorem finish_olen (s : State) : (finish s).olen = s.olen := rfl
@[simp] theorem finish_ctxsel (s : State) : (finish s).ctxsel = s.ctxsel := rfl
@[simp] theorem finish_domBits (s : State) : (finish s).domBits = s.domBits := rfl
@[simp] theorem finish_regs (s : State) : (finish s).regs = s.regs := rfl
@[simp] theorem finish_hc (s : State) : (finish s).hc = s.hc := rfl
@[simp] theorem finish_hi (s : State) : (finish s).hi = HashCtx.init := rfl
@[simp] theorem finish_mem (s : State) : (finish s).mem = s.mem := rfl
@[simp] theorem finish_seq (s : State) : (finish s).seq = .idle := rfl
@[simp] theorem finish_tmp (s : State) : (finish s).tmp = Temps.cleared := rfl
@[simp] theorem finish_rng (s : State) : (finish s).rng = s.rng := rfl
@[simp] theorem finish_agenda (s : State) : (finish s).agenda = s.agenda := rfl
@[simp] theorem finish_reply (s : State) : (finish s).reply = s.reply := rfl

/-! `setPubKey` -/

@[simp] theorem setPubKey_cfg (q : Point) (s : State) : (setPubKey q s).cfg = s.cfg := rfl
@[simp] theorem setPubKey_cmd (q : Point) (s : State) : (setPubKey q s).cmd = s.cmd := rfl
@[simp] theorem setPubKey_cur (q : Point) (s : State) : (setPubKey q s).cur = s.cur := rfl
@[simp] theorem setPubKey_done (q : Point) (s : State) : (setPubKey q s).done = s.done := rfl
@[simp] theorem setPubKey_err (q : Point) (s : State) : (setPubKey q s).err = s.err := rfl
@[simp] theorem setPubKey_result (q : Point) (s : State) : (setPubKey q s).result = s.result := rfl
@[simp] theorem setPubKey_domok (q : Point) (s : State) : (setPubKey q s).domok = s.domok := rfl
@[simp] theorem setPubKey_errcode (q : Point) (s : State) : (setPubKey q s).errcode = s.errcode := rfl
@[simp] theorem setPubKey_errlog (q : Point) (s : State) : (setPubKey q s).errlog = s.errlog := rfl
@[simp] theorem setPubKey_ie (q : Point) (s : State) : (setPubKey q s).ie = s.ie := rfl
@[simp] theorem setPubKey_mlen (q : Point) (s : State) : (setPubKey q s).mlen = s.mlen := rfl
@[simp] theorem setPubKey_idlen (q : Point) (s : State) : (setPubKey q s).idlen = s.idlen := rfl
@[simp] theorem setPubKey_klen (q : Point) (s : State) : (setPubKey q s).klen = s.klen := rfl
@[simp] theorem setPubKey_olen (q : Point) (s : State) : (setPubKey q s).olen = s.olen := rfl
@[simp] theorem setPubKey_ctxsel (q : Point) (s : State) : (setPubKey q s).ctxsel = s.ctxsel := rfl
@[simp] theorem setPubKey_domBits (q : Point) (s : State) : (setPubKey q s).domBits = s.domBits := rfl
@[simp] theorem setPubKey_regs (q : Point) (s : State) : (setPubKey q s).regs = (s.regs.put .keyQx (q.x % 2 ^ s.cfg.opBits)).put .keyQy (q.y % 2 ^ s.cfg.opBits) := rfl
@[simp] theorem setPubKey_hc (q : Point) (s : State) : (setPubKey q s).hc = s.hc := rfl
@[simp] theorem setPubKey_hi (q : Point) (s : State) : (setPubKey q s).hi = s.hi := rfl
@[simp] theorem setPubKey_mem (q : Point) (s : State) : (setPubKey q s).mem = s.mem := rfl
@[simp] theorem setPubKey_seq (q : Point) (s : State) : (setPubKey q s).seq = s.seq := rfl
@[simp] theorem setPubKey_tmp (q : Point) (s : State) : (setPubKey q s).tmp = s.tmp := rfl
@[simp] theorem setPubKey_rng (q : Point) (s : State) : (setPubKey q s).rng = s.rng := rfl
@[simp] theorem setPubKey_agenda (q : Point) (s : State) : (setPubKey q s).agenda = s.agenda := rfl
@[simp] theorem setPubKey_reply (q : Point) (s : State) : (setPubKey q s).reply = s.reply := rfl

/-! `resetCore` -/

@[simp] theorem resetCore_cfg (s : State) : (resetCore s).cfg = s.cfg := rfl
@[simp] theorem resetCore_cmd (s : State) : (resetCore s).cmd = (State.resetWith s.cfg).cmd := rfl
@[simp] theorem resetCore_cur (s : State) : (resetCore s).cur = (State.resetWith s.cfg).cur := rfl
@[simp] theorem resetCore_done (s : State) : (resetCore s).done = (State.resetWith s.cfg).done := rfl
@[simp] theorem resetCore_err (s : State) : (resetCore s).err = (State.resetWith s.cfg).err := rfl
@[simp] theorem resetCore_result (s : State) : (resetCore s).result = (State.resetWith s.cfg).result := rfl
@[simp] theorem resetCore_domok (s : State) : (resetCore s).domok = (State.resetWith s.cfg).domok := rfl
@[simp] theorem resetCore_errcode (s : State) : (resetCore s).errcode = (State.resetWith s.cfg).errcode := rfl
@[simp] theorem resetCore_errlog (s : State) : (resetCore s).errlog = (State.resetWith s.cfg).errlog := rfl
@[simp] theorem resetCore_ie (s : State) : (resetCore s).ie = (State.resetWith s.cfg).ie := rfl
@[simp] theorem resetCore_mlen (s : State) : (resetCore s).mlen = (State.resetWith s.cfg).mlen := rfl
@[simp] theorem resetCore_idlen (s : State) : (resetCore s).idlen = (State.resetWith s.cfg).idlen := rfl
@[simp] theorem resetCore_klen (s : State) : (resetCore s).klen = (State.resetWith s.cfg).klen := rfl
@[simp] theorem resetCore_olen (s : State) : (resetCore s).olen = (State.resetWith s.cfg).olen := rfl
@[simp] theorem resetCore_ctxsel (s : State) : (resetCore s).ctxsel = (State.resetWith s.cfg).ctxsel := rfl
@[simp] theorem resetCore_domBits (s : State) : (resetCore s).domBits = (State.resetWith s.cfg).domBits := rfl
@[simp] theorem resetCore_regs (s : State) : (resetCore s).regs = (State.resetWith s.cfg).regs := rfl
@[simp] theorem resetCore_hc (s : State) : (resetCore s).hc = (State.resetWith s.cfg).hc := rfl
@[simp] theorem resetCore_hi (s : State) : (resetCore s).hi = (State.resetWith s.cfg).hi := rfl
@[simp] theorem resetCore_mem (s : State) : (resetCore s).mem = (State.resetWith s.cfg).mem := rfl
@[simp] theorem resetCore_seq (s : State) : (resetCore s).seq = (State.resetWith s.cfg).seq := rfl
@[simp] theorem resetCore_tmp (s : State) : (resetCore s).tmp = (State.resetWith s.cfg).tmp := rfl
@[simp] theorem resetCore_rng (s : State) : (resetCore s).rng = (State.resetWith s.cfg).rng := rfl
@[simp] theorem resetCore_agenda (s : State) : (resetCore s).agenda = s.agenda := rfl
@[simp] theorem resetCore_reply (s : State) : (resetCore s).reply = s.reply := rfl

/-! `enterRun` -/

@[simp] theorem enterRun_cfg (i : Instr) (s : State) : (enterRun i s).cfg = s.cfg := rfl
@[simp] theorem enterRun_cmd (i : Instr) (s : State) : (enterRun i s).cmd = s.cmd := rfl
@[simp] theorem enterRun_cur (i : Instr) (s : State) : (enterRun i s).cur = s.cur := rfl
@[simp] theorem enterRun_done (i : Instr) (s : State) : (enterRun i s).done = s.done := rfl
@[simp] theorem enterRun_err (i : Instr) (s : State) : (enterRun i s).err = s.err := rfl
@[simp] theorem enterRun_result (i : Instr) (s : State) : (enterRun i s).result = s.result := rfl
@[simp] theorem enterRun_domok (i : Instr) (s : State) : (enterRun i s).domok = s.domok := rfl
@[simp] theorem enterRun_errcode (i : Instr) (s : State) : (enterRun i s).errcode = s.errcode := rfl
@[simp] theorem enterRun_errlog (i : Instr) (s : State) : (enterRun i s).errlog = s.errlog := rfl
@[simp] theorem enterRun_ie (i : Instr) (s : State) : (enterRun i s).ie = s.ie := rfl
@[simp] theorem enterRun_mlen (i : Instr) (s : State) : (enterRun i s).mlen = s.mlen := rfl
@[simp] theorem enterRun_idlen (i : Instr) (s : State) : (enterRun i s).idlen = s.idlen := rfl
@[simp] theorem enterRun_klen (i : Instr) (s : State) : (enterRun i s).klen = s.klen := rfl
@[simp] theorem enterRun_olen (i : Instr) (s : State) : (enterRun i s).olen = s.olen := rfl
@[simp] theorem enterRun_ctxsel (i : Instr) (s : State) : (enterRun i s).ctxsel = s.ctxsel := rfl
@[simp] theorem enterRun_domBits (i : Instr) (s : State) : (enterRun i s).domBits = s.domBits := rfl
@[simp] theorem enterRun_regs (i : Instr) (s : State) : (enterRun i s).regs = s.regs := rfl
@[simp] theorem enterRun_hc (i : Instr) (s : State) : (enterRun i s).hc = s.hc := rfl
@[simp] theorem enterRun_hi (i : Instr) (s : State) : (enterRun i s).hi = s.hi := rfl
@[simp] theorem enterRun_mem (i : Instr) (s : State) : (enterRun i s).mem = s.mem := rfl
@[simp] theorem enterRun_seq (i : Instr) (s : State) : (enterRun i s).seq = (path i).headD .finish := rfl
@[simp] theorem enterRun_tmp (i : Instr) (s : State) : (enterRun i s).tmp = s.tmp := rfl
@[simp] theorem enterRun_rng (i : Instr) (s : State) : (enterRun i s).rng = s.rng := rfl
@[simp] theorem enterRun_agenda (i : Instr) (s : State) : (enterRun i s).agenda = s.agenda := rfl
@[simp] theorem enterRun_reply (i : Instr) (s : State) : (enterRun i s).reply = s.reply := rfl

end Sys2Proof.Machine
end

