-- ==== Sys2Proof/Laws/Registers.lean ====
section
/-! SUPPORT. The laws of the operand registers: what a register write changes and what it leaves. -/

namespace Sys2Proof.Machine

@[simp] theorem OperandRegs.get_put_same (g : OperandRegs) (r : OpReg) (v : Nat) : (g.put r v).get r = v := by
  cases r <;> rfl

theorem OperandRegs.get_put_ne (g : OperandRegs) {r r' : OpReg} (v : Nat) (h : r' ≠ r) : (g.put r v).get r' = g.get r' := by
  cases r <;> cases r' <;> first | rfl | exact absurd rfl h

theorem OperandRegs.ext_get {g g' : OperandRegs} (h : ∀ r, g.get r = g'.get r) : g = g' := by
  cases g
  cases g'
  simp only [OperandRegs.mk.injEq]
  exact ⟨h .domP, h .domA, h .domB, h .domGx, h .domGy, h .domN, h .keyD, h .keyQx, h .keyQy, h .sigR, h .sigS, h .kdfZx,
    h .kdfZy⟩

theorem OperandRegs.get_put (g : OperandRegs) (r r' : OpReg) (v : Nat) :
    (g.put r v).get r' = if r' = r then v else g.get r' := by
  split
  · rename_i h; rw [h, OperandRegs.get_put_same]
  · rename_i h; exact OperandRegs.get_put_ne g v h

theorem clearRegs_eq (ds : List OpReg) (s : State) : clearRegs ds s = { s with regs := (clearRegs ds s).regs } := by
  induction ds generalizing s with
  | nil => rfl
  | cons r rest ih => rw [clearRegs, ih]; rfl

/-- Clearing registers sets those to 0 and leaves every other register (60 R256 step 1). -/
theorem clearRegs_get (ds : List OpReg) (s : State) (r : OpReg) :
    (clearRegs ds s).regs.get r = if r ∈ ds then 0 else s.regs.get r := by
  induction ds generalizing s with
  | nil => rfl
  | cons d rest ih =>
    rw [clearRegs, ih, setReg_regs, OperandRegs.get_put]
    by_cases h : r ∈ rest
    · simp [h]
    · by_cases h' : r = d <;> simp [h, h']

/-- What the error entry leaves: the state it started from, ended, with the error recorded and, past `CHECK`, the
destination registers cleared (60 R256). -/
theorem raise_eq (ds : List OpReg) (k : ErrKind) (s : State) :
    raise ds k s =
      { s with
        regs := if s.seq = .check then s.regs else (clearRegs ds s).regs
        errcode := k.code, err := true, errlog := s.errlog ||| bit true k.code.toNat
        tmp := Temps.cleared, hi := HashCtx.init, done := true, seq := .idle } := by
  unfold raise
  split
  · rfl
  · rw [clearRegs_eq]; rfl

/-! `raise` -/

@[simp] theorem raise_cfg (ds : List OpReg) (k : ErrKind) (s : State) :
    (raise ds k s).cfg = s.cfg := by rw [raise_eq]
@[simp] theorem raise_cmd (ds : List OpReg) (k : ErrKind) (s : State) :
    (raise ds k s).cmd = s.cmd := by rw [raise_eq]
@[simp] theorem raise_cur (ds : List OpReg) (k : ErrKind) (s : State) :
    (raise ds k s).cur = s.cur := by rw [raise_eq]
@[simp] theorem raise_done (ds : List OpReg) (k : ErrKind) (s : State) :
    (raise ds k s).done = true := by rw [raise_eq]
@[simp] theorem raise_err (ds : List OpReg) (k : ErrKind) (s : State) :
    (raise ds k s).err = true := by rw [raise_eq]
@[simp] theorem raise_result (ds : List OpReg) (k : ErrKind) (s : State) :
    (raise ds k s).result = s.result := by rw [raise_eq]
@[simp] theorem raise_domok (ds : List OpReg) (k : ErrKind) (s : State) :
    (raise ds k s).domok = s.domok := by rw [raise_eq]
@[simp] theorem raise_errcode (ds : List OpReg) (k : ErrKind) (s : State) :
    (raise ds k s).errcode = k.code := by rw [raise_eq]
@[simp] theorem raise_errlog (ds : List OpReg) (k : ErrKind) (s : State) :
    (raise ds k s).errlog = s.errlog ||| bit true k.code.toNat := by rw [raise_eq]
@[simp] theorem raise_ie (ds : List OpReg) (k : ErrKind) (s : State) :
    (raise ds k s).ie = s.ie := by rw [raise_eq]
@[simp] theorem raise_mlen (ds : List OpReg) (k : ErrKind) (s : State) :
    (raise ds k s).mlen = s.mlen := by rw [raise_eq]
@[simp] theorem raise_idlen (ds : List OpReg) (k : ErrKind) (s : State) :
    (raise ds k s).idlen = s.idlen := by rw [raise_eq]
@[simp] theorem raise_klen (ds : List OpReg) (k : ErrKind) (s : State) :
    (raise ds k s).klen = s.klen := by rw [raise_eq]
@[simp] theorem raise_olen (ds : List OpReg) (k : ErrKind) (s : State) :
    (raise ds k s).olen = s.olen := by rw [raise_eq]
@[simp] theorem raise_ctxsel (ds : List OpReg) (k : ErrKind) (s : State) :
    (raise ds k s).ctxsel = s.ctxsel := by rw [raise_eq]
@[simp] theorem raise_domBits (ds : List OpReg) (k : ErrKind) (s : State) :
    (raise ds k s).domBits = s.domBits := by rw [raise_eq]
@[simp] theorem raise_regs (ds : List OpReg) (k : ErrKind) (s : State) :
    (raise ds k s).regs = if s.seq = .check then s.regs else (clearRegs ds s).regs := by rw [raise_eq]
@[simp] theorem raise_hc (ds : List OpReg) (k : ErrKind) (s : State) :
    (raise ds k s).hc = s.hc := by rw [raise_eq]
@[simp] theorem raise_hi (ds : List OpReg) (k : ErrKind) (s : State) :
    (raise ds k s).hi = HashCtx.init := by rw [raise_eq]
@[simp] theorem raise_mem (ds : List OpReg) (k : ErrKind) (s : State) :
    (raise ds k s).mem = s.mem := by rw [raise_eq]
@[simp] theorem raise_seq (ds : List OpReg) (k : ErrKind) (s : State) :
    (raise ds k s).seq = .idle := by rw [raise_eq]
@[simp] theorem raise_tmp (ds : List OpReg) (k : ErrKind) (s : State) :
    (raise ds k s).tmp = Temps.cleared := by rw [raise_eq]
@[simp] theorem raise_rng (ds : List OpReg) (k : ErrKind) (s : State) :
    (raise ds k s).rng = s.rng := by rw [raise_eq]
@[simp] theorem raise_agenda (ds : List OpReg) (k : ErrKind) (s : State) :
    (raise ds k s).agenda = s.agenda := by rw [raise_eq]
@[simp] theorem raise_reply (ds : List OpReg) (k : ErrKind) (s : State) :
    (raise ds k s).reply = s.reply := by rw [raise_eq]

end Sys2Proof.Machine
end

