-- ==== Sys2Proof/Laws/Bus.lean ====
section
/-! SUPPORT. The laws of the window: which place stands at which offset, what a write to a place can do, and the words of an
operand register. -/

namespace Sys2Proof.Machine

theorem busy_iff (s : State) : s.busy = true ↔ s.seq ≠ .idle := by simp [State.busy]

theorem busy_eq_false_iff (s : State) : s.busy = false ↔ s.seq = .idle := by simp [State.busy]

/-- The registers below 0x100, by offset (10 R21). -/
theorem place_low (c : Config.Params) {off : Nat} (h : off < 0x100) (h4 : off % 4 = 0) :
    place c off =
      if off = 0x00 then .id else if off = 0x04 then .cmd else if off = 0x08 then .status
      else if off = 0x0C then .errcode else if off = 0x10 then .errlog else if off = 0x14 then .ctrl
      else if off = 0x18 then .mlen else if off = 0x1C then .idlen else if off = 0x20 then .klen
      else if off = 0x24 then .olen else if off = 0x28 then .ctxsel else if off = 0x2C then .hbufLen
      else if off = 0x30 then .hcntHi else if off = 0x34 then .hcntLo else if off = 0xA0 then .domBits
      else if 0x40 ≤ off ∧ off < 0x60 then .hv ((off - 0x40) / 4)
      else if 0x60 ≤ off ∧ off < 0xA0 then .hbuf ((off - 0x60) / 4) else .reserved := by
  obtain ⟨k, rfl⟩ : ∃ k, off = 4 * k := ⟨off / 4, by omega⟩
  have hk : k < 64 := by omega
  unfold place
  rw [if_pos (by omega)]
  unfold regPlace
  rw [if_pos h]
  clear h h4
  revert k
  decide

/-- Whether a place may stand at word k below 0x100. -/
def lowKind (k : Nat) : Place → Bool
  | .opWord _ _ => false
  | .bufWord _ _ => false
  | .ctrl => k = 5
  | .cmd => k = 1
  | .domBits => k = 40
  | _ => true

/-- No operand word and no buffer word stands below 0x100, and `CTRL`, `CMD` and `DOM_BITS` stand at one offset each. -/
theorem place_low_kind (c : Config.Params) {off : Nat} (h : off < 0x100) (h4 : off % 4 = 0) :
    (∀ r i, place c off ≠ .opWord r i) ∧ (∀ b a, place c off ≠ .bufWord b a)
      ∧ (place c off = .ctrl → off = 0x14) ∧ (place c off = .cmd → off = 0x04) ∧ (place c off = .domBits → off = 0xA0) := by
  have key : lowKind (off / 4) (place c off) = true := by
    rw [place_low c h h4]
    obtain ⟨k, rfl⟩ : ∃ k, off = 4 * k := ⟨off / 4, by omega⟩
    have hk : k < 64 := by omega
    rw [show 4 * k / 4 = k by omega]
    clear h h4
    revert k
    decide
  refine ⟨fun r i hp => ?_, fun b a hp => ?_, fun hp => ?_, fun hp => ?_, fun hp => ?_⟩ <;> rw [hp] at key <;>
    simp [lowKind] at key
  all_goals omega

theorem OpReg.all_getElem? (k : Nat) (r : OpReg) : OpReg.all[k]? = some r ↔ k = r.slot := by
  constructor
  · intro h
    have hk : k < 13 := by
      by_contra hc
      rw [List.getElem?_eq_none (by simp [OpReg.all]; omega)] at h
      cases h
    interval_cases k <;> simp [OpReg.all] at h <;> subst h <;> rfl
  · rintro rfl
    cases r <;> rfl

theorem OpReg.slot_lt (r : OpReg) : r.slot < 13 := by cases r <;> decide

/-- Word i of an operand register stands at 0x100 + 0x80 k + 4 i (10 R36). -/
theorem place_opWord (c : Config.Params) (r : OpReg) {i : Nat} (hi : i < c.nw) (h32 : i < 32) :
    place c (0x100 + 0x80 * r.slot + 4 * i) = .opWord r i := by
  have hs := r.slot_lt
  unfold place
  rw [if_pos (by omega)]
  unfold regPlace
  rw [if_neg (by omega), show (0x100 + 0x80 * r.slot + 4 * i - 0x100) / 0x80 = r.slot by omega,
    (OpReg.all_getElem? _ _).2 rfl]
  dsimp only
  rw [show (0x100 + 0x80 * r.slot + 4 * i - 0x100) % 0x80 / 4 = i by omega, if_pos hi]

/-- Where a word of an operand register stands. -/
theorem place_eq_opWord {c : Config.Params} {off : Nat} {r : OpReg} {i : Nat} (h4 : off % 4 = 0)
    (h : place c off = .opWord r i) : i < c.nw ∧ i < 32 ∧ off = 0x100 + 0x80 * r.slot + 4 * i := by
  by_cases hl : off < 0x100
  · exact absurd h ((place_low_kind c hl h4).1 r i)
  · unfold place at h
    split at h
    · unfold regPlace at h
      rw [if_neg hl] at h
      split at h
      · cases h
      · rename_i r' hr
        split at h
        · cases h
          rw [OpReg.all_getElem?] at hr
          refine ⟨by assumption, by omega, by omega⟩
        · cases h
    · repeat' split at h
      all_goals first | (unfold bufPlace at h; split at h <;> cases h) | cases h

/-- A register of the window below 0x100 stands at its own offset only. -/
theorem place_high_ne {c : Config.Params} {off : Nat} (h : 0x100 ≤ off) :
    (∃ r i, place c off = .opWord r i) ∨ (∃ b a, place c off = .bufWord b a) ∨ place c off = .reserved := by
  unfold place
  split
  · unfold regPlace
    rw [if_neg (by omega)]
    split
    · exact .inr (.inr rfl)
    · split
      · exact .inl ⟨_, _, rfl⟩
      · exact .inr (.inr rfl)
  · repeat' split
    all_goals first
      | (unfold bufPlace; split
         · exact .inr (.inl ⟨_, _, rfl⟩)
         · exact .inr (.inr rfl))
      | exact .inr (.inr rfl)

/-- The offset of a place that is neither a buffer word nor an operand word nor reserved is below 0x100. -/
theorem lt_of_place {c : Config.Params} {off : Nat} {p : Place} (h : place c off = p) (h1 : ∀ r i, p ≠ .opWord r i)
    (h2 : ∀ b a, p ≠ .bufWord b a) (h3 : p ≠ .reserved) : off < 0x100 := by
  by_contra hc
  rcases place_high_ne (c := c) (Nat.le_of_not_lt hc) with ⟨r, i, hp⟩ | ⟨b, a, hp⟩ | hp
  · exact h1 r i (h.symm.trans hp)
  · exact h2 b a (h.symm.trans hp)
  · exact h3 (h.symm.trans hp)

/-- `CTRL` stands at 0x14 only (10 R21). -/
theorem place_eq_ctrl_iff (c : Config.Params) {off : Nat} (h4 : off % 4 = 0) : place c off = .ctrl ↔ off = 0x14 := by
  constructor
  · intro h
    exact (place_low_kind c (lt_of_place h (by simp) (by simp) (by simp)) h4).2.2.1 h
  · rintro rfl; rfl

/-- `CMD` stands at 0x04 only (10 R21). -/
theorem place_eq_cmd_iff (c : Config.Params) {off : Nat} (h4 : off % 4 = 0) : place c off = .cmd ↔ off = 0x04 := by
  constructor
  · intro h
    exact (place_low_kind c (lt_of_place h (by simp) (by simp) (by simp)) h4).2.2.2.1 h
  · rintro rfl; rfl

/-- `DOM_BITS` stands at 0xA0 only (10 R21). -/
theorem place_eq_domBits_iff (c : Config.Params) {off : Nat} (h4 : off % 4 = 0) : place c off = .domBits ↔ off = 0xA0 := by
  constructor
  · intro h
    exact (place_low_kind c (lt_of_place h (by simp) (by simp) (by simp)) h4).2.2.2.2 h
  · rintro rfl; rfl

/-- What `Params.sized` says, as propositions (00 R8). -/
theorem Config.Params.sized_spec {c : Config.Params} (h : c.sized = true) :
    c.opBits % 32 = 0 ∧ 256 ≤ c.opBits ∧ c.opBits ≤ 1024 ∧ 1 ≤ c.nctx ∧ c.nctx ≤ 16
      ∧ c.idCap % 4 = 0 ∧ 4 ≤ c.idCap ∧ c.idCap ≤ 8192
      ∧ c.msgCap % 4 = 0 ∧ 64 ≤ c.msgCap ∧ c.msgCap ≤ 2 ^ 20
      ∧ c.outCap % 4 = 0 ∧ 64 ≤ c.outCap ∧ c.outCap ≤ 2 ^ 20
      ∧ c.defaultDomain.bits ≤ c.opBits
      ∧ c.defaultDomain.p < 2 ^ c.opBits ∧ c.defaultDomain.a < 2 ^ c.opBits ∧ c.defaultDomain.b < 2 ^ c.opBits
      ∧ c.defaultDomain.gx < 2 ^ c.opBits ∧ c.defaultDomain.gy < 2 ^ c.opBits ∧ c.defaultDomain.n < 2 ^ c.opBits
      ∧ c.retryLimit ≠ some 0 := by
  simpa [Config.Params.sized, and_assoc] using h

/-- The capacities fit their regions (00 R8, 20 R61). -/
theorem cap_le (c : Config.Params) (h : c.sized = true) (b : Buf) :
    b.cap c % 4 = 0 ∧ b.cap c ≤ 2 ^ 20 ∧ (b = .id → b.cap c ≤ 8192) := by
  have := Config.Params.sized_spec h
  cases b <;> simp [Buf.cap] <;> omega

/-- A buffer byte with index a stands at base + a (20 R61, R62). -/
theorem place_buf {c : Config.Params} (hc : c.sized = true) (b : Buf) {a : Nat} (ha : a < b.cap c) :
    place c (b.base + a) = .bufWord b a := by
  have := cap_le c hc b
  have hb : bufPlace c b (b.base + a) = .bufWord b a := by simp [bufPlace, ha]
  unfold place
  cases b
  · rw [show Buf.id.base = 0x1000 from rfl] at *
    have := this.2.2 rfl
    rw [if_neg (by omega), if_pos (by omega), hb]
  · rw [show Buf.msg.base = 0x100000 from rfl] at *
    rw [if_neg (by omega), if_neg (by omega), if_pos (by omega), hb]
  · rw [show Buf.out.base = 0x200000 from rfl] at *
    rw [if_neg (by omega), if_neg (by omega), if_neg (by omega), if_pos (by rw [windowSize]; omega), hb]

/-- Where a word of a buffer stands. -/
theorem place_eq_bufWord {c : Config.Params} {off : Nat} {b : Buf} {a : Nat} (h4 : off % 4 = 0)
    (h : place c off = .bufWord b a) : a < b.cap c ∧ off = b.base + a := by
  by_cases hl : off < 0x100
  · exact absurd h ((place_low_kind c hl h4).2.1 b a)
  · unfold place at h
    split at h
    · unfold regPlace at h
      rw [if_neg hl] at h
      split at h
      · cases h
      · split at h <;> cases h
    · split at h
      · unfold bufPlace at h
        split at h
        · cases h
          exact ⟨by assumption, by simp only [Buf.base]; omega⟩
        · cases h
      · split at h
        · unfold bufPlace at h
          split at h
          · cases h
            exact ⟨by assumption, by simp only [Buf.base]; omega⟩
          · cases h
        · split at h
          · unfold bufPlace at h
            split at h
            · cases h
              exact ⟨by assumption, by simp only [Buf.base]; omega⟩
            · cases h
          · cases h

/-- What a legal write to a place other than `CTRL` can do while the CORE is idle: issue a command, or store a value. -/
theorem placeWrite_cases (v : Word) (s : State) (p : Place) :
    p = .cmd ∧ placeWrite v s p = issue v s
      ∨ placeWrite v s p = { s with
          mlen := (placeWrite v s p).mlen, idlen := (placeWrite v s p).idlen, klen := (placeWrite v s p).klen
          ctxsel := (placeWrite v s p).ctxsel, domBits := (placeWrite v s p).domBits, regs := (placeWrite v s p).regs
          mem := (placeWrite v s p).mem, domok := (placeWrite v s p).domok } := by
  cases p with
  | cmd => exact .inl ⟨rfl, rfl⟩
  | bufWord b a => cases b <;> exact .inr rfl
  | opWord r i =>
    refine .inr ?_
    simp only [placeWrite, opWordWrite]
    split <;> rfl
  | _ => exact .inr rfl

/-! The words of an operand register. -/

/-- The word replaced reads back (10 R36). -/
theorem regWord_withRegWord_same (nw v i : Nat) (w : Word) : regWord nw (withRegWord nw v i w) i = w := by
  unfold regWord withRegWord
  dsimp only
  generalize 32 * (nw - 1 - i) = p
  have hp : 0 < 2 ^ p := Nat.pow_pos (by norm_num)
  have hm : v % 2 ^ p < 2 ^ p := Nat.mod_lt _ hp
  apply BitVec.eq_of_toNat_eq
  rw [BitVec.toNat_ofNat]
  have : v / (2 ^ p * 2 ^ 32) * (2 ^ p * 2 ^ 32) + w.toNat * 2 ^ p + v % 2 ^ p
      = v % 2 ^ p + 2 ^ p * (v / (2 ^ p * 2 ^ 32) * 2 ^ 32 + w.toNat) := by ring
  rw [this, Nat.add_mul_div_left _ _ hp, Nat.div_eq_of_lt hm, Nat.zero_add, Nat.add_comm, Nat.add_mul_mod_self_right]
  exact Nat.mod_eq_of_lt w.isLt

/-- Every other word is kept (10 R36). -/
theorem regWord_withRegWord_ne {nw v i j : Nat} (w : Word) (hi : i < nw) (hj : j < nw) (h : j ≠ i) :
    regWord nw (withRegWord nw v i w) j = regWord nw v j := by
  unfold regWord withRegWord
  dsimp only
  have hw := w.isLt
  apply BitVec.eq_of_toNat_eq
  rw [BitVec.toNat_ofNat, BitVec.toNat_ofNat]
  rcases Nat.lt_or_gt_of_ne h with hlt | hgt
  · -- a more significant word
    obtain ⟨d, hd⟩ : ∃ d, nw - 1 - j = (nw - 1 - i) + 1 + d := ⟨nw - 1 - j - (nw - 1 - i) - 1, by omega⟩
    rw [hd, show 32 * (nw - 1 - i + 1 + d) = 32 * (nw - 1 - i) + 32 + 32 * d by ring, pow_add, pow_add]
    generalize 32 * (nw - 1 - i) = p
    have hp : 0 < 2 ^ p := Nat.pow_pos (by norm_num)
    have hm : v % 2 ^ p < 2 ^ p := Nat.mod_lt _ hp
    rw [← Nat.div_div_eq_div_mul, ← Nat.div_div_eq_div_mul v (2 ^ p * 2 ^ 32)]
    congr 2
    have hb : w.toNat * 2 ^ p + v % 2 ^ p < 2 ^ p * 2 ^ 32 := by nlinarith
    rw [Nat.add_assoc, Nat.add_comm, Nat.add_mul_div_right _ _ (by positivity), Nat.div_eq_of_lt hb, Nat.zero_add]
  · -- a less significant word
    obtain ⟨d, hd⟩ : ∃ d, nw - 1 - i = (nw - 1 - j) + 1 + d := ⟨nw - 1 - i - (nw - 1 - j) - 1, by omega⟩
    rw [hd, show 32 * (nw - 1 - j + 1 + d) = 32 * (nw - 1 - j) + 32 + 32 * d by ring]
    generalize 32 * (nw - 1 - j) = q
    have hq : 0 < 2 ^ q := Nat.pow_pos (by norm_num)
    have hP : 2 ^ (q + 32 + 32 * d) = 2 ^ q * (2 ^ 32 * 2 ^ (32 * d)) := by rw [pow_add, pow_add, mul_assoc]
    have key : ∀ a b, (a * (2 ^ (q + 32 + 32 * d)) + b) / 2 ^ q % 2 ^ 32 = b / 2 ^ q % 2 ^ 32 := by
      intro a b
      rw [hP, show a * (2 ^ q * (2 ^ 32 * 2 ^ (32 * d))) + b = b + 2 ^ q * (a * 2 ^ (32 * d) * 2 ^ 32) by ring,
        Nat.add_mul_div_left _ _ hq, Nat.add_mul_mod_self_right]
    have e1 : v / (2 ^ (q + 32 + 32 * d) * 2 ^ 32) * (2 ^ (q + 32 + 32 * d) * 2 ^ 32) + w.toNat * 2 ^ (q + 32 + 32 * d)
        + v % 2 ^ (q + 32 + 32 * d)
        = (v / (2 ^ (q + 32 + 32 * d) * 2 ^ 32) * 2 ^ 32 + w.toNat) * 2 ^ (q + 32 + 32 * d)
          + v % 2 ^ (q + 32 + 32 * d) := by ring
    rw [e1, key]
    conv_rhs => rw [← Nat.div_add_mod v (2 ^ (q + 32 + 32 * d)), mul_comm, key]

/-- Replacing a word keeps a register within its width (10 R36). -/
theorem withRegWord_lt {nw v i : Nat} (w : Word) (hi : i < nw) (hv : v < 2 ^ (32 * nw)) :
    withRegWord nw v i w < 2 ^ (32 * nw) := by
  unfold withRegWord
  dsimp only
  obtain ⟨k, hk⟩ : ∃ k, nw = (nw - 1 - i) + 1 + k := ⟨i, by omega⟩
  have hw := w.isLt
  have h32 : 32 * nw = 32 * (nw - 1 - i) + 32 + 32 * k := by omega
  rw [h32] at hv ⊢
  generalize 32 * (nw - 1 - i) = p at *
  have hp : 0 < 2 ^ p := Nat.pow_pos (by norm_num)
  have hm : v % 2 ^ p < 2 ^ p := Nat.mod_lt _ hp
  rw [pow_add, pow_add] at hv ⊢
  have hd : v / (2 ^ p * 2 ^ 32) < 2 ^ (32 * k) := Nat.div_lt_of_lt_mul hv
  have hb : w.toNat * 2 ^ p + v % 2 ^ p < 2 ^ p * 2 ^ 32 := by nlinarith
  calc v / (2 ^ p * 2 ^ 32) * (2 ^ p * 2 ^ 32) + w.toNat * 2 ^ p + v % 2 ^ p
      < v / (2 ^ p * 2 ^ 32) * (2 ^ p * 2 ^ 32) + 2 ^ p * 2 ^ 32 := by omega
    _ = (v / (2 ^ p * 2 ^ 32) + 1) * (2 ^ p * 2 ^ 32) := by ring
    _ ≤ 2 ^ (32 * k) * (2 ^ p * 2 ^ 32) := Nat.mul_le_mul_right _ hd
    _ = 2 ^ p * 2 ^ 32 * 2 ^ (32 * k) := by ring

end Sys2Proof.Machine
end

