-- ==== Sys2Proof/Laws/Group.lean ====
section
/-! SUPPORT. The arithmetic under the GA port: trial division is primality, and `inv` is the modular inverse where there
is one. -/

namespace Sys2Proof.Machine

theorem noDivisorBelow_iff (n k : Nat) : noDivisorBelow n k = true ↔ ∀ m, 2 ≤ m → m < k → ¬ m ∣ n := by
  induction k with
  | zero => simp [noDivisorBelow]
  | succ k ih =>
    simp only [noDivisorBelow, Bool.and_eq_true, Bool.or_eq_true, decide_eq_true_eq, ih]
    constructor
    · rintro ⟨h1, h2⟩ m hm hk
      rcases Nat.lt_succ_iff_lt_or_eq.1 hk with h | rfl
      · exact h2 m hm h
      · rcases h1 with h1 | h1
        · omega
        · rwa [Nat.dvd_iff_mod_eq_zero]
    · intro h
      refine ⟨?_, fun m hm hk => h m hm (by omega)⟩
      by_cases h2 : k < 2
      · exact .inl h2
      · refine .inr ?_
        have := h k (by omega) (by omega)
        rwa [Nat.dvd_iff_mod_eq_zero] at this

/-- Trial division decides primality (41 R138; log 16). -/
theorem isPrime_iff (n : Nat) : isPrime n = true ↔ n.Prime := by
  unfold isPrime
  rw [Bool.and_eq_true, decide_eq_true_eq, noDivisorBelow_iff, Nat.prime_def_lt']

theorem cast_modN (a : Int) (n : Nat) (h : 0 < n) : ((modN a n : Nat) : Int) = a % n := by
  unfold modN
  exact Int.toNat_of_nonneg (Int.emod_nonneg _ (by omega))

/-- `modN` is congruent to its argument. -/
theorem zmod_modN (a : Int) (n : Nat) (h : 0 < n) : ((modN a n : Nat) : ZMod n) = (a : ZMod n) := by
  have := cast_modN a n h
  rw [← Int.cast_natCast, this]
  exact (ZMod.intCast_mod a n)

/-- Euclid's algorithm keeps `t * a = r (mod n)`, and ends at the greatest common divisor. -/
theorem euclid_spec (a n : Nat) (fuel : Nat) (r0 r1 : Nat) (t0 t1 : Int) (hf : r1 < fuel)
    (h0 : ((t0 : ZMod n)) * a = r0) (h1 : ((t1 : ZMod n)) * a = r1) :
    ((euclid fuel r0 t0 r1 t1 : ZMod n)) * a = (Nat.gcd r0 r1 : Nat) := by
  induction fuel generalizing r0 r1 t0 t1 with
  | zero => omega
  | succ fuel ih =>
    unfold euclid
    split
    · rename_i h
      rw [h, Nat.gcd_zero_right, h0]
    · rename_i h
      have hlt : r0 % r1 < r1 := Nat.mod_lt _ (Nat.pos_of_ne_zero h)
      rw [ih r1 (r0 % r1) t1 _ (by omega) h1 ?_]
      · rw [Nat.gcd_comm, ← Nat.gcd_rec, Nat.gcd_comm]
      · have hdm : (r0 : ZMod n) = (r1 : ZMod n) * ((r0 / r1 : Nat) : ZMod n) + ((r0 % r1 : Nat) : ZMod n) := by
          exact_mod_cast congrArg (Nat.cast (R := ZMod n)) (Nat.div_add_mod r0 r1).symm
        have : ((r0 % r1 : Nat) : ZMod n) = r0 - r1 * ((r0 / r1 : Nat) : ZMod n) := by rw [hdm]; ring
        rw [this, ← h0, ← h1, Int.cast_sub, Int.cast_mul, Int.cast_natCast]
        ring

/-- `inv(a, n)` is the inverse of a modulo n (00 R11). -/
theorem inv_spec {a n : Nat} (hn : 0 < n) (h : Nat.Coprime a n) : ((inv a n : Nat) : ZMod n) * a = 1 := by
  unfold inv
  rw [zmod_modN _ _ hn]
  have hlt : a % n < n + 1 := by have := Nat.mod_lt a hn; omega
  have := euclid_spec a n (n + 1) n (a % n) 0 1 hlt (by simp) (by simp)
  rw [this, Nat.gcd_comm, ← Nat.gcd_rec, Nat.gcd_comm, h]
  simp

theorem inv_lt {a n : Nat} (hn : 0 < n) : inv a n < n := modN_lt _ hn

/-- `inv(a, n)` is the x of 00 R11: in [1, n-1], with `(a * x) mod n = 1`. -/
theorem inv_mul_mod {a n : Nat} (hn : 1 < n) (h : Nat.Coprime a n) : (a * inv a n) % n = 1 := by
  have h1 := inv_spec (by omega) h
  rw [← Nat.cast_mul, ← Nat.cast_one, ZMod.natCast_eq_natCast_iff, Nat.ModEq, Nat.mod_eq_of_lt hn] at h1
  rwa [Nat.mul_comm]

end Sys2Proof.Machine
end

