-- ==== Sys2Proof/Laws/Curve.lean ====
section
/-! SUPPORT. The group law of 41 R133 is the addition of the curve's points: Mathlib's Weierstrass curves in affine
coordinates. A point of the port represents a point of the curve; `(0, 0)` represents the neutral element (41 R134), so the
correspondence needs that the finite point (0, 0) does not come up, as when B is not 0 modulo P. -/

namespace Sys2Proof.Machine

open WeierstrassCurve.Affine

/-- The curve of a domain, over the integers mod P (41 R132). -/
def curveOf (d : Domain) : WeierstrassCurve (ZMod d.p) := ⟨0, 0, 0, (d.a : ZMod d.p), (d.b : ZMod d.p)⟩

/-- The domain part of the GA contract, as propositions (41 R132). -/
theorem domainInContract_iff (d : Domain) :
    domainInContract d = true ↔ 3 < d.p ∧ (4 * d.a ^ 3 + 27 * d.b ^ 2) % d.p ≠ 0 ∧ d.p.Prime := by
  simp [domainInContract, isPrime_iff, and_assoc]

theorem onCurve_iff (d : Domain) (q : Point) :
    onCurve d q = true ↔ q.x < d.p ∧ q.y < d.p ∧
      ((q.y : ZMod d.p)) ^ 2 = (q.x : ZMod d.p) ^ 3 + (d.a : ZMod d.p) * q.x + d.b := by
  have : ((q.y : ZMod d.p)) ^ 2 = (q.x : ZMod d.p) ^ 3 + (d.a : ZMod d.p) * q.x + d.b ↔
      ((q.y * q.y : Nat) : ZMod d.p) = ((q.x * q.x * q.x + d.a * q.x + d.b : Nat) : ZMod d.p) := by
    push_cast
    constructor <;> intro h <;> linear_combination h
  rw [this, ZMod.natCast_eq_natCast_iff, Nat.ModEq]
  simp [onCurve, and_assoc]

theorem equation_curveOf (d : Domain) (x y : ZMod d.p) :
    (curveOf d).toAffine.Equation x y ↔ y ^ 2 = x ^ 3 + (d.a : ZMod d.p) * x + d.b := by
  rw [WeierstrassCurve.Affine.equation_iff]
  simp [curveOf]

theorem curveOf_disc_ne_zero {d : Domain} (h : domainInContract d = true) : (curveOf d).Δ ≠ 0 := by
  obtain ⟨h3, hns, hp⟩ := (domainInContract_iff d).1 h
  have : Fact d.p.Prime := ⟨hp⟩
  have h16 : (16 : ZMod d.p) ≠ 0 := by
    have : ((16 : Nat) : ZMod d.p) ≠ 0 := by
      rw [Ne, ZMod.natCast_eq_zero_iff]
      intro hd
      have := (Nat.Prime.dvd_of_dvd_pow hp (show d.p ∣ 2 ^ 4 from hd))
      have := Nat.le_of_dvd (by norm_num) this
      omega
    exact_mod_cast this
  have hd : ((4 * d.a ^ 3 + 27 * d.b ^ 2 : Nat) : ZMod d.p) ≠ 0 := by
    rw [Ne, ZMod.natCast_eq_zero_iff, Nat.dvd_iff_mod_eq_zero]
    exact hns
  have : (curveOf d).Δ = -(16 * ((4 * d.a ^ 3 + 27 * d.b ^ 2 : Nat) : ZMod d.p)) := by
    simp only [WeierstrassCurve.Δ, WeierstrassCurve.b₂, WeierstrassCurve.b₄, WeierstrassCurve.b₆, WeierstrassCurve.b₈,
      curveOf]
    push_cast
    ring
  rw [this, neg_ne_zero]
  exact mul_ne_zero h16 hd

/-- `q` represents the point `P` of the curve. -/
inductive Represents (d : Domain) : Point → (curveOf d).toAffine.Point → Prop
  | inf : Represents d Point.inf 0
  | finite (q : Point) (hx : q.x < d.p) (hy : q.y < d.p) (hq : q ≠ Point.inf)
      (h : (curveOf d).toAffine.Nonsingular (q.x : ZMod d.p) (q.y : ZMod d.p)) :
      Represents d q (.some (q.x : ZMod d.p) (q.y : ZMod d.p) h)

theorem Represents.of_eq {d : Domain} {q : Point} {x y : ZMod d.p} (hx : q.x < d.p) (hy : q.y < d.p) (hq : q ≠ Point.inf)
    (h : (curveOf d).toAffine.Nonsingular x y) (ex : (q.x : ZMod d.p) = x) (ey : (q.y : ZMod d.p) = y) :
    Represents d q (.some x y h) := by
  subst ex ey
  exact .finite q hx hy hq h

theorem natCast_inj_of_lt {p a b : Nat} (ha : a < p) (hb : b < p) (h : (a : ZMod p) = b) : a = b := by
  rw [ZMod.natCast_eq_natCast_iff, Nat.ModEq, Nat.mod_eq_of_lt ha, Nat.mod_eq_of_lt hb] at h
  exact h

/-- A point of the curve has one representation. -/
theorem Represents.unique {d : Domain} {q r : Point} {P : (curveOf d).toAffine.Point} (hq : Represents d q P)
    (hr : Represents d r P) : q = r := by
  cases hq with
  | inf =>
    generalize hP : (0 : (curveOf d).toAffine.Point) = P at hr
    cases hr with
    | inf => rfl
    | finite _ hx hy hne h => cases hP
  | finite _ hx hy hne h =>
    generalize hP : WeierstrassCurve.Affine.Point.some _ _ h = P at hr
    cases hr with
    | inf => cases hP
    | finite _ hx' hy' hne' h' =>
      rw [WeierstrassCurve.Affine.Point.some.injEq] at hP
      have h1 := natCast_inj_of_lt hx hx' hP.1
      have h2 := natCast_inj_of_lt hy hy' hP.2
      cases q; cases r; simp_all

/-- Every point argument within the contract represents a point of the curve (41 R132). -/
theorem exists_represents {d : Domain} (hd : domainInContract d = true) {q : Point} (hq : pointInContract d q = true) :
    ∃ P, Represents d q P := by
  by_cases h : q = Point.inf
  · subst h; exact ⟨0, .inf⟩
  · have hc : onCurve d q = true := by simpa [pointInContract, h] using hq
    obtain ⟨hx, hy, he⟩ := (onCurve_iff d q).1 hc
    exact ⟨_, .finite q hx hy h ((equation_iff_nonsingular_of_Δ_ne_zero (curveOf_disc_ne_zero hd)).1
      ((equation_curveOf d _ _).2 he))⟩

/-- What represents a point of the curve is within the contract (41 R132). -/
theorem Represents.inContract {d : Domain} {q : Point} {P : (curveOf d).toAffine.Point} (h : Represents d q P) :
    pointInContract d q = true := by
  cases h with
  | inf => simp [pointInContract]
  | finite _ hx hy hne h =>
    have := (equation_curveOf d _ _).1 h.1
    simp [pointInContract, (onCurve_iff d q).2 ⟨hx, hy, this⟩]

theorem Represents.eq_inf_iff {d : Domain} {q : Point} {P : (curveOf d).toAffine.Point} (h : Represents d q P) :
    q = Point.inf ↔ P = 0 := by
  cases h with
  | inf => simp
  | finite _ hx hy hne h => exact ⟨fun e => absurd e hne, fun e => by cases e⟩

theorem coprime_of_ne_zero {p a : Nat} (hp : p.Prime) (h : (a : ZMod p) ≠ 0) : Nat.Coprime a p := by
  rw [Nat.coprime_comm, hp.coprime_iff_not_dvd, ← ZMod.natCast_eq_zero_iff]
  exact h

/-- `inv` divides in the field of integers mod P. -/
theorem zmod_inv {p a : Nat} [hp : Fact p.Prime] (h : (a : ZMod p) ≠ 0) : ((inv a p : Nat) : ZMod p) = (a : ZMod p)⁻¹ := by
  have := inv_spec hp.out.pos (coprime_of_ne_zero hp.out h)
  exact eq_inv_of_mul_eq_one_left this

theorem negY_curveOf (d : Domain) (x y : ZMod d.p) : (curveOf d).toAffine.negY x y = -y := by simp [negY, curveOf]

theorem opposite_iff {d : Domain} {q r : Point} (hx : q.x < d.p) (hx' : r.x < d.p) :
    (q.x = r.x ∧ (q.y + r.y) % d.p = 0) ↔
      ((q.x : ZMod d.p) = r.x ∧ (q.y : ZMod d.p) = (curveOf d).toAffine.negY r.x r.y) := by
  rw [negY_curveOf, ← Nat.dvd_iff_mod_eq_zero, ← ZMod.natCast_eq_zero_iff]
  push_cast
  rw [add_eq_zero_iff_eq_neg]
  exact and_congr_left fun _ => ⟨fun e => by rw [e], fun e => natCast_inj_of_lt hx hx' e⟩

/-- The slope of 41 R133 is the slope of the line on the curve. -/
theorem curveSlope_cast {d : Domain} [hF : Fact d.p.Prime] {q r : Point} (hx : q.x < d.p) (hx' : r.x < d.p)
    (h : (curveOf d).toAffine.Equation (q.x : ZMod d.p) q.y) (h' : (curveOf d).toAffine.Equation (r.x : ZMod d.p) r.y)
    (hxy : ¬ ((q.x : ZMod d.p) = r.x ∧ (q.y : ZMod d.p) = (curveOf d).toAffine.negY r.x r.y)) :
    ((curveSlope d q r : Nat) : ZMod d.p) = (curveOf d).toAffine.slope q.x r.x q.y r.y := by
  have hp := hF.out
  have hxe : q.x = r.x ↔ (q.x : ZMod d.p) = r.x := ⟨fun e => by rw [e], fun e => natCast_inj_of_lt hx hx' e⟩
  unfold curveSlope
  by_cases hxx : q.x = r.x
  · rw [if_pos hxx, zmod_modN _ _ hp.pos]
    have hyne : (q.y : ZMod d.p) ≠ (curveOf d).toAffine.negY r.x r.y := fun e => hxy ⟨hxe.1 hxx, e⟩
    have hyy : (q.y : ZMod d.p) = r.y := by
      rcases Y_eq_of_X_eq h h' (hxe.1 hxx) with e | e
      · exact e
      · exact absurd e hyne
    have h2y : ((2 * q.y : Nat) : ZMod d.p) ≠ 0 := by
      intro e
      apply hyne
      rw [negY_curveOf, ← hyy]
      push_cast at e
      linear_combination e
    rw [slope_of_Y_ne (hxe.1 hxx) hyne, negY_curveOf, Int.cast_mul, Int.cast_natCast, Int.cast_natCast, zmod_inv h2y]
    simp only [curveOf, div_eq_mul_inv]
    push_cast
    congr 1
    · ring
    · congr 1; ring
  · rw [if_neg hxx, zmod_modN _ _ hp.pos]
    have hxn : (q.x : ZMod d.p) ≠ r.x := fun e => hxx (hxe.2 e)
    have hdx : ((modN ((r.x : Int) - q.x) d.p : Nat) : ZMod d.p) ≠ 0 := by
      rw [zmod_modN _ _ hp.pos]
      push_cast
      exact sub_ne_zero.2 hxn.symm
    rw [slope_of_X_ne hxn, Int.cast_mul, Int.cast_natCast, zmod_inv hdx, zmod_modN _ _ hp.pos]
    push_cast
    rw [div_eq_mul_inv, ← neg_sub (r.x : ZMod d.p), ← neg_sub (r.y : ZMod d.p), inv_neg]
    ring

/-- The third point of 41 R133, on the curve. -/
theorem curveChord_cast {d : Domain} [hF : Fact d.p.Prime] {q r : Point} {lam : Nat} {ℓ : ZMod d.p}
    (hl : (lam : ZMod d.p) = ℓ) :
    (((curveChord d lam q r).x : Nat) : ZMod d.p) = (curveOf d).toAffine.addX q.x r.x ℓ ∧
      (((curveChord d lam q r).y : Nat) : ZMod d.p) = (curveOf d).toAffine.addY q.x r.x q.y ℓ := by
  have hX : (((curveChord d lam q r).x : Nat) : ZMod d.p) = (curveOf d).toAffine.addX q.x r.x ℓ := by
    simp only [curveChord]
    rw [zmod_modN _ _ hF.out.pos]
    push_cast
    rw [hl]
    simp [addX, curveOf]
  refine ⟨hX, ?_⟩
  rw [addY, negY_curveOf, negAddY, ← hX]
  simp only [curveChord]
  rw [zmod_modN _ _ hF.out.pos]
  push_cast
  rw [hl]
  ring

theorem curveChord_lt {d : Domain} (hp : 0 < d.p) (lam : Nat) (q r : Point) :
    (curveChord d lam q r).x < d.p ∧ (curveChord d lam q r).y < d.p := ⟨modN_lt _ hp, modN_lt _ hp⟩

/-- The sum of two points by the group law of 41 R133 represents their sum on the curve, unless that sum is the finite
point (0, 0). -/
theorem Represents.add {d : Domain} [hF : Fact d.p.Prime] {q r : Point} {P Q : (curveOf d).toAffine.Point}
    (hq : Represents d q P) (hr : Represents d r Q) (h0 : ∀ h, P + Q ≠ .some (0 : ZMod d.p) 0 h) :
    Represents d (curveAdd d q r) (P + Q) := by
  cases hq with
  | inf =>
    rw [zero_add]
    simpa [curveAdd] using hr
  | finite _ hx hy hne h =>
    cases hr with
    | inf =>
      rw [add_zero]
      simp only [curveAdd, if_neg hne, if_true]
      exact .finite q hx hy hne h
    | finite _ hx' hy' hne' h' =>
      unfold curveAdd
      rw [if_neg hne, if_neg hne']
      by_cases hopp : q.x = r.x ∧ (q.y + r.y) % d.p = 0
      · have ho := (opposite_iff hx hx').1 hopp
        rw [if_pos hopp, WeierstrassCurve.Affine.Point.add_of_Y_eq ho.1 ho.2]
        exact .inf
      · have hxy := mt (opposite_iff hx hx').2 hopp
        rw [if_neg hopp]
        obtain ⟨hX, hY⟩ := curveChord_cast (q := q) (r := r) (curveSlope_cast hx hx' h.1 h'.1 hxy)
        have hlt := curveChord_lt hF.out.pos (curveSlope d q r) q r
        have hadd := WeierstrassCurve.Affine.Point.add_some hxy (h₁ := h) (h₂ := h')
        have hN := nonsingular_add h h' hxy
        rw [hadd]
        refine Represents.of_eq hlt.1 hlt.2 (fun e => ?_) hN hX hY
        have e1 : ((curveChord d (curveSlope d q r) q r).x : ZMod d.p) = 0 := by rw [e]; simp [Point.inf]
        have e2 : ((curveChord d (curveSlope d q r) q r).y : ZMod d.p) = 0 := by rw [e]; simp [Point.inf]
        rw [hX] at e1
        rw [hY] at e2
        refine h0 (by rw [e1, e2] at hN; exact hN) ?_
        rw [hadd, WeierstrassCurve.Affine.Point.some.injEq]
        exact ⟨e1, e2⟩

/-- The group law keeps points within the contract, also where the sum is (0, 0) (41 R132, R134). -/
theorem curveAdd_inContract {d : Domain} (hd : domainInContract d = true) {q r : Point} (hq : pointInContract d q = true)
    (hr : pointInContract d r = true) : pointInContract d (curveAdd d q r) = true := by
  obtain ⟨_, _, hp⟩ := (domainInContract_iff d).1 hd
  have : Fact d.p.Prime := ⟨hp⟩
  obtain ⟨P, hP⟩ := exists_represents hd hq
  obtain ⟨Q, hQ⟩ := exists_represents hd hr
  cases hP with
  | inf => simpa [curveAdd] using hr
  | finite _ hx hy hne h =>
    cases hQ with
    | inf =>
      simp only [curveAdd, if_neg hne, if_true]
      exact hq
    | finite _ hx' hy' hne' h' =>
      unfold curveAdd
      rw [if_neg hne, if_neg hne']
      split
      · simp [pointInContract]
      · rename_i hopp
        have hxy := mt (opposite_iff hx hx').2 hopp
        obtain ⟨hX, hY⟩ := curveChord_cast (q := q) (r := r) (curveSlope_cast hx hx' h.1 h'.1 hxy)
        have hlt := curveChord_lt hp.pos (curveSlope d q r) q r
        have hE := (nonsingular_add h h' hxy).1
        rw [← hX, ← hY, equation_curveOf] at hE
        simp [pointInContract, (onCurve_iff d _).2 ⟨hlt.1, hlt.2, hE⟩]

theorem curveMul_inContract {d : Domain} (hd : domainInContract d = true) {q : Point} (hq : pointInContract d q = true)
    (k : Nat) : pointInContract d (curveMul d q k) = true := by
  induction k with
  | zero => simp [curveMul, pointInContract]
  | succ k ih => exact curveAdd_inContract hd ih hq

/-- A point within the contract has coordinates below P (41 R136). -/
theorem lt_of_inContract {d : Domain} (hp : 0 < d.p) {q : Point} (h : pointInContract d q = true) :
    q.x < d.p ∧ q.y < d.p := by
  by_cases hq : q = Point.inf
  · subst hq; exact ⟨hp, hp⟩
  · have hc : onCurve d q = true := by simpa [pointInContract, hq] using h
    exact ⟨((onCurve_iff d q).1 hc).1, ((onCurve_iff d q).1 hc).2.1⟩

/-- A curve with B not 0 modulo P has no finite point (0, 0) (41 R134). -/
theorem not_zero_zero {d : Domain} (hb : (d.b : ZMod d.p) ≠ 0) (P : (curveOf d).toAffine.Point) :
    ∀ h, P ≠ .some (0 : ZMod d.p) 0 h := by
  intro h
  have := (equation_curveOf d 0 0).1 h.1
  exact absurd (by linear_combination -this) hb

/-- `mul(P, k)` of 41 R133 is k times the point, when B is not 0 modulo P. -/
theorem Represents.mul {d : Domain} [hF : Fact d.p.Prime] (hb : (d.b : ZMod d.p) ≠ 0) {q : Point}
    {P : (curveOf d).toAffine.Point} (hq : Represents d q P) (k : Nat) : Represents d (curveMul d q k) (k • P) := by
  induction k with
  | zero => rw [zero_nsmul]; exact .inf
  | succ k ih =>
    rw [succ_nsmul]
    exact Represents.add ih hq (not_zero_zero hb _)

end Sys2Proof.Machine
end

