-- ==== Sys2Proof/Laws/Der.lean ====
section
/-! SUPPORT. The laws of the DER coder: each parser reads an element exactly where the encoder's bytes for it stand, so the
encoding is canonical (45 R216 to R219, R227). -/

namespace Sys2Proof.Machine

theorem byteAt_drop (b : Bytes) (i j : Nat) : byteAt (b.drop i) j = byteAt b (i + j) := by
  simp [byteAt, List.getD_eq_getElem?_getD, List.getElem?_drop]

theorem slice_one {b : Bytes} {i : Nat} (h : i < b.length) : slice b i 1 = [byteAt b i] := by
  simp [slice, byteAt, List.take_one, List.head?_drop, List.getElem?_eq_getElem h]

theorem slice_add (b : Bytes) (i m n : Nat) : slice b i (m + n) = slice b i m ++ slice b (i + m) n := by
  simp [slice, List.take_add, List.drop_drop]

theorem slice_cons_iff {b : Bytes} {i n : Nat} {x : Byte} {t : Bytes} (hn : t.length = n) :
    slice b i (n + 1) = x :: t ↔ i < b.length ∧ byteAt b i = x ∧ slice b (i + 1) n = t := by
  by_cases h : i < b.length
  · rw [Nat.add_comm, slice_add, slice_one h, List.singleton_append, List.cons.injEq]
    exact ⟨fun hx => ⟨h, hx⟩, fun hx => hx.2⟩
  · refine ⟨fun hx => ?_, fun hx => absurd hx.1 h⟩
    have := congrArg List.length hx
    rw [length_slice] at this
    simp only [List.length_cons] at this
    omega

theorem byteAt_slice_of_lt {b : Bytes} {i n k : Nat} (hk : k < n) : byteAt (slice b i n) k = byteAt b (i + k) := by
  rw [slice, byteAt, List.getD_eq_getElem?_getD, List.getElem?_take_of_lt hk, ← List.getD_eq_getElem?_getD]
  exact byteAt_drop b i k

theorem byteAt_slice {b : Bytes} {i n : Nat} (hn : 0 < n) : byteAt (slice b i n) 0 = byteAt b i := byteAt_slice_of_lt hn

theorem slice_append_iff {b s t : Bytes} {i : Nat} :
    slice b i (s ++ t).length = s ++ t ↔ slice b i s.length = s ∧ slice b (i + s.length) t.length = t := by
  rw [List.length_append, slice_add]
  constructor
  · intro h
    have hl := congrArg List.length h
    rw [List.length_append, List.length_append, length_slice, length_slice] at hl
    exact List.append_inj h (by rw [length_slice]; omega)
  · rintro ⟨h1, h2⟩
    rw [h1, h2]

theorem length_derLen_pos (n : Nat) : 0 < (derLen n).length := by
  unfold derLen
  split <;> simp

theorem length_minbytes_le {n k : Nat} (h : n < 256 ^ k) : (minbytes n).length ≤ k := by
  rw [← two_pow_eight_mul] at h
  have := bitlen_le h
  have := le_eight_mul_ceilDiv (bitlen n)
  rw [length_minbytes]
  omega

theorem length_tag {m : Nat} (h : m < 128) : ((0x80 : Byte) ||| BitVec.ofNat 8 m).toNat = 128 + m := by
  have : ∀ m : Fin 128, ((0x80 : Byte) ||| BitVec.ofNat 8 m.val).toNat = 128 + m.val := by decide
  exact this ⟨m, h⟩

/-- A length is read exactly where `DerLen` of it stands, and its content fits (45 R212, R216). -/
theorem parseLen_iff {b : Bytes} {i stop n j : Nat} (hs : stop ≤ b.length) :
    parseLen b i stop = some (n, j) ↔
      n < 2 ^ 32 ∧ slice b i (derLen n).length = derLen n ∧ j = i + (derLen n).length ∧ j + n ≤ stop := by
  constructor
  · intro h
    unfold parseLen at h
    simp only [] at h
    split at h
    · cases h
    rename_i h1
    have hi : i < b.length := by omega
    split at h
    · rename_i h2
      split at h
      · cases h
      rename_i h3
      simp only [Option.some.injEq, Prod.mk.injEq] at h
      obtain ⟨rfl, rfl⟩ := h
      have hd : derLen (byteAt b i).toNat = [byteAt b i] := by
        unfold derLen
        rw [if_pos h2, BitVec.ofNat_toNat, BitVec.setWidth_eq]
      rw [hd]
      exact ⟨by omega, slice_one hi, rfl, by omega⟩
    rename_i h2
    split at h
    · cases h
    rename_i h3
    split at h
    · cases h
    rename_i h4
    split at h
    · cases h
    rename_i h5
    split at h
    · cases h
    rename_i h6
    split at h
    · cases h
    rename_i h7
    split at h
    · cases h
    rename_i h8
    simp only [Option.some.injEq, Prod.mk.injEq] at h
    obtain ⟨rfl, rfl⟩ := h
    have hf := (byteAt b i).isLt
    have hm : 0 < (byteAt b i).toNat % 128 := by omega
    have hl : (slice b (i + 1) ((byteAt b i).toNat % 128)).length = (byteAt b i).toNat % 128 := by
      rw [length_slice]
      omega
    have hmin : minbytes (intOf (slice b (i + 1) ((byteAt b i).toNat % 128)))
        = slice b (i + 1) ((byteAt b i).toNat % 128) := by
      apply minbytes_intOf
      · intro h0
        rw [h0, List.length_nil] at hl
        omega
      · rwa [byteAt_slice hm]
    have hd : derLen (intOf (slice b (i + 1) ((byteAt b i).toNat % 128)))
        = byteAt b i :: slice b (i + 1) ((byteAt b i).toNat % 128) := by
      unfold derLen
      rw [if_neg h7, hmin, hl]
      congr 1
      apply BitVec.eq_of_toNat_eq
      rw [length_tag (by omega)]
      omega
    rw [hd]
    refine ⟨?_, ?_, ?_, by omega⟩
    · refine lt_of_lt_of_le (intOf_lt _) ?_
      rw [hl]
      exact le_trans (Nat.pow_le_pow_right (by norm_num) (by omega : _ ≤ 4)) (by norm_num)
    · rw [List.length_cons]
      exact (slice_cons_iff rfl).2 ⟨hi, rfl, by rw [hl]⟩
    · rw [List.length_cons, hl]
      omega
  · rintro ⟨hn, hsl, rfl, hfit⟩
    unfold derLen at hsl hfit ⊢
    split at hsl
    · rename_i h1
      rw [if_pos h1] at hfit ⊢
      obtain ⟨hi, hb, -⟩ := (slice_cons_iff (n := 0) rfl).1 hsl
      have hv : (byteAt b i).toNat = n := by
        rw [hb, BitVec.toNat_ofNat]
        omega
      simp only [List.length_singleton] at hfit ⊢
      unfold parseLen
      simp only [hv]
      rw [if_neg (by omega), if_pos h1, if_neg (by omega)]
    · rename_i h1
      rw [if_neg h1] at hfit ⊢
      have hne : n ≠ 0 := by omega
      have hm4 : (minbytes n).length ≤ 4 := length_minbytes_le (by norm_num; omega)
      have hm0 : 0 < (minbytes n).length := List.length_pos_of_ne_nil (minbytes_ne_nil hne)
      rw [List.length_cons] at hsl hfit ⊢
      obtain ⟨hi, hb, ht⟩ := (slice_cons_iff rfl).1 hsl
      have hv : (byteAt b i).toNat = 128 + (minbytes n).length := by rw [hb, length_tag (by omega)]
      have hmod : (128 + (minbytes n).length) % 128 = (minbytes n).length := by omega
      have h0 : byteAt b (i + 1) ≠ 0 := by
        rw [← byteAt_slice hm0, ht]
        exact byteAt_minbytes_ne_zero hne
      unfold parseLen
      simp only [hv, hmod, ht, intOf_minbytes]
      rw [if_neg (by omega), if_neg (by omega), if_neg (by omega), if_neg (by omega), if_neg (by omega), if_neg h0,
        if_neg h1, if_neg (by omega)]
      congr 2
      omega

/-- An element is read exactly where the encoder's bytes for its content stand (45 R211, R217). -/
theorem parseTlv_iff {b : Bytes} {i stop s e : Nat} {tag : Byte} (hs : stop ≤ b.length) :
    parseTlv b i stop tag = some (s, e) ↔
      ∃ c : Bytes, c.length < 2 ^ 32 ∧ slice b i (derElement tag c).length = derElement tag c
        ∧ e = i + (derElement tag c).length ∧ e ≤ stop ∧ s + c.length = e ∧ slice b s c.length = c := by
  unfold parseTlv derElement
  constructor
  · intro h
    split at h
    · cases h
    rename_i h1
    split at h
    · cases h
    rename_i h2
    rw [Option.map_eq_some_iff] at h
    obtain ⟨⟨n, j⟩, hp, hr⟩ := h
    simp only [Prod.mk.injEq] at hr
    obtain ⟨rfl, rfl⟩ := hr
    obtain ⟨hn, hsl, rfl, hfit⟩ := (parseLen_iff hs).1 hp
    have hl : (slice b (i + 1 + (derLen n).length) n).length = n := by
      rw [length_slice]
      omega
    refine ⟨slice b (i + 1 + (derLen n).length) n, by omega, ?_, ?_, hfit, by omega, by rw [hl]⟩
    · rw [hl, List.length_cons]
      refine (slice_cons_iff rfl).2 ⟨by omega, by simpa using h2, ?_⟩
      exact slice_append_iff.2 ⟨hsl, by rw [hl]⟩
    · rw [List.length_cons, List.length_append, hl]
      omega
  · rintro ⟨c, hc, hsl, rfl, hfit, hse, -⟩
    rw [List.length_cons] at hsl hfit hse ⊢
    obtain ⟨hi, hb, ht⟩ := (slice_cons_iff rfl).1 hsl
    rw [List.length_append] at hfit hse ⊢
    have hp : parseLen b (i + 1) stop = some (c.length, i + 1 + (derLen c.length).length) :=
      (parseLen_iff hs).2 ⟨hc, (slice_append_iff.1 ht).1, rfl, by omega⟩
    rw [if_neg (by omega), if_neg (by simp [hb]), hp]
    simp only [Option.map_some, Option.some.injEq, Prod.mk.injEq]
    omega

/-- An OCTET STRING is read exactly where `DerOct` of it stands (45 R214, R219). -/
theorem parseOct_iff {b c : Bytes} {i stop j : Nat} (hs : stop ≤ b.length) :
    parseOct b i stop = some (c, j) ↔
      c.length < 2 ^ 32 ∧ slice b i (derOct c).length = derOct c ∧ j = i + (derOct c).length ∧ j ≤ stop := by
  unfold parseOct derOct
  constructor
  · intro h
    rw [Option.map_eq_some_iff] at h
    obtain ⟨⟨s, e⟩, hp, hr⟩ := h
    simp only [Prod.mk.injEq] at hr
    obtain ⟨hr, rfl⟩ := hr
    obtain ⟨c', hc, hsl, hj, hfit, hse, hcont⟩ := (parseTlv_iff hs).1 hp
    have he : e - s = c'.length := by omega
    rw [he, hcont] at hr
    subst hr
    exact ⟨hc, hsl, hj, hfit⟩
  · rintro ⟨hc, hsl, rfl, hfit⟩
    have hlen : (derElement tagOctets c).length = 1 + (derLen c.length).length + c.length := by
      simp [derElement]
      omega
    have hcont : slice b (i + 1 + (derLen c.length).length) c.length = c := by
      rw [derElement, List.length_cons] at hsl
      obtain ⟨-, -, ht⟩ := (slice_cons_iff rfl).1 hsl
      exact (slice_append_iff.1 ht).2
    have hp : parseTlv b i stop tagOctets
        = some (i + 1 + (derLen c.length).length, i + (derElement tagOctets c).length) :=
      (parseTlv_iff hs).2 ⟨c, hc, hsl, rfl, hfit, by omega, hcont⟩
    rw [hp]
    simp only [Option.map_some, Option.some.injEq, Prod.mk.injEq, and_true]
    rw [show i + (derElement tagOctets c).length - (i + 1 + (derLen c.length).length) = c.length by omega, hcont]

/-- What the parser of an INTEGER asks of its content: not empty, no sign bit, and shortest (45 R218). -/
def derIntForm (c : Bytes) : Prop :=
  c ≠ [] ∧ (byteAt c 0).toNat < 0x80 ∧ ¬ (2 ≤ c.length ∧ byteAt c 0 = 0 ∧ (byteAt c 1).toNat < 0x80)

theorem derIntForm_content (v : Nat) : derIntForm (derIntContent v) ∧ intOf (derIntContent v) = v := by
  unfold derIntContent
  split
  · rename_i h
    subst h
    exact ⟨⟨by simp, by decide, by simp⟩, by decide⟩
  · rename_i h
    split
    · rename_i h1
      refine ⟨⟨by simp, by simp [byteAt], ?_⟩, by rw [intOf_cons]; simp⟩
      rintro ⟨-, -, h2⟩
      have : byteAt ((0x00 : Byte) :: minbytes v) 1 = byteAt (minbytes v) 0 := by simp [byteAt]
      rw [this] at h2
      omega
    · rename_i h1
      exact ⟨⟨minbytes_ne_nil h, by omega, fun h2 => byteAt_minbytes_ne_zero h h2.2.1⟩, intOf_minbytes v⟩

/-- The content of an INTEGER is determined by its value (45 R213, R218, R227). -/
theorem derIntContent_intOf {c : Bytes} (h : derIntForm c) : derIntContent (intOf c) = c := by
  obtain ⟨hne, hsign, hshort⟩ := h
  match c with
  | [] => exact absurd rfl hne
  | x :: t =>
    have hx : byteAt (x :: t) 0 = x := rfl
    rw [hx] at hsign hshort
    by_cases hx0 : x = 0
    · subst hx0
      match t with
      | [] => rfl
      | y :: u =>
        have hy : byteAt ((0 : Byte) :: y :: u) 1 = y := rfl
        rw [hy] at hshort
        have hy80 : 0x80 ≤ y.toNat := by
          by_contra hc
          exact hshort ⟨by simp, rfl, by omega⟩
        have hy0 : byteAt (y :: u) 0 ≠ 0 := by
          show y ≠ 0
          rintro rfl
          simp at hy80
        have hval : intOf ((0 : Byte) :: y :: u) = intOf (y :: u) := by
          rw [intOf_cons]
          simp
        have hmin : minbytes (intOf (y :: u)) = y :: u := minbytes_intOf (by simp) hy0
        have hnz : intOf (y :: u) ≠ 0 := by
          intro h0
          rw [h0, minbytes_zero] at hmin
          cases hmin
        rw [hval, derIntContent, if_neg hnz, hmin, if_pos (show 0x80 ≤ (byteAt (y :: u) 0).toNat from hy80)]
    · have hmin : minbytes (intOf (x :: t)) = x :: t := minbytes_intOf (by simp) hx0
      have hnz : intOf (x :: t) ≠ 0 := by
        intro h0
        rw [h0, minbytes_zero] at hmin
        cases hmin
      rw [derIntContent, if_neg hnz, hmin, if_neg (by rw [hx]; omega)]

/-- An INTEGER is read exactly where `DerInt` of it stands and its value fits (45 R213, R218). -/
theorem parseInt_iff {b : Bytes} {i stop maxBits v j : Nat} (hs : stop ≤ b.length) :
    parseInt b i stop maxBits = some (v, j) ↔
      v < 2 ^ maxBits ∧ (derIntContent v).length < 2 ^ 32 ∧ slice b i (derInt v).length = derInt v
        ∧ j = i + (derInt v).length ∧ j ≤ stop := by
  unfold parseInt derInt
  constructor
  · intro h
    split at h
    · cases h
    rename_i s e hp
    obtain ⟨c, hc, hsl, he, hfit, hse, hcont⟩ := (parseTlv_iff hs).1 hp
    have hn : e - s = c.length := by omega
    rw [hn, hcont] at h
    split at h
    · cases h
    rename_i h1
    split at h
    · cases h
    rename_i h2
    split at h
    · cases h
    rename_i h3
    split at h
    · cases h
    rename_i h4
    simp only [Option.some.injEq, Prod.mk.injEq] at h
    obtain ⟨rfl, rfl⟩ := h
    have hpos : 0 < c.length := by omega
    have hform : derIntForm c := by
      refine ⟨List.ne_nil_of_length_pos hpos, ?_, ?_⟩
      · rw [← hcont, byteAt_slice hpos]
        omega
      · rintro ⟨g1, g2, g3⟩
        refine h3 ⟨g1, ?_, ?_⟩
        · rwa [← hcont, byteAt_slice hpos] at g2
        · rwa [← hcont, byteAt_slice_of_lt g1] at g3
    rw [derIntContent_intOf hform]
    exact ⟨by omega, hc, hsl, he, hfit⟩
  · rintro ⟨hv, hc, hsl, rfl, hfit⟩
    obtain ⟨⟨f1, f2, f3⟩, hval⟩ := derIntForm_content v
    generalize hcd : derIntContent v = c at *
    have hpos : 0 < c.length := List.length_pos_of_ne_nil f1
    have hlen : (derElement tagInteger c).length = 1 + (derLen c.length).length + c.length := by
      simp [derElement]
      omega
    have hcont : slice b (i + 1 + (derLen c.length).length) c.length = c := by
      rw [derElement, List.length_cons] at hsl
      obtain ⟨-, -, ht⟩ := (slice_cons_iff rfl).1 hsl
      exact (slice_append_iff.1 ht).2
    have hp : parseTlv b i stop tagInteger
        = some (i + 1 + (derLen c.length).length, i + (derElement tagInteger c).length) :=
      (parseTlv_iff hs).2 ⟨c, hc, hsl, rfl, hfit, by omega, hcont⟩
    have hn : i + (derElement tagInteger c).length - (i + 1 + (derLen c.length).length) = c.length := by omega
    rw [hp]
    simp only [hn, hcont, hval]
    have hb0 : byteAt b (i + 1 + (derLen c.length).length) = byteAt c 0 := by
      rw [← byteAt_slice hpos, hcont]
    rw [if_neg (by omega), if_neg (by rw [hb0]; omega), if_neg ?_, if_neg (by omega)]
    rintro ⟨g1, g2, g3⟩
    refine f3 ⟨g1, by rwa [← hb0], ?_⟩
    have h1 : byteAt c 1 = byteAt (slice b (i + 1 + (derLen c.length).length) c.length) 1 := by rw [hcont]
    rw [h1, byteAt_slice_of_lt (by omega)]
    exact g3

end Sys2Proof.Machine
end

