-- ==== Sys2Proof/Laws/PerInstr.lean ====
section
/-! SUPPORT. The family `ReservedZero`: the word of every command has its reserved bits 31:16 zero (30 R80, R81, R83). -/

namespace Sys2Proof.Laws.ReservedZero

/-- The reserved bits of the word of a command are zero (30 R81). -/
def Statement (i : Instr) : Prop := fieldReserved (encode i) = 0

/-- The word of an `H_*` command with a 16-bit opcode part has its reserved bits zero. -/
theorem hashWord_reserved (opcode : Word) (c : BitVec 4) (h : fieldReserved opcode = 0) :
    fieldReserved (hashWord opcode c) = 0 := by
  unfold fieldReserved hashWord at *
  rw [BitVec.extractLsb'_or, h]
  revert c; decide

theorem hReset (c : BitVec 4) : Statement (.hReset c) := hashWord_reserved _ c (by decide)

theorem hUpdate (c : BitVec 4) : Statement (.hUpdate c) := hashWord_reserved _ c (by decide)

theorem hFinal (c : BitVec 4) : Statement (.hFinal c) := hashWord_reserved _ c (by decide)

theorem hDigest (c : BitVec 4) : Statement (.hDigest c) := hashWord_reserved _ c (by decide)

theorem domCheck : Statement .domCheck := by unfold Statement; decide

theorem keygen : Statement .keygen := by unfold Statement; decide

theorem pubkey : Statement .pubkey := by unfold Statement; decide

theorem kdf : Statement .kdf := by unfold Statement; decide

theorem sign : Statement .sign := by unfold Statement; decide

theorem signU : Statement .signU := by unfold Statement; decide

theorem verify : Statement .verify := by unfold Statement; decide

theorem verifyU : Statement .verifyU := by unfold Statement; decide

theorem encrypt : Statement .encrypt := by unfold Statement; decide

theorem decrypt : Statement .decrypt := by unfold Statement; decide

theorem derEncSig : Statement .derEncSig := by unfold Statement; decide

theorem derDecSig : Statement .derDecSig := by unfold Statement; decide

theorem derEncCt : Statement .derEncCt := by unfold Statement; decide

theorem derDecCt : Statement .derDecCt := by unfold Statement; decide

theorem keyEncPub : Statement .keyEncPub := by unfold Statement; decide

theorem keyEncRaw : Statement .keyEncRaw := by unfold Statement; decide

theorem keyEncPriv : Statement .keyEncPriv := by unfold Statement; decide

theorem keyDecPub : Statement .keyDecPub := by unfold Statement; decide

theorem keyDecRaw : Statement .keyDecRaw := by unfold Statement; decide

theorem keyDecPriv : Statement .keyDecPriv := by unfold Statement; decide

end Sys2Proof.Laws.ReservedZero
end

