-- ==== Sys2Proof/Laws/Sequencer.lean ====
section
/-! SUPPORT. What one turn of the sequencer can do, said once for every command, and how a run is made of turns. -/

namespace Sys2Proof.Machine

/-- What a command may have changed when it reaches its end without an error: the state `s1` it completes, from `s`. -/
structure Ended (i : Instr) (s s1 : State) : Prop where
  frame : s1 = { s with
    regs := s1.regs, hc := s1.hc, mem := s1.mem, olen := s1.olen, result := s1.result, domok := s1.domok
    tmp := s1.tmp, hi := s1.hi, seq := s1.seq }
  regs : ∀ r, s1.regs.get r = s.regs.get r ∨ r ∈ writes i ∧ s1.regs.get r < 2 ^ s.cfg.opBits
  hc : s1.hc = s.hc ∨ ∃ c x, writesCtx i = some c ∧ s1.hc = s.hc.set c.toNat x ∧ ((∀ y ∈ s.hc, y.wf) → x.wf)
  mem : (s1.mem = s.mem ∧ s1.olen = s.olen)
    ∨ ∃ d, s1.mem = memSetBytes s.mem Buf.out.base d ∧ s1.olen = BitVec.ofNat 32 d.length
  domok : i ≠ .domCheck → s1.domok = s.domok
  domokValid : i = .domCheck → s1.domok = s.domok ∨ s1.domok = validDomain s.cfg.opBits s.dom

/-- What one turn can do: move along the path, perhaps taking an answer of the RNG port; end the command with an error;
or end it without. -/
inductive TurnCases (i : Instr) (s : State) : State → Prop where
  | moved (q : Seq) (t : Temps) (h : HashCtx) (r : List RngAnswer) (hq : q ∈ path i)
      (hr : r = s.rng ∨ ∃ a, s.rng = a :: r) : TurnCases i s { s with seq := q, tmp := t, hi := h, rng := r }
  | failed (k : ErrKind) (t : Temps) (h : HashCtx) (r : List RngAnswer) (d : Bool)
      (hr : r = s.rng ∨ ∃ a, s.rng = a :: r)
      (hd : d = s.domok ∨ i = .domCheck ∧ d = false) (b : Bool) (hb : b = s.result ∨ b = false) :
      TurnCases i s (raise (destinations i) k { s with tmp := t, hi := h, rng := r, domok := d, result := b })
  | ended (s1 : State) (h : Ended i s s1) : TurnCases i s (complete s1)

theorem Ended.refl (i : Instr) (s : State) : Ended i s s where
  frame := rfl
  regs _ := .inl rfl
  hc := .inl rfl
  mem := .inl ⟨rfl, rfl⟩
  domok _ := rfl
  domokValid _ := .inl rfl

theorem Ended.ofOutput {i : Instr} {s : State} (d : Bytes) : Ended i s (output d s) where
  frame := rfl
  regs _ := .inl rfl
  hc := .inl rfl
  mem := .inr ⟨d, rfl, rfl⟩
  domok _ := rfl
  domokValid _ := .inl rfl

theorem Ended.withHi {i : Instr} {s s1 : State} (x : HashCtx) (h : Ended i { s with hi := x } s1) : Ended i s s1 where
  frame := by rw [h.frame]
  regs := h.regs
  hc := h.hc
  mem := h.mem
  domok := h.domok
  domokValid := h.domokValid

theorem Ended.setReg {i : Instr} {s s1 : State} {r : OpReg} (v : Nat) (hr : r ∈ writes i) (h : Ended i s s1)
    (hc : s1.cfg = s.cfg) : Ended i s (setReg r v s1) where
  frame := by
    rw [h.frame]; rfl
  regs r' := by
    rw [setReg_regs, OperandRegs.get_put]
    split
    · rename_i e
      exact .inr ⟨e ▸ hr, by rw [hc]; exact Nat.mod_lt _ (Nat.pow_pos (by norm_num))⟩
    · exact h.regs r'
  hc := h.hc
  mem := h.mem
  domok := h.domok
  domokValid := h.domokValid

/-- The turns of a retry loop at its draw (41 R137). -/
theorem drawScalar_cases {i : Instr} {use : Nat → State → State} {s s' : State} (h : drawScalar i use s = some s')
    (hs : s.seq ∈ path i)
    (huse : ∀ d u, use d u = { u with tmp := (use d u).tmp, seq := (use d u).seq } ∧ (use d u).seq ∈ path i) :
    TurnCases i s s' := by
  unfold drawScalar at h
  dsimp only at h
  split at h
  · cases h
    exact .failed .rng _ s.hi s.rng s.domok (.inl rfl) (.inl rfl) s.result (.inl rfl)
  · split at h
    · cases h
    · rename_i rest he
      cases h
      exact .failed .rng _ s.hi rest s.domok (.inr ⟨_, he⟩) (.inl rfl) s.result (.inl rfl)
    · rename_i v rest he
      split at h
      · cases h
        exact .moved s.seq _ s.hi rest hs (.inr ⟨_, he⟩)
      · cases h
        rw [(huse _ _).1]
        exact .moved _ _ s.hi rest (huse _ _).2 (.inr ⟨_, he⟩)

theorem singleState_cases {q : Seq} {act : State → State} {s s' : State} (h : singleState q act s = some s') :
    s.seq = q ∧ s' = act s := by
  unfold singleState at h
  split at h
  · rename_i hq
    cases h
    exact ⟨hq, rfl⟩
  · cases h

end Sys2Proof.Machine
end

