-- ==== Sys2Proof/Laws/Sm3.lean ====
section
/-! SUPPORT. The laws of the SM3 engine: what `Absorb` leaves pending, that it compresses the blocks of the stream in order,
and the lengths of padding and digest. -/

namespace Sys2Proof.Machine

theorem HashCtx.init_wf : HashCtx.init.wf := by simp [HashCtx.init, HashCtx.wf]

theorem compressBlocks_zero (v : Words8) (m : Bytes) : compressBlocks v m 0 = v := rfl

/-- A fold over the first n+1 blocks takes the first block and then the n blocks of the rest. -/
theorem foldl_blocks_succ {α : Type} (f : α → Bytes → α) (v : α) (m : Bytes) (n : Nat) :
    (List.range (n + 1)).foldl (fun v i => f v (slice m (64 * i) 64)) v =
      (List.range n).foldl (fun v i => f v (slice (m.drop 64) (64 * i) 64)) (f v (m.take 64)) := by
  rw [List.range_succ_eq_map, List.foldl_cons, List.foldl_map]
  have h : ∀ i, slice m (64 * (i + 1)) 64 = slice (m.drop 64) (64 * i) 64 := by
    intro i
    rw [slice, slice, List.drop_drop, show 64 * (i + 1) = 64 + 64 * i by ring]
  simp only [Nat.succ_eq_add_one, h]
  rfl

/-- Compressing n+1 blocks is compressing the first and then the n blocks of the rest. -/
theorem compressBlocks_succ (v : Words8) (m : Bytes) (n : Nat) :
    compressBlocks v m (n + 1) = compressBlocks (sm3CF v (m.take 64)) (m.drop 64) n :=
  foldl_blocks_succ sm3CF v m n

/-- Blocks are compressed one after the other. -/
theorem compressBlocks_add (v : Words8) (m : Bytes) (a b : Nat) :
    compressBlocks v m (a + b) = compressBlocks (compressBlocks v m a) (m.drop (64 * a)) b := by
  induction a generalizing v m with
  | zero => simp [compressBlocks_zero]
  | succ a ih =>
    rw [show a + 1 + b = a + b + 1 by omega, compressBlocks_succ, compressBlocks_succ, ih, List.drop_drop,
      show 64 * (a + 1) = 64 + 64 * a by ring]

/-- Only the blocks compressed matter, not what follows them. -/
theorem compressBlocks_append (v : Words8) (m t : Bytes) (n : Nat) (h : 64 * n ≤ m.length) :
    compressBlocks v (m ++ t) n = compressBlocks v m n := by
  induction n generalizing v m with
  | zero => rw [compressBlocks_zero, compressBlocks_zero]
  | succ n ih =>
    rw [compressBlocks_succ, compressBlocks_succ, List.take_append_of_le_length (by omega),
      List.drop_append_of_le_length (by omega), ih _ _ (by rw [List.length_drop]; omega)]

/-- The loop of `Absorb` compresses all whole blocks and leaves the rest (40 R113). -/
theorem absorbLoop_eq (fuel : Nat) (v : Words8) (buf : Bytes) (h : buf.length / 64 ≤ fuel) :
    absorbLoop fuel v buf = (compressBlocks v buf (buf.length / 64), buf.drop (64 * (buf.length / 64))) := by
  induction fuel generalizing v buf with
  | zero =>
    have : buf.length / 64 = 0 := by omega
    simp [absorbLoop, this, compressBlocks_zero]
  | succ n ih =>
    unfold absorbLoop
    split
    · rename_i hl
      have hd : (buf.drop 64).length / 64 = buf.length / 64 - 1 := by simp; omega
      rw [ih _ _ (by rw [hd]; omega), hd]
      have hs : buf.length / 64 = buf.length / 64 - 1 + 1 := by omega
      conv_rhs => rw [hs, compressBlocks_succ]
      rw [List.drop_drop, show 64 * (buf.length / 64 - 1 + 1) = 64 + 64 * (buf.length / 64 - 1) by ring]
    · have : buf.length / 64 = 0 := by omega
      simp [this, compressBlocks_zero]

/-- What `Absorb` leaves in a context (40 R113). -/
theorem absorb_eq (x : HashCtx) (data : Bytes) :
    absorb x data =
      ⟨compressBlocks x.v (x.buf ++ data) ((x.buf ++ data).length / 64),
        (x.buf ++ data).drop (64 * ((x.buf ++ data).length / 64)), x.cnt + BitVec.ofNat 64 (8 * data.length)⟩ := by
  unfold absorb
  dsimp only
  rw [absorbLoop_eq _ _ _ (Nat.div_le_self _ _)]

theorem absorb_wf {x : HashCtx} (h : x.wf) (data : Bytes) : (absorb x data).wf := by
  rw [absorb_eq]
  unfold HashCtx.wf at *
  constructor
  · simp; omega
  · simp only [BitVec.toNat_add, BitVec.toNat_ofNat, List.length_drop, List.length_append]
    omega

/-- `len(Pad(buf, L))` is a multiple of 64 (40 R111). -/
theorem length_sm3Pad (buf : Bytes) (bits : Nat) : (sm3Pad buf bits).length = buf.length + padZeros buf.length + 9 := by
  simp [sm3Pad]; omega

theorem length_sm3Pad_mod (buf : Bytes) (bits : Nat) : (sm3Pad buf bits).length % 64 = 0 := by
  rw [length_sm3Pad]
  unfold padZeros modN
  omega

@[simp] theorem length_words8_bytes (v : Words8) : v.bytes.length = 32 := rfl

/-- A digest has 32 bytes (40 R112, R114). -/
@[simp] theorem length_finalize (x : HashCtx) : (finalize x).length = 32 := rfl

@[simp] theorem length_sm3 (m : Bytes) : (sm3 m).length = 32 := rfl

end Sys2Proof.Machine
end

