-- ==== Sys2Proof/Laws/Turns.lean ====
section
/-! SUPPORT. One turn of each command is one of the cases of `TurnCases`; hence every run is. -/

namespace Sys2Proof.Machine

theorem Ended.ofResult {i : Instr} {s : State} (b : Bool) : Ended i s { s with result := b } where
  frame := rfl
  regs _ := .inl rfl
  hc := .inl rfl
  mem := .inl ⟨rfl, rfl⟩
  domok _ := rfl
  domokValid _ := .inl rfl

theorem Ended.ofTmp {i : Instr} {s s1 : State} (t : Temps) (h : Ended i { s with tmp := t } s1) : Ended i s s1 where
  frame := by rw [h.frame]
  regs := h.regs
  hc := h.hc
  mem := h.mem
  domok := h.domok
  domokValid := h.domokValid

theorem Ended.setPubKey {i : Instr} {s s1 : State} (q : Point) (hx : OpReg.keyQx ∈ writes i) (hy : OpReg.keyQy ∈ writes i)
    (h : Ended i s s1) (hc : s1.cfg = s.cfg) : Ended i s (setPubKey q s1) :=
  Ended.setReg q.y hy (Ended.setReg q.x hx h hc) hc

theorem Ended.ofSetHashCtx {i : Instr} {s : State} (c : BitVec 4) (x : HashCtx) (hw : writesCtx i = some c)
    (hx : (∀ y ∈ s.hc, y.wf) → x.wf) : Ended i s (setHashCtx c.toNat x s) where
  frame := rfl
  regs _ := .inl rfl
  hc := .inr ⟨c, x, hw, rfl, hx⟩
  mem := .inl ⟨rfl, rfl⟩
  domok _ := rfl
  domokValid _ := .inl rfl

theorem hashCtx_wf {s : State} (h : ∀ y ∈ s.hc, y.wf) (c : Nat) : (hashCtx c s).wf := by
  unfold hashCtx
  rw [List.getD_eq_getElem?_getD]
  cases hc : s.hc[c]? with
  | none => exact HashCtx.init_wf
  | some x => exact h x (List.mem_of_getElem? hc)

theorem outputOrParam_cases {i : Instr} {s : State} (d : Bytes) : TurnCases i s (outputOrParam i d s) := by
  unfold outputOrParam
  split
  · exact .failed .param s.tmp s.hi s.rng s.domok (.inl rfl) (.inl rfl) s.result (.inl rfl)
  · exact .ended _ (Ended.ofOutput d)

theorem hReset_cases (c : BitVec 4) {s s' : State} (h : hResetBody c s = some s') : TurnCases (.hReset c) s s' := by
  obtain ⟨_, rfl⟩ := singleState_cases h
  exact .ended _ (Ended.ofSetHashCtx c _ rfl fun _ => HashCtx.init_wf)

theorem hUpdate_cases (c : BitVec 4) {s s' : State} (h : hUpdateBody c s = some s') : TurnCases (.hUpdate c) s s' := by
  obtain ⟨_, rfl⟩ := singleState_cases h
  exact .ended _ (Ended.ofSetHashCtx c _ rfl fun hy => absorb_wf (hashCtx_wf hy _) _)

theorem hFinal_cases (c : BitVec 4) {s s' : State} (h : hFinalBody c s = some s') : TurnCases (.hFinal c) s s' := by
  obtain ⟨_, rfl⟩ := singleState_cases h
  exact .ended _ (Ended.ofOutput _)

theorem Ended.thenOutput {i : Instr} {s s1 : State} (d : Bytes) (h : Ended i s s1) (hm : s1.mem = s.mem) :
    Ended i s (output d s1) where
  frame := by rw [h.frame]; rfl
  regs := h.regs
  hc := h.hc
  mem := .inr ⟨d, by rw [← hm]; rfl, rfl⟩
  domok := h.domok
  domokValid := h.domokValid

theorem hDigest_cases (c : BitVec 4) {s s' : State} (h : hDigestBody c s = some s') : TurnCases (.hDigest c) s s' := by
  obtain ⟨_, rfl⟩ := singleState_cases h
  exact .ended _ (Ended.thenOutput _ (Ended.ofSetHashCtx c _ rfl fun _ => absorb_wf HashCtx.init_wf _) rfl)

theorem domCheck_cases {s s' : State} (h : domCheckBody s = some s') : TurnCases .domCheck s s' := by
  obtain ⟨_, rfl⟩ := singleState_cases h
  unfold domCheckRun
  cases hv : validDomain s.cfg.opBits s.dom
  · exact .failed .domain s.tmp s.hi s.rng false (.inl rfl) (.inr ⟨rfl, rfl⟩) false (.inr rfl)
  · exact .ended _ ⟨rfl, fun _ => .inl rfl, .inl rfl, .inl ⟨rfl, rfl⟩, fun hne => absurd rfl hne, fun _ => .inr hv.symm⟩

theorem keygen_cases {s s' : State} (h : keygenBody s = some s') : TurnCases .keygen s s' := by
  unfold keygenBody at h
  split at h
  · rename_i hq
    exact drawScalar_cases h (by simp [hq, path]) fun d u => ⟨rfl, by simp [kgAccept, path]⟩
  · cases h
    exact .ended _ (Ended.setPubKey _ (by simp [writes]) (by simp [writes])
      (Ended.setReg _ (by simp [writes]) (Ended.refl _ s) rfl) rfl)
  · cases h

theorem pubkey_cases {s s' : State} (h : pubkeyBody s = some s') : TurnCases .pubkey s s' := by
  obtain ⟨_, rfl⟩ := singleState_cases h
  exact .ended _ (Ended.setPubKey _ (by simp [writes]) (by simp [writes]) (Ended.refl _ s) rfl)

theorem kdf_cases {s s' : State} (h : kdfBody s = some s') : TurnCases .kdf s s' := by
  obtain ⟨_, rfl⟩ := singleState_cases h
  exact .ended _ (Ended.withHi _ (Ended.ofOutput _))

theorem sign_cases {i : Instr} {u : Bool} {s s' : State} (hp : path i = path .sign) (hw : writes i = writes .sign)
    (h : signStates i u s = some s') : TurnCases i s s' := by
  unfold signStates at h
  split at h
  · cases h; exact .moved .sgZ _ _ s.rng (by rw [hp]; simp [path]) (.inl rfl)
  · cases h; exact .moved .sgE _ _ s.rng (by rw [hp]; simp [path]) (.inl rfl)
  · cases h; exact .moved .sgDraw _ _ s.rng (by rw [hp]; simp [path]) (.inl rfl)
  · rename_i hq
    exact drawScalar_cases h (by rw [hq, hp]; simp [path]) fun d v => ⟨rfl, by rw [hp]; simp [sgAccept, path]⟩
  · cases h; exact .moved .sgR _ _ s.rng (by rw [hp]; simp [path]) (.inl rfl)
  · cases h; exact .moved _ _ s.hi s.rng (by rw [hp]; split <;> simp [path]) (.inl rfl)
  · cases h; exact .moved _ _ s.hi s.rng (by rw [hp]; split <;> simp [path]) (.inl rfl)
  · cases h
    exact .ended _ (Ended.setReg _ (by rw [hw]; simp [writes]) (Ended.setReg _ (by rw [hw]; simp [writes]) (Ended.refl _ s) rfl) rfl)
  · cases h

theorem vfEnd_cases {i : Instr} {s : State} (t : Temps) (b : Bool) : TurnCases i s (vfEnd b { s with tmp := t }) :=
  .ended _ (Ended.ofTmp t (Ended.ofResult b))

theorem verify_cases {i : Instr} {u : Bool} {s s' : State} (hp : path i = path .verify)
    (h : verifyStates u s = some s') : TurnCases i s s' := by
  unfold verifyStates at h
  split at h
  · cases h
    unfold vfRange
    split
    · exact vfEnd_cases s.tmp false
    · exact .moved .vfZ s.tmp s.hi s.rng (by rw [hp]; simp [path]) (.inl rfl)
  · cases h; exact .moved .vfE _ _ s.rng (by rw [hp]; simp [path]) (.inl rfl)
  · cases h; exact .moved .vfT _ _ s.rng (by rw [hp]; simp [path]) (.inl rfl)
  · cases h
    unfold vfT
    dsimp only
    split
    · exact vfEnd_cases _ false
    · exact .moved .vfPoint _ s.hi s.rng (by rw [hp]; simp [path]) (.inl rfl)
  · cases h
    unfold vfPoint
    dsimp only
    split
    · exact vfEnd_cases _ false
    · exact .moved .vfCmp _ s.hi s.rng (by rw [hp]; simp [path]) (.inl rfl)
  · cases h; exact vfEnd_cases s.tmp _
  · cases h

theorem encrypt_cases {s s' : State} (h : encryptBody s = some s') : TurnCases .encrypt s s' := by
  unfold encryptBody at h
  split at h
  · rename_i hq
    exact drawScalar_cases h (by simp [hq, path]) fun d v => ⟨rfl, by simp [enAccept, path]⟩
  · cases h; exact .moved .enKdf _ _ s.rng (by simp [path]) (.inl rfl)
  · cases h; exact .moved _ _ _ s.rng (by split <;> simp [path]) (.inl rfl)
  · cases h; exact .moved .enOut _ _ s.rng (by simp [path]) (.inl rfl)
  · cases h; exact .ended _ (Ended.ofOutput _)
  · cases h

theorem decrypt_cases {s s' : State} (h : decryptBody s = some s') : TurnCases .decrypt s s' := by
  unfold decryptBody at h
  split at h
  · cases h
    unfold deParse
    split
    · exact .failed .encoding s.tmp s.hi s.rng s.domok (.inl rfl) (.inl rfl) s.result (.inl rfl)
    · exact .moved .deCof _ _ s.rng (by simp [path]) (.inl rfl)
  · cases h
    unfold deCof
    split
    · exact .failed .integrity s.tmp s.hi s.rng s.domok (.inl rfl) (.inl rfl) s.result (.inl rfl)
    · exact .moved .deShare s.tmp s.hi s.rng (by simp [path]) (.inl rfl)
  · cases h; exact .moved .deKdf _ _ s.rng (by simp [path]) (.inl rfl)
  · cases h; exact .moved .deTag _ _ s.rng (by simp [path]) (.inl rfl)
  · cases h
    unfold deTag
    dsimp only
    split
    · exact .failed .integrity s.tmp _ s.rng s.domok (.inl rfl) (.inl rfl) s.result (.inl rfl)
    · exact .moved .deOut s.tmp _ s.rng (by simp [path]) (.inl rfl)
  · cases h; exact .ended _ (Ended.ofOutput _)
  · cases h

theorem derEncSig_cases {s s' : State} (h : derEncSigBody s = some s') : TurnCases .derEncSig s s' := by
  obtain ⟨_, rfl⟩ := singleState_cases h
  exact outputOrParam_cases _

theorem derDecSig_cases {s s' : State} (h : derDecSigBody s = some s') : TurnCases .derDecSig s s' := by
  obtain ⟨_, rfl⟩ := singleState_cases h
  unfold derDecSigRun
  split
  · exact .failed .encoding s.tmp s.hi s.rng s.domok (.inl rfl) (.inl rfl) s.result (.inl rfl)
  · exact .ended _ (Ended.setReg _ (by simp [writes]) (Ended.setReg _ (by simp [writes]) (Ended.refl _ s) rfl) rfl)

theorem derEncCt_cases {s s' : State} (h : derEncCtBody s = some s') : TurnCases .derEncCt s s' := by
  obtain ⟨_, rfl⟩ := singleState_cases h
  unfold derEncCtRun
  split
  · exact .failed .encoding s.tmp s.hi s.rng s.domok (.inl rfl) (.inl rfl) s.result (.inl rfl)
  · exact outputOrParam_cases _

theorem derDecCt_cases {s s' : State} (h : derDecCtBody s = some s') : TurnCases .derDecCt s s' := by
  obtain ⟨_, rfl⟩ := singleState_cases h
  unfold derDecCtRun
  split
  · exact .failed .encoding s.tmp s.hi s.rng s.domok (.inl rfl) (.inl rfl) s.result (.inl rfl)
  · exact outputOrParam_cases _

theorem keyDecPub_cases {s s' : State} (h : keyDecPubBody s = some s') : TurnCases .keyDecPub s s' := by
  obtain ⟨_, rfl⟩ := singleState_cases h
  unfold keyDecPubRun
  split
  · exact .failed .encoding s.tmp s.hi s.rng s.domok (.inl rfl) (.inl rfl) s.result (.inl rfl)
  · exact .ended _ (Ended.setPubKey _ (by simp [writes]) (by simp [writes]) (Ended.refl _ s) rfl)

theorem keyDecRaw_cases {s s' : State} (h : keyDecRawBody s = some s') : TurnCases .keyDecRaw s s' := by
  obtain ⟨_, rfl⟩ := singleState_cases h
  exact .ended _ (Ended.setPubKey _ (by simp [writes]) (by simp [writes]) (Ended.refl _ s) rfl)

theorem keyDecPriv_cases {s s' : State} (h : keyDecPrivBody s = some s') : TurnCases .keyDecPriv s s' := by
  obtain ⟨_, rfl⟩ := singleState_cases h
  exact .ended _ (Ended.setReg _ (by simp [writes]) (Ended.refl _ s) rfl)

/-- The run states of every command. -/
theorem body_cases {i : Instr} {s s' : State} (h : body i s = some s') : TurnCases i s s' := by
  cases i with
  | hReset c => exact hReset_cases c h
  | hUpdate c => exact hUpdate_cases c h
  | hFinal c => exact hFinal_cases c h
  | hDigest c => exact hDigest_cases c h
  | domCheck => exact domCheck_cases h
  | keygen => exact keygen_cases h
  | pubkey => exact pubkey_cases h
  | kdf => exact kdf_cases h
  | sign => exact sign_cases rfl rfl h
  | signU => exact sign_cases rfl rfl h
  | verify => exact verify_cases rfl h
  | verifyU => exact verify_cases rfl h
  | encrypt => exact encrypt_cases h
  | decrypt => exact decrypt_cases h
  | derEncSig => exact derEncSig_cases h
  | derDecSig => exact derDecSig_cases h
  | derEncCt => exact derEncCt_cases h
  | derDecCt => exact derDecCt_cases h
  | keyEncPub => obtain ⟨_, rfl⟩ := singleState_cases h; exact .ended _ (Ended.ofOutput _)
  | keyEncRaw => obtain ⟨_, rfl⟩ := singleState_cases h; exact .ended _ (Ended.ofOutput _)
  | keyEncPriv => obtain ⟨_, rfl⟩ := singleState_cases h; exact .ended _ (Ended.ofOutput _)
  | keyDecPub => exact keyDecPub_cases h
  | keyDecRaw => exact keyDecRaw_cases h
  | keyDecPriv => exact keyDecPriv_cases h

theorem headD_mem_path (i : Instr) : (path i).headD .finish ∈ path i := by
  cases i <;> simp [path]

/-- The inversion of a turn: whatever a turn of the sequencer does is one of the cases. -/
theorem turn_cases {i : Instr} {s s' : State} (h : turn i s = some s') : TurnCases i s s' := by
  unfold turn phase at h
  split at h
  · cases h
  · split at h
    · split at h
      · cases h
        exact .failed _ s.tmp s.hi s.rng s.domok (.inl rfl) (.inl rfl) s.result (.inl rfl)
      · cases h
        exact .moved _ s.tmp s.hi s.rng (headD_mem_path i) (.inl rfl)
    · split at h
      · cases h
        exact .ended s (Ended.refl i s)
      · exact body_cases h

end Sys2Proof.Machine
end

