-- ==== Sys2Proof/Laws/Run.lean ====
section
/-! SUPPORT. A run is made of turns: every turn uses fuel, so a run stops only where there is no move; a run may be taken
turn by turn; and what every turn keeps, every run keeps. -/

namespace Sys2Proof.Machine

theorem exec_eq (i : Instr) (s : State) : exec i s = runCommand i (body i) s := by cases i <;> rfl

theorem turn_body {i : Instr} {s : State} (h1 : s.seq ≠ .idle) (h2 : s.seq ≠ .check) (h3 : s.seq ≠ .finish) :
    turn i s = body i s := by
  simp [turn, phase, h1, h2, h3]

theorem turn_check {i : Instr} {s : State} (h : s.seq = .check) :
    turn i s = match firstFailing (checks i s) with
      | some k => some (raise (destinations i) k s)
      | none => some (enterRun i s) := by
  cases hf : firstFailing (checks i s) <;> simp [turn, phase, h, hf]

theorem turn_idle {i : Instr} {s : State} (h : s.seq = .idle) : turn i s = none := by simp [turn, phase, h]

theorem turn_finish {i : Instr} {s : State} (h : s.seq = .finish) : turn i s = some (finish s) := by
  simp [turn, phase, h]

theorem owns_of_mem {i : Instr} {q : Seq} (h : q ∈ path i) : owns i q = true := by simp [owns, h]

@[simp] theorem owns_idle (i : Instr) : owns i .idle = true := by simp [owns]

@[simp] theorem owns_check (i : Instr) : owns i .check = true := by simp [owns]

/-- A turn stays on the path of its command. -/
theorem turn_owns {i : Instr} {s s' : State} (h : turn i s = some s') : owns i s'.seq = true := by
  cases turn_cases h with
  | moved q t x r hq _ => exact owns_of_mem hq
  | failed k t x r d _ _ b _ => rw [raise_seq]; exact owns_idle i
  | ended s1 _ => rw [complete_seq]; exact owns_idle i

@[simp] theorem raise_fuel (ds : List OpReg) (k : ErrKind) (s : State) : (raise ds k s).fuel = 16 * s.rng.length := by
  simp [State.fuel, raise_eq, Seq.rank]

@[simp] theorem complete_fuel (s : State) : (complete s).fuel = 16 * s.rng.length := by
  simp [State.fuel, Seq.rank]

/-- A draw uses fuel, when the state it leads to is not much higher. -/
theorem drawScalar_fuel {i : Instr} {use : Nat → State → State} {s s' : State} (h : drawScalar i use s = some s')
    (hs : 0 < s.seq.rank) (huse : ∀ d u, (use d u).rng = u.rng ∧ (use d u).seq.rank ≤ s.seq.rank + 15) :
    s'.fuel < s.fuel := by
  unfold drawScalar at h
  dsimp only at h
  split at h
  · cases h
    rw [raise_fuel, State.fuel]
    dsimp only
    omega
  · split at h
    · cases h
    · rename_i rest he
      cases h
      rw [raise_fuel, State.fuel, he, List.length_cons]
      dsimp only
      omega
    · rename_i v rest he
      split at h
      · cases h
        rw [State.fuel, State.fuel, he, List.length_cons]
        dsimp only
        omega
      · cases h
        rw [State.fuel, State.fuel, he, List.length_cons, (huse _ _).1]
        have := fun u => (huse (v % s.regs.domN) u).2
        dsimp only
        refine lt_of_le_of_lt (Nat.add_le_add_right (this _) _) ?_
        omega

theorem outputOrParam_fuel (i : Instr) (d : Bytes) (s : State) : (outputOrParam i d s).fuel = 16 * s.rng.length := by
  unfold outputOrParam
  split
  · simp
  · simp

/-- A turn that ends a command uses fuel. -/
theorem fuel_lt_of_ended {s s' : State} (hs : 0 < s.seq.rank) (h : s'.fuel = 16 * s.rng.length) : s'.fuel < s.fuel := by
  rw [h, State.fuel]; omega

theorem singleState_fuel {q : Seq} {act : State → State} {s s' : State} (h : singleState q act s = some s')
    (hq : 0 < q.rank) (ha : (act s).fuel = 16 * s.rng.length) : s'.fuel < s.fuel := by
  obtain ⟨hs, rfl⟩ := singleState_cases h
  exact fuel_lt_of_ended (hs ▸ hq) ha

theorem vfEnd_fuel (b : Bool) (s : State) : (vfEnd b s).fuel = 16 * s.rng.length := by simp [vfEnd]

theorem signStates_fuel {i : Instr} {u : Bool} {s s' : State} (h : signStates i u s = some s') : s'.fuel < s.fuel := by
  unfold signStates at h
  split at h <;> rename_i hq
  · cases h; simp [State.fuel, hq, sgPub, Seq.rank]
  · cases h; simp [State.fuel, hq, sgZ, computeZ, Seq.rank]
  · cases h; simp [State.fuel, hq, sgE, computeE, Seq.rank]
  · exact drawScalar_fuel h (by simp [hq, Seq.rank]) fun d v => ⟨rfl, by simp [sgAccept, hq, Seq.rank]⟩
  · cases h; simp [State.fuel, hq, sgPoint, Seq.rank]
  · cases h; simp only [State.fuel, hq, sgR]; split <;> simp [Seq.rank]
  · cases h; simp only [State.fuel, hq, sgS]; split <;> simp [Seq.rank]
  · cases h; exact fuel_lt_of_ended (by simp [hq, Seq.rank]) (by simp [sgOut])
  · cases h

theorem verifyStates_fuel {u : Bool} {s s' : State} (h : verifyStates u s = some s') : s'.fuel < s.fuel := by
  unfold verifyStates at h
  split at h <;> rename_i hq
  · cases h
    unfold vfRange
    split
    · exact fuel_lt_of_ended (by simp [hq, Seq.rank]) (vfEnd_fuel _ _)
    · simp [State.fuel, hq, Seq.rank]
  · cases h; simp [State.fuel, hq, vfZ, computeZ, Seq.rank]
  · cases h; simp [State.fuel, hq, vfE, computeE, Seq.rank]
  · cases h
    unfold vfT
    dsimp only
    split
    · exact fuel_lt_of_ended (by simp [hq, Seq.rank]) (vfEnd_fuel _ _)
    · simp [State.fuel, hq, Seq.rank]
  · cases h
    unfold vfPoint
    dsimp only
    split
    · exact fuel_lt_of_ended (by simp [hq, Seq.rank]) (vfEnd_fuel _ _)
    · simp [State.fuel, hq, Seq.rank]
  · cases h; exact fuel_lt_of_ended (by simp [hq, Seq.rank]) (vfEnd_fuel _ _)
  · cases h

theorem keygenBody_fuel {s s' : State} (h : keygenBody s = some s') : s'.fuel < s.fuel := by
  unfold keygenBody at h
  split at h <;> rename_i hq
  · exact drawScalar_fuel h (by simp [hq, Seq.rank]) fun d v => ⟨rfl, by simp [kgAccept, hq, Seq.rank]⟩
  · cases h; exact fuel_lt_of_ended (by simp [hq, Seq.rank]) (by simp [kgPub])
  · cases h

theorem encryptBody_fuel {s s' : State} (h : encryptBody s = some s') : s'.fuel < s.fuel := by
  unfold encryptBody at h
  split at h <;> rename_i hq
  · exact drawScalar_fuel h (by simp [hq, Seq.rank]) fun d v => ⟨rfl, by simp [enAccept, hq, Seq.rank]⟩
  · cases h; simp [State.fuel, hq, enPoint, Seq.rank]
  · cases h; simp only [State.fuel, hq, enKdf]; split <;> simp [Seq.rank]
  · cases h; simp [State.fuel, hq, enTag, Seq.rank]
  · cases h; exact fuel_lt_of_ended (by simp [hq, Seq.rank]) (by simp [enOut])
  · cases h

theorem decryptBody_fuel {s s' : State} (h : decryptBody s = some s') : s'.fuel < s.fuel := by
  unfold decryptBody at h
  split at h <;> rename_i hq
  · cases h
    unfold deParse
    split
    · exact fuel_lt_of_ended (by simp [hq, Seq.rank]) (raise_fuel _ _ _)
    · simp [State.fuel, hq, Seq.rank]
  · cases h
    unfold deCof
    split
    · exact fuel_lt_of_ended (by simp [hq, Seq.rank]) (raise_fuel _ _ _)
    · simp [State.fuel, hq, Seq.rank]
  · cases h; simp [State.fuel, hq, deShare, Seq.rank]
  · cases h; simp [State.fuel, hq, deKdf, Seq.rank]
  · cases h
    unfold deTag
    dsimp only
    split
    · exact fuel_lt_of_ended (by simp [hq, Seq.rank]) (raise_fuel _ _ _)
    · simp [State.fuel, hq, Seq.rank]
  · cases h; exact fuel_lt_of_ended (by simp [hq, Seq.rank]) (by simp [deOut])
  · cases h

theorem body_fuel {i : Instr} {s s' : State} (h : body i s = some s') : s'.fuel < s.fuel := by
  cases i with
  | hReset c => exact singleState_fuel h (by decide) (by simp [hResetRun])
  | hUpdate c => exact singleState_fuel h (by decide) (by simp [hUpdateRun])
  | hFinal c => exact singleState_fuel h (by decide) (by simp [hFinalRun])
  | hDigest c => exact singleState_fuel h (by decide) (by simp [hDigestRun])
  | domCheck => exact singleState_fuel h (by decide) (by unfold domCheckRun; dsimp only; split <;> simp)
  | keygen => exact keygenBody_fuel h
  | pubkey => exact singleState_fuel h (by decide) (by simp [pubkeyRun])
  | kdf => exact singleState_fuel h (by decide) (by simp [kdfRun])
  | sign => exact signStates_fuel h
  | signU => exact signStates_fuel h
  | verify => exact verifyStates_fuel h
  | verifyU => exact verifyStates_fuel h
  | encrypt => exact encryptBody_fuel h
  | decrypt => exact decryptBody_fuel h
  | derEncSig => exact singleState_fuel h (by decide) (outputOrParam_fuel _ _ _)
  | derDecSig => exact singleState_fuel h (by decide) (by unfold derDecSigRun; split <;> simp)
  | derEncCt => exact singleState_fuel h (by decide) (by unfold derEncCtRun; split <;> simp [outputOrParam_fuel])
  | derDecCt => exact singleState_fuel h (by decide) (by unfold derDecCtRun; split <;> simp [outputOrParam_fuel])
  | keyEncPub => exact singleState_fuel h (by decide) (by simp [keyEncRun])
  | keyEncRaw => exact singleState_fuel h (by decide) (by simp [keyEncRun])
  | keyEncPriv => exact singleState_fuel h (by decide) (by simp [keyEncRun])
  | keyDecPub => exact singleState_fuel h (by decide) (by unfold keyDecPubRun; split <;> simp)
  | keyDecRaw => exact singleState_fuel h (by decide) (by simp [keyDecRawRun])
  | keyDecPriv => exact singleState_fuel h (by decide) (by simp [keyDecPrivRun])

/-- Every turn uses fuel. -/
theorem turn_fuel {i : Instr} {s s' : State} (h : turn i s = some s') : s'.fuel < s.fuel := by
  by_cases h1 : s.seq = .idle
  · rw [turn_idle h1] at h; cases h
  · by_cases h2 : s.seq = .check
    · rw [turn_check h2] at h
      split at h
      · cases h; exact fuel_lt_of_ended (by simp [h2, Seq.rank]) (raise_fuel _ _ _)
      · cases h
        have : ((path i).headD .finish).rank < 10 := by cases i <;> simp [path, Seq.rank]
        simp only [State.fuel, enterRun_seq, enterRun_rng, h2, show Seq.check.rank = 10 from rfl]
        omega
    · by_cases h3 : s.seq = .finish
      · rw [turn_finish h3] at h
        cases h
        simp [State.fuel, h3, Seq.rank]
      · rw [turn_body h1 h2 h3] at h
        exact body_fuel h

/-- With enough fuel a run does not depend on it. -/
theorem runTurns_enough {i : Instr} {s : State} {n m : Nat} (hn : s.fuel ≤ n) (hm : s.fuel ≤ m) :
    runTurns (turn i) n s = runTurns (turn i) m s := by
  induction n generalizing s m with
  | zero =>
    cases m with
    | zero => rfl
    | succ m =>
      cases ht : turn i s with
      | none => simp [runTurns, ht]
      | some s' => have := turn_fuel ht; omega
  | succ n ih =>
    cases ht : turn i s with
    | none => cases m <;> simp [runTurns, ht]
    | some s' =>
      have := turn_fuel ht
      cases m with
      | zero => omega
      | succ m =>
        rw [runTurns, runTurns, ht]
        exact ih (by omega) (by omega)

theorem exec_next {i : Instr} {s : State} (h : owns i s.seq = true) : exec i s = .next (runTurns (turn i) s.fuel s) := by
  rw [exec_eq, runCommand, if_pos h]; rfl

theorem exec_next_iff {i : Instr} {s t : State} :
    exec i s = .next t ↔ owns i s.seq = true ∧ t = runTurns (turn i) s.fuel s := by
  rw [exec_eq, runCommand]
  split
  · rename_i h
    simp only [h, true_and, Host.Outcome.next.injEq]
    exact eq_comm
  · rename_i h
    simp [h]

/-- A command may be run turn by turn (70 R293). -/
theorem exec_of_turn {i : Instr} {s s' : State} (ho : owns i s.seq = true) (h : turn i s = some s') :
    exec i s = exec i s' := by
  have hf := turn_fuel h
  rw [exec_next ho, exec_next (turn_owns h)]
  cases hs : s.fuel with
  | zero => omega
  | succ n =>
    rw [runTurns, h]
    exact congrArg _ (runTurns_enough (by omega) (Nat.le_refl _))

/-- Where there is no move the run is over. -/
theorem exec_of_none {i : Instr} {s : State} (ho : owns i s.seq = true) (h : turn i s = none) : exec i s = .next s := by
  rw [exec_next ho]
  cases s.fuel with
  | zero => rfl
  | succ n => simp [runTurns, h]

/-- What every turn keeps, a run keeps. -/
theorem runTurns_keeps {i : Instr} {P : State → Prop} (hP : ∀ s s', P s → turn i s = some s' → P s') {n : Nat} {s : State}
    (h : P s) : P (runTurns (turn i) n s) := by
  induction n generalizing s with
  | zero => exact h
  | succ n ih =>
    rw [runTurns]
    split
    · exact h
    · rename_i s' ht; exact ih (hP s s' h ht)

/-- What every turn keeps, `exec` keeps. -/
theorem exec_keeps {i : Instr} {P : State → Prop} (hP : ∀ s s', P s → turn i s = some s' → P s') {s t : State} (h : P s)
    (he : exec i s = .next t) : P t := by
  obtain ⟨_, rfl⟩ := exec_next_iff.1 he
  exact runTurns_keeps hP h

/-- A relation to the start that every turn extends holds between the start and the end of a run. -/
theorem exec_relates {i : Instr} {R : State → State → Prop} (hr : ∀ s, R s s)
    (hR : ∀ s s' t, turn i s = some s' → R s' t → R s t) {s t : State} (he : exec i s = .next t) : R s t := by
  obtain ⟨_, rfl⟩ := exec_next_iff.1 he
  clear he
  generalize s.fuel = n
  induction n generalizing s with
  | zero => exact hr s
  | succ n ih =>
    rw [runTurns]
    split
    · exact hr s
    · rename_i s' ht
      exact hR s s' _ ht (ih (turn_owns ht))

theorem runTurns_ends {i : Instr} {n : Nat} {s : State} (h : s.fuel ≤ n) : turn i (runTurns (turn i) n s) = none := by
  induction n generalizing s with
  | zero =>
    cases ht : turn i s with
    | none => exact ht
    | some s' => have := turn_fuel ht; omega
  | succ n ih =>
    rw [runTurns]
    split
    · assumption
    · rename_i s' ht
      have := turn_fuel ht
      exact ih (by omega)

/-- A run goes on until there is no move. -/
theorem exec_ends {i : Instr} {s t : State} (h : exec i s = .next t) : turn i t = none := by
  obtain ⟨_, rfl⟩ := exec_next_iff.1 h
  exact runTurns_ends (Nat.le_refl _)

theorem exec_owns {i : Instr} {s t : State} (h : exec i s = .next t) : owns i t.seq = true := by
  have ho := (exec_next_iff.1 h).1
  exact exec_keeps (P := fun s => owns i s.seq = true) (fun _ _ _ ht => turn_owns ht) ho h

theorem drawScalar_none {i : Instr} {use : Nat → State → State} {s : State} (h : drawScalar i use s = none) :
    s.rng = [] ∧ overLimit s.cfg.retryLimit (s.tmp.tries + 1) = false := by
  unfold drawScalar at h
  dsimp only at h
  split at h
  · cases h
  · rename_i hl
    split at h
    · exact ⟨by assumption, by simpa using hl⟩
    · cases h
    · split at h <;> cases h

theorem body_none {i : Instr} {s : State} (hp : s.seq ∈ path i) (h : body i s = none) :
    drawState i = some s.seq ∧ s.rng = [] ∧ overLimit s.cfg.retryLimit (s.tmp.tries + 1) = false := by
  cases i with
  | keygen =>
    simp only [path, List.mem_cons, List.not_mem_nil, or_false] at hp
    rcases hp with hq | hq <;> simp only [body, keygenBody, hq] at h
    · exact ⟨by rw [hq]; rfl, drawScalar_none h⟩
    · cases h
  | sign =>
    simp only [path, List.mem_cons, List.not_mem_nil, or_false] at hp
    rcases hp with hq | hq | hq | hq | hq | hq | hq | hq <;> simp only [body, signBody, signStates, hq] at h <;>
      first | cases h | exact ⟨by rw [hq]; rfl, drawScalar_none h⟩
  | signU =>
    simp only [path, List.mem_cons, List.not_mem_nil, or_false] at hp
    rcases hp with hq | hq | hq | hq | hq | hq | hq | hq <;> simp only [body, signUBody, signStates, hq] at h <;>
      first | cases h | exact ⟨by rw [hq]; rfl, drawScalar_none h⟩
  | encrypt =>
    simp only [path, List.mem_cons, List.not_mem_nil, or_false] at hp
    rcases hp with hq | hq | hq | hq | hq <;> simp only [body, encryptBody, hq] at h <;>
      first | cases h | exact ⟨by rw [hq]; rfl, drawScalar_none h⟩
  | verify =>
    simp only [path, List.mem_cons, List.not_mem_nil, or_false] at hp
    rcases hp with hq | hq | hq | hq | hq | hq <;> simp [body, verifyBody, verifyStates, hq] at h
  | verifyU =>
    simp only [path, List.mem_cons, List.not_mem_nil, or_false] at hp
    rcases hp with hq | hq | hq | hq | hq | hq <;> simp [body, verifyUBody, verifyStates, hq] at h
  | decrypt =>
    simp only [path, List.mem_cons, List.not_mem_nil, or_false] at hp
    rcases hp with hq | hq | hq | hq | hq | hq <;> simp [body, decryptBody, hq] at h
  | _ =>
    simp only [path, List.mem_cons, List.not_mem_nil, or_false] at hp
    simp [body, hResetBody, hUpdateBody, hFinalBody, hDigestBody, domCheckBody, pubkeyBody, kdfBody, derEncSigBody,
      derDecSigBody, derEncCtBody, derDecCtBody, keyEncPubBody, keyEncRawBody, keyEncPrivBody, keyDecPubBody,
      keyDecRawBody, keyDecPrivBody, singleState, hp] at h

/-- There is no move only in `IDLE`, or where a draw waits for the RNG port (70 R290). -/
theorem turn_none {i : Instr} {s : State} (ho : owns i s.seq = true) (h : turn i s = none) :
    s.seq = .idle ∨
      drawState i = some s.seq ∧ s.rng = [] ∧ overLimit s.cfg.retryLimit (s.tmp.tries + 1) = false := by
  by_cases h1 : s.seq = .idle
  · exact .inl h1
  · by_cases h2 : s.seq = .check
    · rw [turn_check h2] at h
      split at h <;> cases h
    · by_cases h3 : s.seq = .finish
      · rw [turn_finish h3] at h; cases h
      · rw [turn_body h1 h2 h3] at h
        refine .inr (body_none ?_ h)
        simpa [owns, h1, h2, h3] using ho

/-- A command that passes its pre-checks enters its path (30 R84 (2)). -/
theorem exec_enter {i : Instr} {s : State} (hs : s.seq = .check) (h : firstFailing (checks i s) = none) :
    exec i s = exec i (enterRun i s) := by
  refine exec_of_turn (by rw [hs]; exact owns_check i) ?_
  rw [turn_check hs, h]

theorem exec_idle {i : Instr} {s : State} (h : s.seq = .idle) : exec i s = .next s :=
  exec_of_none (by rw [h]; exact owns_idle i) (turn_idle h)

/-- A command whose one run state ends it: the pre-checks pass, and the command is done. -/
theorem exec_single {i : Instr} {s t : State} (hs : s.seq = .check) (h : firstFailing (checks i s) = none)
    (hb : body i (enterRun i s) = some t) (ht : t.seq = .idle) : exec i s = .next t := by
  rw [exec_enter hs h]
  have hp : (enterRun i s).seq ∈ path i := headD_mem_path i
  have hne : ∀ q ∈ path i, q ≠ .idle ∧ q ≠ .check ∧ q ≠ .finish := by cases i <;> simp [path]
  have hq := hne _ hp
  rw [exec_of_turn (owns_of_mem hp) ((turn_body hq.1 hq.2.1 hq.2.2).trans hb), exec_idle ht]

/-- A failed pre-check ends the command (60 R256, R260). -/
theorem exec_failedCheck {i : Instr} {s : State} {k : ErrKind} (hs : s.seq = .check)
    (h : firstFailing (checks i s) = some k) : exec i s = .next (raise (destinations i) k s) := by
  rw [exec_of_turn (by rw [hs]; exact owns_check i) (by rw [turn_check hs, h]), exec_idle (raise_seq _ _ _)]

end Sys2Proof.Machine
end

