-- ==== Sys2Proof/Tests/Slice0.lean ====
section
/-! SUPPORT. The model's own tests: ill-formed commands, words written out from 30 R83, one or two small steps for each
command with results from 95_test_vectors.md, and a witness for the premises of each obligation. -/

namespace Sys2Proof.Tests

open Sys2Proof Sys2Proof.Machine

set_option Elab.async false

/-! Helpers. -/

/-- The toy domain `T` of 95_test_vectors.md. -/
def toy : Domain := ⟨251, 4, 3, 4, 121, 233, 8⟩

/-- The default parameters with `T` as `DEFAULT_DOMAIN`. -/
def toyParams : Config.Params := { Config.default with defaultDomain := toy }

/-- The reset state on `T`, with the key pair of V-T-1 in the key registers. -/
def keyed : State :=
  let s := State.resetWith toyParams
  { s with regs := { s.regs with keyD := 2, keyQx := 233, keyQy := 226 } }

/-- A state with `b` in `MSGBUF` and its length in `MLEN`. -/
def holding (b : Bytes) (s : State) : State :=
  { s with mem := memSetBytes s.mem 0x100000 b, mlen := BitVec.ofNat 32 b.length }

/-- A state whose RNG port gives the values `vs`. -/
def answering (vs : List Nat) (s : State) : State := { s with rng := vs.map RngAnswer.value }

/-- A state with a signature in the registers. -/
def signed (r v : Nat) (s : State) : State := { s with regs := { s.regs with sigR := r, sigS := v } }

/-- Command `i`, issued in `s`, answers a next state with the property `p`. -/
def runs (i : Instr) (s : State) (p : State → Bool) : Bool :=
  match exec i (issue (encode i) s) with
  | .next t => p t
  | .fault _ => false
  | .refused _ => false

/-- What `OUTBUF` shows: the bytes below `OLEN`. -/
def shown (s : State) : Bytes := memGetBytes s.mem 0x200000 s.olen.toNat

/-- A run that answers has an answer. -/
theorem runs_next {i : Instr} {s : State} {p : State → Bool} (h : runs i s p = true) :
    ∃ t, exec i (issue (encode i) s) = .next t ∧ p t = true := by
  unfold runs at h
  split at h
  · exact ⟨_, by assumption, h⟩
  · cases h
  · cases h

/-- The message "abc". -/
def abc : Bytes := [0x61, 0x62, 0x63]

/-- `SM3("abc")` (V-H-1). -/
def abcDigest : Bytes := be 32 0x66c7f0f462eeedd9d1f2d46bdc10e4e24167c4875cf2f7a2297da02b8f4ba8e0

/-- The message "m1" of V-T-2. -/
def m1 : Bytes := [0x6d, 0x31]

/-- The flat ciphertext of V-T-4. -/
def toyFlat : Bytes :=
  [0x04, 0x1d, 0x65, 0x3c] ++ be 32 0x4cdf82011823890545ef88fc2382c5e993ae75c2bb46f02a09ba8aaab572df8b

/-- The structured ciphertext of V-D-9. -/
def toyDer : Bytes :=
  [0x30, 0x2b, 0x02, 0x01, 0x1d, 0x02, 0x01, 0x65, 0x04, 0x20]
    ++ be 32 0x4cdf82011823890545ef88fc2382c5e993ae75c2bb46f02a09ba8aaab572df8b ++ [0x04, 0x01, 0x3c]

/-! WellFormed: the one field a command can carry is checked. -/

theorem test_wellFormed_refuses :
    Instr.WellFormed 4 (.hReset 4) = false ∧ Instr.WellFormed 4 (.hUpdate 4) = false
      ∧ Instr.WellFormed 4 (.hFinal 15) = false ∧ Instr.WellFormed 1 (.hDigest 1) = false
      ∧ Instr.WellFormed 4 (.hReset 3) = true ∧ Instr.WellFormed 4 .keyDecPriv = true := by decide

/-! Decoding: words written out from the fields of 30 R80 (reserved 31:16, F 15:12, CTX 11:8, OP 7:0) and R83. -/

theorem test_decode_hash :
    decode 4 0b0000000000000000_0000_0000_00000001#32 = some (.hReset 0)
      ∧ decode 4 0b0000000000000000_0000_0011_00000010#32 = some (.hUpdate 3)
      ∧ decode 4 0b0000000000000000_0000_0001_00000011#32 = some (.hFinal 1)
      ∧ decode 4 0b0000000000000000_0000_0010_00000100#32 = some (.hDigest 2)
      ∧ decode 16 0b0000000000000000_0000_1111_00000001#32 = some (.hReset 15) := by decide

theorem test_decode_domain :
    decode 4 0b0000000000000000_0000_0000_00010000#32 = some .domCheck
      ∧ decode 4 0b0000000000000000_0000_0000_00010001#32 = some .keygen
      ∧ decode 4 0b0000000000000000_0000_0000_00010010#32 = some .pubkey
      ∧ decode 4 0b0000000000000000_0000_0000_00011000#32 = some .kdf := by decide

theorem test_decode_signature :
    decode 4 0b0000000000000000_0000_0000_00100000#32 = some .sign
      ∧ decode 4 0b0000000000000000_0001_0000_00100000#32 = some .signU
      ∧ decode 4 0b0000000000000000_0000_0000_00100001#32 = some .verify
      ∧ decode 4 0b0000000000000000_0001_0000_00100001#32 = some .verifyU := by decide

theorem test_decode_encryption :
    decode 4 0b0000000000000000_0000_0000_00101000#32 = some .encrypt
      ∧ decode 4 0b0000000000000000_0000_0000_00101001#32 = some .decrypt := by decide

theorem test_decode_der :
    decode 4 0b0000000000000000_0000_0000_00110000#32 = some .derEncSig
      ∧ decode 4 0b0000000000000000_0000_0000_00110001#32 = some .derDecSig
      ∧ decode 4 0b0000000000000000_0000_0000_00110010#32 = some .derEncCt
      ∧ decode 4 0b0000000000000000_0000_0000_00110011#32 = some .derDecCt := by decide

theorem test_decode_keys :
    decode 4 0b0000000000000000_0000_0000_00111000#32 = some .keyEncPub
      ∧ decode 4 0b0000000000000000_0001_0000_00111000#32 = some .keyEncRaw
      ∧ decode 4 0b0000000000000000_0010_0000_00111000#32 = some .keyEncPriv
      ∧ decode 4 0b0000000000000000_0000_0000_00111001#32 = some .keyDecPub
      ∧ decode 4 0b0000000000000000_0001_0000_00111001#32 = some .keyDecRaw
      ∧ decode 4 0b0000000000000000_0010_0000_00111001#32 = some .keyDecPriv := by decide

/-- The illegal words of V-X-1 and V-K-11. -/
theorem test_decode_illegal :
    decode 4 0x00000000 = none ∧ decode 4 0x00000005 = none ∧ decode 4 0x00010001 = none ∧ decode 4 0x00000110 = none
      ∧ decode 4 0x00000401 = none ∧ decode 4 0x00001028 = none ∧ decode 4 0x00002020 = none
      ∧ decode 4 0x00003039 = none ∧ decode 4 0x00003038 = none := by decide

/-- V-X-1: the step that runs the word 0x00000005 from reset ends with STATUS 0x16 and ERRCODE 5. -/
theorem test_illegal_word_runs :
    (match step (State.reset.withFetchWord 32 5) with
      | .next t => busRead t 0x08 = 0x16 && t.errcode = 5 && t.errlog = 0x20
      | .fault _ => false
      | .refused _ => false) = true := by decide +kernel

/-! Commands. Results from 95_test_vectors.md. -/

/-- 40 R115: the context holds the initial value again. -/
theorem test_hReset :
    runs (.hReset 1) { keyed with hc := keyed.hc.set 1 (absorb HashCtx.init abc) }
      (fun t => hashCtx 1 t = ⟨Words8.iv, [], 0⟩ && busRead t 0x08 = 0x12) = true := by decide +kernel

/-- 40 R117 example: three pending bytes, 0x18 bits. -/
theorem test_hUpdate :
    runs (.hUpdate 3) (holding abc keyed)
      (fun t => hashCtx 3 t = ⟨Words8.iv, abc, 0x18⟩ && hashCtx 0 t = HashCtx.init) = true := by decide +kernel

/-- 40 R116 example: a whole block is compressed. -/
theorem test_hUpdate_block :
    runs (.hUpdate 0) (holding (List.replicate 16 [0x61, 0x62, 0x63, 0x64]).flatten keyed)
      (fun t => (hashCtx 0 t).v.a = 0x5950de81 && (hashCtx 0 t).v.h = 0x763ca222 && (hashCtx 0 t).cnt = 0x200) = true := by
  decide +kernel

/-- V-H-1, 40 R117: the digest of "abc"; the context stays. -/
theorem test_hFinal :
    runs (.hFinal 0) { keyed with hc := keyed.hc.set 0 (absorb HashCtx.init abc) }
      (fun t => shown t = abcDigest && (hashCtx 0 t).buf = abc) = true := by decide +kernel

/-- V-H-1, 40 R118. -/
theorem test_hDigest :
    runs (.hDigest 1) (holding abc keyed)
      (fun t => shown t = abcDigest && hashCtx 0 t = HashCtx.init && (hashCtx 1 t).buf = abc) = true := by decide +kernel

/-- V-T-1: the toy domain is valid. -/
theorem test_domCheck :
    runs .domCheck { keyed with domok := false } (fun t => busRead t 0x08 = 0x1A) = true := by decide +kernel

/-- V-DOM-2: `T` with P = 249 is not. -/
theorem test_domCheck_composite :
    runs .domCheck { keyed with regs := { keyed.regs with domP := 249 } }
      (fun t => busRead t 0x08 = 0x06 && t.errcode = 2) = true := by decide +kernel

/-- V-KEY-2 on `T`: the draw 0 is rejected, the draw 1 gives the base point. -/
theorem test_keygen :
    runs .keygen (answering [0, 1] keyed)
      (fun t => t.regs.keyD = 1 && t.pubKey = ⟨4, 121⟩ && t.rng = [] && busRead t 0x08 = 0x12) = true := by decide +kernel

/-- V-KEY-2: the port fails, and the key registers are 0. -/
theorem test_keygen_fails :
    runs .keygen { keyed with rng := [.fail] }
      (fun t => t.regs.keyD = 0 && t.pubKey = ⟨0, 0⟩ && t.errcode = 1) = true := by decide +kernel

/-- V-T-1: the public key of 2. -/
theorem test_pubkey :
    runs .pubkey { keyed with regs := { keyed.regs with keyQx := 0, keyQy := 0 } }
      (fun t => t.pubKey = ⟨233, 226⟩) = true := by decide +kernel

/-- V-KEY-1: `KEY_D = N` is refused and changes nothing. -/
theorem test_pubkey_range :
    runs .pubkey { keyed with regs := { keyed.regs with keyD := 233 } }
      (fun t => t.errcode = 6 && t.pubKey = ⟨233, 226⟩) = true := by decide +kernel

/-- V-KDF-1: 33 bytes need two counters. -/
theorem test_kdf :
    runs .kdf { keyed with klen := 33, regs := { keyed.regs with kdfZx := 1, kdfZy := 2 } }
      (fun t => shown t = be 33 0x02db73736665f3c8ec09887772c33da737047e7419ef8abd4d3c7d80019ff1aefb) = true := by
  decide +kernel

/-- V-KDF-1: zero coordinates contribute nothing. -/
theorem test_kdf_zero :
    runs .kdf { keyed with klen := 32 }
      (fun t => shown t = be 32 0x88c0cffa4c713446a03f1fff1630aa6353bdb53e2a9272146be7a82fde06afa3) = true := by
  decide +kernel

/-- V-T-2: four retries, then the signature. -/
theorem test_sign :
    runs .sign (answering [0, 28, 128, 16, 3] (holding m1 keyed))
      (fun t => t.regs.sigR = 98 && t.regs.sigS = 91 && busRead t 0x08 = 0x12 && t.tmp = Temps.cleared) = true := by
  decide +kernel

/-- V-T-2 with `RETRY_LIMIT = 4`: the fifth draw is not made. -/
theorem test_sign_limit :
    runs .sign (answering [0, 28, 128, 16, 3]
        (holding m1 { keyed with cfg := { toyParams with retryLimit := some 4 } }))
      (fun t => t.errcode = 1 && t.regs.sigR = 0 && t.regs.sigS = 0 && t.rng = [.value 3]) = true := by decide +kernel

/-- The default identifier given through `IDBUF` signs as `SIGN` does (43 R166, V-T-2). -/
theorem test_signU :
    runs .signU (answering [3]
        { holding m1 keyed with idlen := 16, mem := memSetBytes (holding m1 keyed).mem 0x1000 Config.defaultId })
      (fun t => t.regs.sigR = 98 && t.regs.sigS = 91) = true := by decide +kernel

/-- V-SIG-11: an identifier of 8192 bytes is refused. -/
theorem test_signU_long :
    runs .signU { keyed with idlen := 8192 } (fun t => t.errcode = 6 && t.errlog = 0x40) = true := by decide +kernel

/-- V-T-3 (a). -/
theorem test_verify :
    runs .verify (signed 98 91 (holding m1 keyed)) (fun t => busRead t 0x08 = 0x1A) = true := by decide +kernel

/-- V-T-3 (b): the infinity exit. -/
theorem test_verify_infinity :
    runs .verify (signed 1 77 (holding m1 keyed)) (fun t => busRead t 0x08 = 0x12) = true := by decide +kernel

/-- V-T-3 (a) with the default identifier given through `IDBUF`. -/
theorem test_verifyU :
    runs .verifyU (signed 98 91
        { holding m1 keyed with idlen := 16, mem := memSetBytes (holding m1 keyed).mem 0x1000 Config.defaultId })
      (fun t => t.result) = true := by decide +kernel

/-- V-T-3 (c): t = 0. -/
theorem test_verifyU_zero :
    runs .verifyU (signed 1 232 (holding m1 keyed)) (fun t => !t.result && !t.err && t.done) = true := by decide +kernel

/-- V-T-4: two retries, then the ciphertext. -/
theorem test_encrypt :
    runs .encrypt (answering [0, 173, 3] (holding [0x5a] keyed)) (fun t => shown t = toyFlat && t.olen = 36) = true := by
  decide +kernel

/-- V-E-5: an empty message is refused. -/
theorem test_encrypt_empty : runs .encrypt keyed (fun t => t.errcode = 6) = true := by decide +kernel

/-- V-T-4: the plaintext comes back. -/
theorem test_decrypt : runs .decrypt (holding toyFlat keyed) (fun t => shown t = [0x5a] && t.olen = 1) = true := by
  decide +kernel

/-- V-T-4: with byte 3 changed the tag differs, and no byte is delivered. -/
theorem test_decrypt_tag :
    runs .decrypt (holding (toyFlat.set 3 0) keyed) (fun t => t.errcode = 4 && t.olen = 0 && shown t = []) = true := by
  decide +kernel

/-- V-D-2: a zero, and a top bit that needs a zero byte. -/
theorem test_derEncSig :
    runs .derEncSig (signed 0 0x80 keyed) (fun t => shown t = be 9 0x300702010002020080) = true := by decide +kernel

/-- V-D-1, backwards. -/
theorem test_derDecSig :
    runs .derDecSig (holding (be 8 0x3006020101020102) keyed) (fun t => t.regs.sigR = 1 && t.regs.sigS = 2) = true := by
  decide +kernel

/-- 45 R224: a trailing byte is refused, and the registers are 0. -/
theorem test_derDecSig_trailing :
    runs .derDecSig (signed 7 7 (holding (be 9 0x300602010102010200) keyed))
      (fun t => t.errcode = 3 && t.regs.sigR = 0 && t.regs.sigS = 0) = true := by decide +kernel

/-- V-D-9. -/
theorem test_derEncCt : runs .derEncCt (holding toyFlat keyed) (fun t => shown t = toyDer && t.olen = 45) = true := by
  decide +kernel

/-- V-D-9, backwards. -/
theorem test_derDecCt : runs .derDecCt (holding toyDer keyed) (fun t => shown t = toyFlat) = true := by decide +kernel

/-- V-D-9: a coordinate of 9 bits is refused on `T`. -/
theorem test_derDecCt_wide :
    runs .derDecCt (holding ([0x30, 0x2c, 0x02, 0x02, 0x01, 0x00] ++ toyDer.drop 5) keyed) (fun t => t.errcode = 3) = true := by
  decide +kernel

/-- V-K-9. -/
theorem test_keyEncPub : runs .keyEncPub keyed (fun t => shown t = [0x04, 0xe9, 0xe2]) = true := by decide +kernel

/-- V-K-9 without its first byte (46 R240). -/
theorem test_keyEncRaw : runs .keyEncRaw keyed (fun t => shown t = [0xe9, 0xe2]) = true := by decide +kernel

/-- V-K-10: truncated from the left. -/
theorem test_keyEncPriv :
    runs .keyEncPriv { keyed with regs := { keyed.regs with keyD := 0x1234 } } (fun t => shown t = [0x34]) = true := by
  decide +kernel

/-- V-K-9, backwards; `KEY_D` stays (V-K-5). -/
theorem test_keyDecPub :
    runs .keyDecPub (holding [0x04, 0xe9, 0xe2] { keyed with regs := { keyed.regs with keyQx := 0, keyQy := 0 } })
      (fun t => t.pubKey = ⟨233, 226⟩ && t.regs.keyD = 2) = true := by decide +kernel

/-- V-K-7 on `T`: the first byte 03 zeroes the public key. -/
theorem test_keyDecPub_first :
    runs .keyDecPub (holding [0x03, 0xe9, 0xe2] keyed) (fun t => t.errcode = 3 && t.pubKey = ⟨0, 0⟩) = true := by
  decide +kernel

/-- V-K-9 without its first byte, backwards. -/
theorem test_keyDecRaw :
    runs .keyDecRaw (holding [0xe9, 0xe2] { keyed with regs := { keyed.regs with keyQx := 0, keyQy := 0 } })
      (fun t => t.pubKey = ⟨233, 226⟩) = true := by decide +kernel

/-- V-K-8 on `T`: no range test on the private key. -/
theorem test_keyDecPriv :
    runs .keyDecPriv (holding [0xff] keyed) (fun t => t.regs.keyD = 255 && !t.err) = true := by decide +kernel

/-! The bus. -/

/-- V-X-3: the digest of "abc" written and read through the window. -/
theorem test_bus_big_endian :
    (match Host.Core.run core 5 { State.reset with
        agenda := [.host (.write 32 0x100000 0x61626300), .host (.write 32 0x18 3), .host (.write 32 0x04 4), .core,
          .host (.read 32 0x200000)] } with
      | .next t => t.reply = ⟨false, 0x66c7f0f4⟩ && busRead t 0x20001C = 0x8f4ba8e0 && busRead t 0x200020 = 0
      | .fault _ => false
      | .refused _ => false) = true := by decide +kernel

/-- V-X-5: `KEYGEN` waits for the port; a write to `MLEN` is dropped, one to `CTRL` resets. -/
theorem test_bus_busy :
    runs .keygen keyed (fun t =>
      busRead t 0x08 = 0x11 && busRead t 0x400 = 0
        && busRead (hostMove (.write 32 0x18 5) t) 0x10 = 0x80 && (hostMove (.write 32 0x18 5) t).mlen = 0
        && busRead (hostMove (.write 32 0x14 1) t) 0x08 = 0x10) = true := by decide +kernel

/-! Witnesses: for each obligation with premises, states and operands that meet all of them together, clause by clause. -/

/-- A `SIGN` on `T` that waits for its first draw, while context 1 holds "abc". -/
def drawing : State :=
  { holding m1 keyed with
    cur := 0x20, cmd := 0x20, seq := .sgDraw, hc := keyed.hc.set 1 (absorb HashCtx.init abc)
    tmp := { Temps.cleared with pp := ⟨233, 226⟩ } }

/-- An `ENCRYPT` on `T` about to write its output. -/
def writing : State :=
  { holding [0x5a] keyed with
    cur := 0x28, cmd := 0x28, seq := .enOut
    tmp := { Temps.cleared with p1 := ⟨29, 101⟩, wbuf := [0x3c], c3 := List.replicate 32 0, tries := 3 } }

/-- The capacities at their least (00 R8). -/
def smallParams : Config.Params := { toyParams with idCap := 4, msgCap := 64, outCap := 64 }

/-- `keyed` with the least capacities. -/
def small : State := { keyed with cfg := smallParams }

theorem witness_IllegalWords :
    Idle keyed ∧ IllegalWord keyed.cfg.nctx 0x00000005 ∧ IllegalWord 4 0x00010001 ∧ IllegalWord 4 0x00000110
      ∧ IllegalWord 4 0x00000401 ∧ IllegalWord 4 0x00001028 ∧ IllegalWord 4 0x00002020 ∧ IllegalWord 4 0x00003038 := by
  refine ⟨?_, ?_, ?_, ?_, ?_, ?_, ?_, ?_⟩ <;> decide

theorem witness_StepRuns :
    (drawing.seq ≠ .idle ∧ decode drawing.cfg.nctx drawing.cur = some .sign ∧ drawing.agenda = [])
      ∧ { drawing with agenda := [.core] }.agenda = .core :: []
      ∧ ({ drawing with agenda := [.tick] }.agenda = .tick :: [] ∧ owns .sign drawing.seq = true)
      ∧ (keyed.seq = .idle ∧ keyed.agenda = [])
      ∧ { keyed with agenda := [.host .rst] }.agenda = .host .rst :: []
      ∧ { drawing with agenda := [.rng .fail] }.agenda = .rng .fail :: []
      ∧ (drawing.seq = .sgDraw ∧ drawing.rng = [] ∧ overLimit drawing.cfg.retryLimit (drawing.tmp.tries + 1) = false)
      ∧ overLimit (some 4) ({ drawing.tmp with tries := 4 }.tries + 1) = true := by
  refine ⟨?_, ?_, ?_, ?_, ?_, ?_, ?_, ?_⟩ <;> decide

/-- Over `RETRY_LIMIT` no request is made, and an answer that comes is not kept for a later command (41 R137, 60 R259). -/
theorem test_late_answer :
    rngMove (.value 5) { drawing with cfg := { toyParams with retryLimit := some 4 }, tmp := { drawing.tmp with tries := 4 } }
      = { drawing with cfg := { toyParams with retryLimit := some 4 }, tmp := { drawing.tmp with tries := 4 } }
    ∧ (rngMove (.value 5) drawing).rng = [.value 5] ∧ (rngMove (.value 5) keyed).rng = [] := by decide

/-- The premises on the keys, where they are used (70 R296): a zero public key is no matter to `SIGN`, and one off the curve
is one to `VERIFY`. -/
theorem test_keysOnDomain :
    KeysOnDomain .sign { keyed with regs := { keyed.regs with keyQx := 0, keyQy := 0 } }
      ∧ KeysOnDomain .verify keyed ∧ ¬ KeysOnDomain .verify { keyed with regs := { keyed.regs with keyQx := 1 } }
      ∧ ¬ KeysOnDomain .decrypt { keyed with regs := { keyed.regs with keyD := 233 } } := by decide

theorem witness_CmdWriteIssues : keyed.seq = .idle ∧ drawing.seq ≠ .idle := by decide

theorem witness_BusyWrites :
    drawing.seq ≠ .idle ∧ (0x3FFFFC % 4 = 0 ∧ 0x3FFFFC < 0x400000 ∧ 0x3FFFFC ≠ 0x14)
      ∧ (0x14 % 4 = 0 ∧ (5 : Word).getLsbD 0 = true ∧ (6 : Word).getLsbD 0 = false ∧ drawing.done = false) := by decide

theorem witness_BusyReads : drawing.seq ≠ .idle ∧ 0x3FFFFC % 4 = 0 ∧ 0x3FFFFC < 0x400000 := by decide

theorem witness_OutputIsMasked :
    small.cfg.sized = true ∧ small.seq = .idle ∧ 60 % 4 = 0 ∧ 60 < small.cfg.outCap ∧ 0 < small.cfg.outCap := by decide

theorem witness_BufferWords :
    Buf.id ≠ .out ∧ Buf.msg ≠ .out ∧ small.cfg.sized = true ∧ Memory.wf small.mem = true ∧ small.seq = .idle
      ∧ 60 % 4 = 0 ∧ 60 < Buf.msg.cap small.cfg ∧ 0 < Buf.id.cap small.cfg := by decide

theorem witness_OperandWords :
    keyed.cfg.sized = true ∧ (∀ r ∈ OpReg.all, keyed.regs.get r < 2 ^ keyed.cfg.opBits) ∧ keyed.seq = .idle
      ∧ 7 < keyed.cfg.nw := by decide

theorem witness_DomainWrites :
    keyed.cfg.sized = true ∧ keyed.seq = .idle
      ∧ domainOffset keyed.cfg 0x100 ∧ domainOffset keyed.cfg 0x39C ∧ ¬ domainOffset keyed.cfg 0x3A0
      ∧ ¬ domainOffset keyed.cfg 0x400 ∧ ¬ domainOffset keyed.cfg 0x0FC ∧ 0x39C % 4 = 0 := by decide

theorem witness_CtrlWrite : (7 : Word).getLsbD 0 = true ∧ (6 : Word).getLsbD 0 = false := by decide

theorem witness_Malformed :
    ¬ (16 = 32 ∧ 0x18 % 4 = 0 ∧ 0x18 < 0x400000) ∧ ¬ (32 = 32 ∧ 0x19 % 4 = 0 ∧ 0x19 < 0x400000)
      ∧ ¬ (32 = 32 ∧ 0x400000 % 4 = 0 ∧ 0x400000 < 0x400000) := by decide

theorem witness_OnlyFourKinds :
    (small.cfg.sized = true ∧ small.seq = .idle)
      ∧ (reservedOffset small.cfg 0x38 ∧ reservedOffset small.cfg 0xA4 ∧ reservedOffset small.cfg 0x120)
      ∧ (reservedOffset small.cfg 0x780 ∧ reservedOffset small.cfg 0x1004 ∧ reservedOffset small.cfg 0x100040)
      ∧ (reservedOffset small.cfg 0x200040 ∧ reservedOffset small.cfg 0x3FFFFC ∧ ¬ reservedOffset small.cfg 0xA0)
      ∧ (readOnlyOffset small.cfg 0x00 ∧ readOnlyOffset small.cfg 0x34 ∧ readOnlyOffset small.cfg 0x9C)
      ∧ (readOnlyOffset small.cfg 0x20003C ∧ ¬ readOnlyOffset small.cfg 0xA0)
      ∧ (0 < small.cfg.nw ∧ 0x100 = 0x100 + 0x80 * OpReg.domP.slot + 4 * 0)
      ∧ (7 < small.cfg.nw ∧ 0x71C = 0x100 + 0x80 * OpReg.kdfZy.slot + 4 * 7)
      ∧ (Buf.id ≠ .out ∧ 0 < Buf.id.cap small.cfg ∧ 0x1000 = Buf.id.base + 0)
      ∧ (Buf.msg ≠ .out ∧ 60 < Buf.msg.cap small.cfg ∧ 0x10003C = Buf.msg.base + 60)
      ∧ 0x3FFFFC % 4 = 0 ∧ 0x3FFFFC < 0x400000 := by
  refine ⟨?_, ?_, ?_, ?_, ?_, ?_, ?_, ?_, ?_, ?_, ?_⟩ <;> decide

theorem witness_LengthRegisters : keyed.seq = .idle := by decide

theorem witness_HashWindow :
    drawing.hc.length = drawing.cfg.nctx ∧ (∀ x ∈ drawing.hc, x.buf.length < 64) ∧ drawing.seq ≠ .idle
      ∧ keyed.seq = .idle ∧ { keyed with ctxsel := 3 }.hc[3]? = some HashCtx.init
      ∧ keyed.cfg.nctx ≤ ({ keyed with ctxsel := 4 }).ctxsel.toNat := by decide +kernel

theorem witness_ErrlogIsSticky :
    ∃ t, step { keyed with errlog := 2, agenda := [.host (.write 32 0x14 6)] } = .next t
      ∧ (∀ rest, [Move.host (.write 32 0x14 6)] ≠ .host .rst :: rest)
      ∧ ∀ v rest, v.getLsbD 0 = true → [Move.host (.write 32 0x14 6)] ≠ .host (.write 32 0x14 v) :: rest := by
  refine ⟨_, rfl, by intro rest; simp, ?_⟩
  intro v rest hv h
  simp only [List.cons.injEq, Move.host.injEq, HostMove.write.injEq, true_and] at h
  rw [← h.1] at hv
  revert hv; decide

theorem drawing_decodes : decode drawing.cfg.nctx drawing.cur = some .sign := by decide

theorem writing_decodes : decode writing.cfg.nctx writing.cur = some .encrypt := by decide

theorem drawing_onPath : OnPath drawing := by
  refine Or.inr ?_
  rw [drawing_decodes]
  decide

theorem witness_CoreInv : CoreInv drawing ∧ ∃ t, step drawing = .next t := by
  refine ⟨⟨by decide, by decide, by decide, by decide +kernel, by decide, ?_, by decide, by decide, by decide, by decide,
    by decide, drawing_onPath⟩, _, rfl⟩
  intro r
  cases r <;> decide

theorem witness_DomainInv : DomainInv drawing ∧ DomainChecked drawing ∧ ∃ t, step drawing = .next t :=
  ⟨⟨by decide +kernel, by decide +kernel⟩, by decide, _, rfl⟩

/-- The cells of a message stand in `MSGBUF`. -/
theorem holding_cells (b : Bytes) (s : State) (h : s.mem = []) (hb : b.length ≤ s.cfg.msgCap) (off : Nat)
    (ho : memGet (holding b s).mem off ≠ 0) : inBuffer s.cfg off := by
  unfold holding at ho
  rw [h, memGet_memSetBytes (by decide)] at ho
  by_cases hr : 0x100000 ≤ off ∧ off < 0x100000 + b.length
  · refine ⟨.msg, off - 0x100000, ?_, ?_⟩
    · show off - 0x100000 < s.cfg.msgCap
      omega
    · show off = 0x100000 + (off - 0x100000)
      omega
  · rw [if_neg hr] at ho
    exact absurd rfl ho

theorem witness_FlightInv :
    (FlightInv drawing ∧ CoreInv drawing) ∧ FlightInv writing ∧ ∃ t, step drawing = .next t := by
  refine ⟨⟨⟨holding_cells m1 keyed rfl (by decide), by decide, ?_, by decide, by decide, by decide⟩, witness_CoreInv.1⟩,
    ⟨holding_cells [0x5a] keyed rfl (by decide), by decide, ?_, by decide, by decide, by decide⟩, _, rfl⟩
  · intro i hi _
    rw [drawing_decodes, Option.some_inj] at hi
    subst hi
    decide
  · intro i hi _
    rw [writing_decodes, Option.some_inj] at hi
    subst hi
    decide

theorem witness_ResetMeets : Config.default.sized = true ∧ smallParams.sized = true ∧ ParamsLegal toyParams := by
  decide +kernel

theorem witness_RunEndsOrWaits :
    owns .sign drawing.seq = true ∧ owns .sign keyed.seq = true
      ∧ PortsAnswer .keygen (issue 0x11 (answering [0, 1] keyed)) := by
  refine ⟨by decide, by decide, fun t ht => ?_⟩
  obtain ⟨u, hu, hw⟩ := runs_next (i := .keygen) (s := answering [0, 1] keyed) (p := fun t => !t.rngWaiting)
    (by decide +kernel)
  rw [show issue (encode .keygen) (answering [0, 1] keyed) = issue 0x11 (answering [0, 1] keyed) from rfl, ht] at hu
  cases hu
  simpa using hw

theorem witness_RetryLimit :
    let s := { answering [0, 28, 128, 16] (issue 0x20 (holding m1 keyed)) with
      cfg := { toyParams with retryLimit := some 4 } }
    s.seq = .check ∧ s.tmp.tries = 0 ∧ s.cfg.retryLimit = some 4 ∧ 4 ≤ s.rng.length := by decide

theorem witness_TicksRefine : OnPath drawing := drawing_onPath

theorem witness_CommandFrame :
    (∃ t, exec .keygen (issue 0x11 (answering [0, 1] keyed)) = .next t)
      ∧ OpReg.sigR ∉ writes .keygen ∧ writesCtx .keygen = none ∧ makesOutput .keygen = false
      ∧ Memory.wf (holding m1 keyed).mem = true ∧ Instr.keygen ≠ .domCheck ∧ writesResult .keygen = false
      ∧ ((∃ t, exec .encrypt writing = .next t) ∧ Memory.wf writing.mem = true ∧ writing.cfg.sized = true
        ∧ decode writing.cfg.nctx writing.cur = some .encrypt ∧ FlightInv writing) :=
  ⟨⟨_, rfl⟩, by decide, by decide, by decide, by decide, by decide, by decide,
    ⟨_, rfl⟩, by decide, by decide, writing_decodes, witness_FlightInv.2.1⟩

/-- V-X-2 and the limits of each class. -/
theorem witness_PrechecksInOrder :
    ((issue 0x20 keyed).seq = .check ∧ Instr.WellFormed 4 .sign = true)
      ∧ (¬ lengthsFit .sign { small with mlen := 65 } ∧ lengthsFit .sign { small with mlen := 64 })
      ∧ (¬ lengthsFit .signU { keyed with idlen := 8192 } ∧ lengthsFit .signU { keyed with idlen := 8191 })
      ∧ (¬ lengthsFit .encrypt keyed ∧ ¬ lengthsFit .kdf { small with klen := 65 })
      ∧ (lengthsFit .sign keyed ∧ ¬ domainReady .sign { keyed with domok := false })
      ∧ (lengthsFit .decrypt { keyed with mlen := 34 } ∧ domainReady .decrypt keyed
        ∧ ¬ inputFormFits .decrypt { keyed with mlen := 34 })
      ∧ (lengthsFit .encrypt { small with mlen := 30 } ∧ domainReady .encrypt small ∧ inputFormFits .encrypt small
        ∧ ¬ outputFits .encrypt { small with mlen := 30 } ∧ outputFits .encrypt { small with mlen := 29 })
      ∧ (inputFormFits .sign keyed ∧ ¬ keyInRange .sign { keyed with regs := { keyed.regs with keyD := 232 } }
        ∧ keyInRange .sign { keyed with regs := { keyed.regs with keyD := 231 } })
      ∧ Prechecked .sign keyed ∧ Prechecked .decrypt { keyed with mlen := 35 } := by
  refine ⟨by decide, by decide, by decide, by decide, by decide, by decide, by decide, by decide, by decide, by decide⟩

theorem witness_FailedRun :
    (∃ t, Prechecked .sign (issue 0x20 { signed 7 7 keyed with rng := [.fail] })
        ∧ exec .sign (issue 0x20 { signed 7 7 keyed with rng := [.fail] }) = .next t ∧ t.err = true)
      ∧ ∃ t, Prechecked .decrypt (issue 0x29 (holding (toyFlat.set 3 0) keyed))
        ∧ exec .decrypt (issue 0x29 (holding (toyFlat.set 3 0) keyed)) = .next t ∧ t.err = true := by
  refine ⟨?_, ?_⟩
  · obtain ⟨t, h, ht⟩ := runs_next (i := .sign) (s := { signed 7 7 keyed with rng := [.fail] }) (p := fun t => t.err)
      (by decide +kernel)
    exact ⟨t, by decide, h, ht⟩
  · obtain ⟨t, h, ht⟩ := runs_next (i := .decrypt) (s := holding (toyFlat.set 3 0) keyed) (p := fun t => t.err)
      (by decide +kernel)
    exact ⟨t, by decide +kernel, h, ht⟩

theorem witness_DrawFails :
    drawState .sign = some drawing.seq
      ∧ ({ drawing with rng := [.fail] }.rng = .fail :: [] ∧ overLimit drawing.cfg.retryLimit (drawing.tmp.tries + 1) = false)
      ∧ (({ toyParams with retryLimit := some 4 } : Config.Params).retryLimit = some 4
        ∧ 4 < ({ drawing.tmp with tries := 4 } : Temps).tries + 1)
      ∧ ((answering [233] drawing).rng = .value 233 :: [] ∧ 233 % drawing.regs.domN = 0) := by decide

theorem witness_HashState :
    (issue 0x301 { small with mlen := 64 }).seq = .check ∧ (3 : BitVec 4).toNat < small.cfg.nctx
      ∧ ({ small with mlen := 64 } : State).mlen.toNat ≤ small.cfg.msgCap := by decide

theorem witness_HashDigest :
    (issue 0x304 small).seq = .check ∧ (3 : BitVec 4).toNat < small.cfg.nctx ∧ small.mlen.toNat ≤ small.cfg.msgCap := by
  decide

theorem witness_DomCheck :
    (issue 0x10 keyed).seq = .check ∧ DomainValid keyed
      ∧ domainInContract keyed.dom = true ∧ onCurve keyed.dom keyed.dom.g = true
      ∧ ¬ DomainValid { keyed with regs := { keyed.regs with domN := 232 } } := by decide +kernel

/-- The draws 0 and N are read as 0; N - 1 is accepted. -/
theorem witness_Keygen :
    let s := issue 0x11 (answering [0, 233, 232] keyed)
    s.seq = .check ∧ s.domok = true ∧ 0 < s.regs.domN ∧ s.regs.domN ≤ 2 ^ s.cfg.opBits
      ∧ DrawAccepted s (fun _ => False) 232 []
      ∧ domainInContract s.dom = true ∧ onCurve s.dom s.dom.g = true ∧ s.regs.domP ≤ 2 ^ s.cfg.opBits :=
  ⟨rfl, rfl, by decide, by decide, ⟨[0, 233], 232, rfl, by decide, rfl, by decide, id, rfl⟩, by decide +kernel, by decide,
    by decide⟩

theorem witness_Pubkey :
    (issue 0x12 keyed).seq = .check ∧ keyed.domok = true ∧ 1 ≤ 1 ∧ 232 < keyed.regs.domN
      ∧ domainInContract keyed.dom = true ∧ onCurve keyed.dom keyed.dom.g = true
      ∧ keyed.regs.domP ≤ 2 ^ keyed.cfg.opBits := by decide +kernel

theorem witness_Kdf :
    (issue 0x18 keyed).seq = .check ∧ ({ small with klen := 64 } : State).klen.toNat ≤ small.cfg.outCap
      ∧ (keyed.cfg.coordSer = .fixed → ({ keyed with domok := false } : State).domok = true)
      ∧ (({ toyParams with coordSer := .fixed } : Config.Params).coordSer = .fixed → keyed.domok = true) := by decide

/-- V-T-2. -/
theorem witness_Sign :
    let s := issue 0x20 (answering [0, 28, 128, 16, 3] (holding m1 keyed))
    s.seq = .check ∧ Prechecked .sign s ∧ s.regs.domN ≤ 2 ^ s.cfg.opBits ∧ DrawAccepted s (signRejects false s) 3 [] :=
  ⟨rfl, by decide, by decide, [0, 28, 128, 16], 3, rfl, by decide +kernel, rfl, by decide, by decide +kernel, rfl⟩

theorem witness_SignU :
    let s := issue 0x1020 (answering [5] (holding m1 { keyed with idlen := 1 }))
    s.seq = .check ∧ Prechecked .signU s ∧ s.regs.domN ≤ 2 ^ s.cfg.opBits ∧ DrawAccepted s (signRejects true s) 5 [] :=
  ⟨rfl, by decide, by decide, [], 5, rfl, by decide, rfl, by decide, by decide +kernel, rfl⟩

theorem witness_SignatureIsInRange :
    let s := issue 0x20 (answering [3] (holding m1 keyed))
    s.seq = .check ∧ s.err = false ∧ s.regs.domN ≤ 2 ^ s.cfg.opBits
      ∧ ∃ t, exec .sign s = .next t ∧ t.seq = .idle ∧ t.err = false := by
  obtain ⟨t, h, ht⟩ := runs_next (i := .sign) (s := answering [3] (holding m1 keyed))
    (p := fun t => t.seq = .idle && !t.err) (by decide +kernel)
  simp only [Bool.and_eq_true, decide_eq_true_eq, Bool.not_eq_true'] at ht
  exact ⟨rfl, rfl, by decide, t, h, ht.1, ht.2⟩

theorem witness_Verify :
    ((issue 0x21 keyed).seq = .check ∧ Prechecked .verify (issue 0x21 keyed))
      ∧ Prechecked .verifyU (issue 0x1021 { keyed with idlen := 8191 }) := by
  refine ⟨by decide, by decide⟩

/-- V-T-4. -/
theorem witness_Encrypt :
    let s := issue 0x28 (answering [0, 173, 3] (holding [0x5a] keyed))
    s.seq = .check ∧ Prechecked .encrypt s ∧ DrawAccepted s (encryptRejects s) 3 [] :=
  ⟨rfl, by decide, [0, 173], 3, rfl, by decide +kernel, rfl, by decide, by decide +kernel, rfl⟩

/-- V-T-4: the four ends of `DECRYPT`. -/
theorem witness_Decrypt :
    (Prechecked .decrypt (issue 0x29 (holding toyFlat keyed)) ∧ (issue 0x29 keyed).seq = .check)
      ∧ byteAt (holding (toyFlat.set 0 3) keyed).message 0 ≠ 0x04
      ∧ (let s := holding ((toyFlat.set 1 0).set 2 0) keyed
        byteAt s.message 0 = 0x04 ∧ s.gaIsInf (s.gaMul s.flatInput.c1 1) = true)
      ∧ (let s := holding (toyFlat.set 3 0) keyed
        s.gaIsInf (s.gaMul s.flatInput.c1 1) = false ∧ tagOf (decryptShare s) (decryptPlain s) s ≠ s.flatInput.c3)
      ∧ (let s := holding toyFlat keyed
        tagOf (decryptShare s) (decryptPlain s) s = s.flatInput.c3) := by decide +kernel

theorem witness_DerSignature :
    (issue 0x30 keyed).seq = .check ∧ (holding (be 8 0x3006020101020102) small).mlen.toNat ≤ small.cfg.msgCap
      ∧ parseSig 256 (be 8 0x3006020101020102) = some (1, 2) ∧ parseSig 256 [] = none
      ∧ small.cfg.outCap < (derSig (2 ^ 256 - 1) (2 ^ 256 - 1)).length := by decide +kernel

theorem witness_DerCiphertext :
    (issue 0x32 keyed).seq = .check ∧ Prechecked .derEncCt (issue 0x32 (holding toyFlat keyed))
      ∧ Prechecked .derDecCt (issue 0x33 (holding toyDer keyed)) ∧ parseCt 1 [] = none := by
  refine ⟨?_, ?_, ?_, ?_⟩ <;> decide +kernel

theorem witness_KeyEncode :
    (issue 0x38 small).seq = .check ∧ small.domok = true ∧ 2 * small.keyBytes + 1 ≤ small.cfg.outCap := by decide

theorem witness_KeyDecode :
    (issue 0x39 small).seq = .check ∧ small.domok = true ∧ 8 * small.keyBytes ≤ small.cfg.opBits
      ∧ (let s := holding [4, 1, 2] small; s.mlen.toNat ≤ s.cfg.msgCap ∧ s.mlen.toNat = 2 * s.keyBytes + 1)
      ∧ (let s := holding [1, 2] small; s.mlen.toNat ≤ s.cfg.msgCap ∧ s.mlen.toNat = 2 * s.keyBytes)
      ∧ (let s := holding [1] small; s.mlen.toNat ≤ s.cfg.msgCap ∧ s.mlen.toNat = s.keyBytes) := by decide

theorem witness_Absorb :
    (⟨Words8.iv, List.replicate 63 0, 504⟩ : HashCtx).buf.length < 64 ∧ (List.replicate 63 0 ++ ([] : Bytes)).length < 64
      ∧ 64 ≤ (List.replicate 63 0 ++ ([1] : Bytes)).length := by decide

theorem witness_Padding :
    (List.replicate 55 (0 : Byte)).length < 64 ∧ (List.replicate 56 (0 : Byte)).length < 64
      ∧ (List.replicate 63 (0 : Byte)).length < 64 ∧ 2 ^ 64 - 1 < 2 ^ 64 := by decide

theorem witness_Expansion : (List.replicate 64 (0x5a : Byte)).length = 64 ∧ 0 < 16 ∧ 15 < 16 ∧ 16 ≤ 16 ∧ 67 < 68 := by
  decide

theorem witness_SignatureForm :
    256 ≤ 1024 ∧ parseSig 256 (be 9 0x300702010002020080) = some (0, 0x80) ∧ derSig 0 0x80 = be 9 0x300702010002020080 := by
  decide +kernel

theorem witness_CiphertextForm :
    1 ≤ 2 ^ 20 ∧ parseCt 1 toyDer = some ⟨⟨29, 101⟩, [0x3c], toyFlat.drop 4⟩
      ∧ byteAt toyFlat 0 = 0x04 ∧ 2 * 1 + 1 + 32 ≤ toyFlat.length ∧ toyFlat.length ≤ 2 ^ 20
      ∧ (toyFlat.drop 4).length = 32 ∧ 29 < 2 ^ (8 * 1) := by decide +kernel

/-- The last clause of the statement on the structured ciphertext: a completed `DER_ENC_CT` (V-T-4). -/
theorem witness_CiphertextForm_run :
    let s := issue 0x32 (holding toyFlat keyed)
    s.seq = .check ∧ s.err = false ∧ s.cfg.sized = true ∧ Memory.wf s.mem = true ∧ s.mlen.toNat ≤ s.cfg.outCap
      ∧ ∃ t, exec .derEncCt s = .next t ∧ t.err = false ∧ t.olen.toNat ≤ s.cfg.msgCap := by
  obtain ⟨t, h, ht⟩ := runs_next (i := .derEncCt) (s := holding toyFlat keyed)
    (p := fun t => !t.err && t.olen.toNat ≤ 65536) (by decide +kernel)
  simp only [Bool.and_eq_true, decide_eq_true_eq, Bool.not_eq_true'] at ht
  exact ⟨rfl, rfl, rfl, by decide, by decide, t, h, ht.1, ht.2⟩

/-- The counter at the bound of 42 R155 is still `be32` of it. -/
theorem test_kdfCounter : kdfCounter 1 = [0, 0, 0, 1] ∧ kdfCounter (2 ^ 32 - 1) = [0xff, 0xff, 0xff, 0xff] := by
  decide

theorem witness_KeyForms :
    keyed.regs.keyD < 2 ^ (8 * keyed.keyBytes) ∧ keyed.regs.keyQx < 2 ^ (8 * keyed.keyBytes)
      ∧ keyed.regs.keyQy < 2 ^ (8 * keyed.keyBytes) ∧ ([4, 1, 2] : Bytes).length = 2 * 1 + 1
      ∧ byteAt [4, 1, 2] 0 = 0x04 := by decide

/-- GA requests within the contract, and a base point of prime order. -/
theorem witness_GAPort :
    domainInContract toy = true ∧ pointInContract toy ⟨233, 226⟩ = true ∧ pointInContract toy Point.inf = true
      ∧ pointInContract toy toy.g = true ∧ toy.g ≠ Point.inf ∧ toy.n.Prime
      ∧ ga.mulBase toy toy.n = Point.inf := by
  refine ⟨by decide +kernel, by decide, by decide, by decide, by decide, ?_, by decide +kernel⟩
  show Nat.Prime 233
  norm_num

theorem witness_Compression : (List.replicate 64 (0x5a : Byte)).length = 64 := by decide

theorem witness_SignThenVerify (u : Bool) :
    let s := issue (encode (if u then .signU else .sign)) (answering [3] (holding m1 keyed))
    s.seq = .check ∧ s.err = false ∧ DomainValid s ∧ domainInContract s.dom = true ∧ s.dom.b % s.dom.p ≠ 0
      ∧ s.regs.domN ≤ 2 ^ s.cfg.opBits ∧ s.pubKey = s.gaMulBase s.regs.keyD
      ∧ ∃ t, exec (if u then .signU else .sign) s = .next t ∧ t.seq = .idle ∧ t.err = false := by
  obtain ⟨t, h, ht⟩ := runs_next (i := if u then .signU else .sign) (s := answering [3] (holding m1 keyed))
    (p := fun t => t.seq = .idle && !t.err) (by cases u <;> decide +kernel)
  simp only [Bool.and_eq_true, decide_eq_true_eq, Bool.not_eq_true'] at ht
  exact ⟨rfl, rfl, by cases u <;> decide +kernel, by cases u <;> decide +kernel, by cases u <;> decide,
    by cases u <;> decide, by cases u <;> decide +kernel, t, h, ht.1, ht.2⟩

theorem witness_EncryptThenDecrypt :
    let s := issue 0x28 (answering [3] (holding [0x5a] keyed))
    s.seq = .check ∧ s.err = false ∧ s.cfg.sized = true ∧ Memory.wf s.mem = true ∧ DomainValid s
      ∧ domainInContract s.dom = true ∧ s.dom.b % s.dom.p ≠ 0 ∧ 1 ≤ s.regs.keyD ∧ s.regs.keyD < s.regs.domN
      ∧ s.pubKey = s.gaMulBase s.regs.keyD
      ∧ ∃ t, exec .encrypt s = .next t ∧ t.seq = .idle ∧ t.err = false ∧ t.olen.toNat ≤ s.cfg.msgCap := by
  obtain ⟨t, h, ht⟩ := runs_next (i := .encrypt) (s := answering [3] (holding [0x5a] keyed))
    (p := fun t => t.seq = .idle && !t.err && t.olen.toNat ≤ 65536) (by decide +kernel)
  simp only [Bool.and_eq_true, decide_eq_true_eq, Bool.not_eq_true'] at ht
  exact ⟨rfl, rfl, by decide, by decide, by decide +kernel, by decide +kernel, by decide, by decide, by decide,
    by decide +kernel, t, h, ht.1.1, ht.1.2, ht.2⟩

end Sys2Proof.Tests
end

/-! SUPPORT. Reads and writes of the window by the place that stands at the offset (20 R67, R70, R71). -/
section
namespace Sys2Proof.Machine

theorem busRead_of_idle {s : State} (h : s.seq = .idle) (off : Nat) : busRead s off = placeRead s (place s.cfg off) := by
  simp [busRead, (busy_eq_false_iff s).2 h]

theorem busRead_of_readable {s : State} {off : Nat} (h : readableWhenBusy (place s.cfg off) = true) :
    busRead s off = placeRead s (place s.cfg off) := by
  simp [busRead, h]

theorem busRead_of_hidden {s : State} {off : Nat} (hs : s.seq ≠ .idle)
    (h : readableWhenBusy (place s.cfg off) = false) : busRead s off = 0 := by
  simp [busRead, h, (busy_iff s).2 hs]

theorem busWrite_of_ctrl {s : State} {off : Nat} (h : place s.cfg off = .ctrl) (v : Word) :
    busWrite off v s = ctrlWrite v s := by
  rw [busWrite, if_pos h]

theorem busWrite_of_idle {s : State} {off : Nat} (hs : s.seq = .idle) (h4 : off % 4 = 0) (h : off ≠ 0x14) (v : Word) :
    busWrite off v s = placeWrite v s (place s.cfg off) := by
  simp [busWrite, place_eq_ctrl_iff s.cfg h4, h, (busy_eq_false_iff s).2 hs]

theorem busWrite_of_busy {s : State} {off : Nat} (hs : s.seq ≠ .idle) (h4 : off % 4 = 0) (h : off ≠ 0x14) (v : Word) :
    busWrite off v s = { s with errlog := s.errlog ||| 0x80 } := by
  simp only [busWrite, place_eq_ctrl_iff s.cfg h4, h, (busy_iff s).2 hs, if_true, if_false]
  rfl

theorem ctrlWrite_of_not_srst {v : Word} (s : State) (h : v.getLsbD 0 = false) :
    ctrlWrite v s = { s with ie := v.getLsbD 1, done := s.done && !v.getLsbD 2 } := by
  rw [ctrlWrite, h]
  rfl

theorem ctrlWrite_of_srst {v : Word} (s : State) (h : v.getLsbD 0 = true) : ctrlWrite v s = resetCore s := by
  rw [ctrlWrite, if_pos h]

theorem legalAccess_iff (width off : Nat) :
    legalAccess width off = true ↔ width = 32 ∧ off % 4 = 0 ∧ off < windowSize := by
  simp [legalAccess, and_assoc]

theorem placeWrite_errlog (v : Word) (s : State) (p : Place) : (placeWrite v s p).errlog = s.errlog := by
  rcases placeWrite_cases v s p with ⟨_, h⟩ | h <;> rw [h]
  rfl

theorem getLsbD_bit (b : Bool) {n : Nat} (hn : n < 32) (k : Nat) : (bit b n).getLsbD k = (b && decide (n = k)) := by
  cases b
  · simp [bit]
  · simp only [bit, if_true, BitVec.getLsbD_ofNat, Nat.testBit_two_pow, Bool.true_and]
    by_cases h : n = k
    · subst h
      simp [hn]
    · simp [h]

/-- The bits of `STATUS`, by index (10 R24). -/
theorem getLsbD_statusWord (s : State) (k : Nat) :
    (statusWord s).getLsbD k =
      (s.busy && decide (0 = k) || s.done && decide (1 = k) || s.err && decide (2 = k) || s.result && decide (3 = k)
        || s.domok && decide (4 = k)) := by
  simp only [statusWord, BitVec.getLsbD_or]
  rw [getLsbD_bit _ (by norm_num), getLsbD_bit _ (by norm_num), getLsbD_bit _ (by norm_num),
    getLsbD_bit _ (by norm_num), getLsbD_bit _ (by norm_num)]

theorem statusWord_resetCore (s : State) : statusWord (resetCore s) = 0x10 := by
  have hbusy : (resetCore s).busy = false := rfl
  simp [statusWord, hbusy, State.resetWith, bit]

theorem zeroExtend_lowNibble (v : Word) : (v.extractLsb' 0 4).zeroExtend 32 = v &&& 0xF := by
  apply BitVec.eq_of_toNat_eq
  have hlt : v.toNat % 16 < 2 ^ 32 := by omega
  simpa [BitVec.toNat_and, Nat.and_two_pow_sub_one_eq_mod v.toNat 4] using hlt

theorem opWordWrite_regs (r : OpReg) (i : Nat) (v : Word) (s : State) :
    (opWordWrite r i v s).regs =
      s.regs.put r (withRegWord s.cfg.nw (s.regs.get r) i v % 2 ^ s.cfg.opBits) := by
  unfold opWordWrite
  dsimp only
  split <;> rfl

end Sys2Proof.Machine
end

/-! SUPPORT. What a step can do, said once: whose move it is, and what the CORE's turn keeps at either granularity. -/
section
namespace Sys2Proof.Machine

/-- The CORE's turn at either granularity of 70 R293. -/
def CoreTurn (s t : State) : Prop := runCore s = .next t ∨ tickCore s = .next t

/-- The inversion of a step: the next move of the agenda is made, and with none left the CORE has the turn. -/
theorem step_cases {s t : State} (h : step s = .next t) :
    (∃ m rest, s.agenda = .host m :: rest ∧ t = hostMove m { s with agenda := rest })
      ∨ (∃ a rest, s.agenda = .rng a :: rest ∧ t = rngMove a { s with agenda := rest })
      ∨ ∃ rest, CoreTurn { s with agenda := rest } t := by
  unfold step at h
  split at h
  · exact .inr (.inr ⟨s.agenda, .inl h⟩)
  · exact .inr (.inr ⟨_, .inl h⟩)
  · exact .inr (.inr ⟨_, .inr h⟩)
  · rename_i m rest ha
    cases h
    exact .inl ⟨m, rest, ha, rfl⟩
  · rename_i a rest ha
    cases h
    exact .inr (.inl ⟨a, rest, ha, rfl⟩)

theorem turn_ne_idle {i : Instr} {s s' : State} (h : turn i s = some s') : s.seq ≠ .idle := by
  intro hs
  rw [turn_idle hs] at h
  cases h

/-- No turn changes the parameters or the command, so the word decodes as before. -/
theorem turn_decode {i : Instr} {s s' : State} (h : turn i s = some s') :
    decode s'.cfg.nctx s'.cur = decode s.cfg.nctx s.cur := by
  cases turn_cases h with
  | moved => rfl
  | failed => rw [raise_cfg, raise_cur]
  | ended s1 he => rw [complete_cfg, complete_cur, he.frame]

/-- The three things an illegal word can do (30 R85). -/
theorem illegalRun_cases (s : State) :
    s.seq = .check ∧ illegalRun s = raise [] .illegal s ∨ s.seq = .finish ∧ illegalRun s = finish s
      ∨ illegalRun s = s := by
  unfold illegalRun
  split
  · exact .inl ⟨by assumption, rfl⟩
  · split
    · exact .inr (.inl ⟨by assumption, rfl⟩)
    · exact .inr (.inr rfl)

theorem execIllegal_next {s t : State} (h : execIllegal s = .next t) : t = illegalRun s := by
  unfold execIllegal at h
  split at h
  · cases h
    rfl
  · cases h

section
variable {P : State → Prop}
  (hturn : ∀ i s s', decode s.cfg.nctx s.cur = some i → turn i s = some s' → P s → P s')
  (hillegal : ∀ s, P s → P (illegalRun s))
include hturn hillegal

theorem runCore_keeps {s t : State} (h : runCore s = .next t) (hs : P s) : P t := by
  unfold runCore at h
  split at h
  · cases h
    exact hs
  · split at h
    · exact execIllegal_next h ▸ hillegal s hs
    · rename_i i hd
      refine (exec_keeps (P := fun u => decode u.cfg.nctx u.cur = some i ∧ P u) ?_ ⟨hd, hs⟩ h).2
      exact fun u u' ⟨hu, hp⟩ ht => ⟨(turn_decode ht).trans hu, hturn i u u' hu ht hp⟩

theorem tickCore_keeps {s t : State} (h : tickCore s = .next t) (hs : P s) : P t := by
  unfold tickCore at h
  split at h
  · exact execIllegal_next h ▸ hillegal s hs
  · rename_i i hd
    split at h
    · cases h
      cases ht : turn i s with
      | none => exact hs
      | some s' => exact hturn i s s' hd ht hs
    · cases h

/-- What every turn of the decoded command and the end of an illegal word keep, the CORE's turn keeps. -/
theorem coreTurn_keeps {s t : State} (h : CoreTurn s t) (hs : P s) : P t :=
  h.elim (fun hr => runCore_keeps hturn hillegal hr hs) fun ht => tickCore_keeps hturn hillegal ht hs

end

end Sys2Proof.Machine
end

/-! SUPPORT. The sticky log: every update of `ERRLOG` but reset sets at most one bit of it (10 R26). -/
section
namespace Sys2Proof.Machine

/-- Every bit set in `e` is set in `ERRLOG`. -/
def HoldsLog (e : Word) (s : State) : Prop := e &&& s.errlog = e

theorem HoldsLog.of_eq {e : Word} {s t : State} (h : HoldsLog e s) (ht : t.errlog = s.errlog) : HoldsLog e t := by
  rwa [HoldsLog, ht]

theorem HoldsLog.of_or {e x : Word} {s t : State} (h : HoldsLog e s) (ht : t.errlog = s.errlog ||| x) :
    HoldsLog e t := by
  unfold HoldsLog at h ⊢
  rw [ht]
  apply BitVec.eq_of_getLsbD_eq
  intro n _
  have hn := congrArg (·.getLsbD n) h
  simp only [BitVec.getLsbD_and, BitVec.getLsbD_or] at hn ⊢
  cases he : e.getLsbD n
  · rfl
  · rw [he, Bool.true_and] at hn
    simp [hn]

theorem turn_holdsLog {e : Word} {i : Instr} {s s' : State} (h : turn i s = some s') (hs : HoldsLog e s) :
    HoldsLog e s' := by
  cases turn_cases h with
  | moved => exact hs
  | failed => exact hs.of_or (raise_errlog _ _ _)
  | ended s1 he => exact hs.of_eq (by rw [complete_errlog, he.frame])

theorem illegalRun_holdsLog {e : Word} (s : State) (hs : HoldsLog e s) : HoldsLog e (illegalRun s) := by
  rcases illegalRun_cases s with ⟨_, h⟩ | ⟨_, h⟩ | h <;> rw [h]
  · exact hs.of_or (raise_errlog _ _ _)
  · exact hs
  · exact hs

theorem rngMove_errlog (a : RngAnswer) (s : State) : (rngMove a s).errlog = s.errlog := by
  unfold rngMove
  split <;> rfl

/-- A write that does not reset keeps the log (10 R26, R28). -/
theorem busWrite_holdsLog {e : Word} {off : Nat} {v : Word} {s : State}
    (hsrst : place s.cfg off = .ctrl → v.getLsbD 0 = false) (hs : HoldsLog e s) : HoldsLog e (busWrite off v s) := by
  unfold busWrite
  split
  · rename_i hp
    rw [ctrlWrite_of_not_srst s (hsrst hp)]
    exact hs
  · split
    · exact hs.of_or (logError_errlog _ _)
    · exact hs.of_eq (placeWrite_errlog _ _ _)

/-- The moves of the host that reset (10 R28, 70 R280). -/
def HostMove.resets : HostMove → Prop
  | .rst => True
  | .read _ _ => False
  | .write width off v => width = 32 ∧ off = 0x14 ∧ v.getLsbD 0 = true

theorem hostMove_holdsLog {e : Word} {m : HostMove} {s : State} (hm : ¬ m.resets) (hs : HoldsLog e s) :
    HoldsLog e (hostMove m s) := by
  cases m with
  | rst => exact absurd trivial hm
  | read width off =>
    unfold hostMove
    dsimp only
    split
    · exact hs
    · exact hs.of_or (x := bit true busErrBit) rfl
  | write width off v =>
    unfold hostMove
    dsimp only
    split
    · rename_i hl
      obtain ⟨hw, h4, -⟩ := (legalAccess_iff _ _).1 hl
      refine (busWrite_holdsLog (v := v) (fun hp => ?_) hs).of_eq rfl
      rw [place_eq_ctrl_iff _ h4] at hp
      exact Bool.eq_false_iff.2 fun hv => hm ⟨hw, hp, hv⟩
    · exact hs.of_or (x := bit true busErrBit) rfl

/-- Settles O19: the CORE's turns and the port only add bits, and of the host's moves only a reset clears one. -/
theorem errlogIsSticky : Obligations.ErrlogIsSticky := by
  intro s t h hrst hsrst
  have hs : HoldsLog s.errlog s := BitVec.and_self
  rcases step_cases h with ⟨m, rest, ha, rfl⟩ | ⟨a, rest, -, rfl⟩ | ⟨rest, hc⟩
  · refine hostMove_holdsLog ?_ hs
    cases m with
    | rst => exact absurd ha (hrst rest)
    | read => exact id
    | write width off v =>
      rintro ⟨rfl, rfl, hv⟩
      exact hsrst v rest hv ha
  · exact hs.of_eq (rngMove_errlog _ _)
  · exact coreTurn_keeps (fun _ _ _ _ ht => turn_holdsLog ht) illegalRun_holdsLog hc hs

end Sys2Proof.Machine
end

/-! SUPPORT. The internal hash context stays well formed along the run states (10 R35): every value that a run state gives
it is an initial context that has absorbed bytes. -/
section
namespace Sys2Proof.Machine

theorem kdfLoop_hi_wf (seed : Bytes) (n ct : Nat) {hi : HashCtx} (ks : Bytes) (h : hi.wf) :
    (kdfLoop seed n ct hi ks).1.wf := by
  induction n generalizing ct hi ks with
  | zero => exact h
  | succ n ih => exact ih _ _ (absorb_wf HashCtx.init_wf _)

theorem kdfStream_hi_wf (seed : Bytes) (outLen : Nat) {hi : HashCtx} (h : hi.wf) : (kdfStream seed outLen hi).1.wf :=
  kdfLoop_hi_wf seed _ 1 [] h

theorem singleState_hi_wf {q : Seq} {act : State → State} {s s' : State} (h : singleState q act s = some s')
    (ha : (act s).hi = HashCtx.init) : s'.hi.wf := by
  obtain ⟨_, rfl⟩ := singleState_cases h
  rw [ha]
  exact HashCtx.init_wf

theorem outputOrParam_hi (i : Instr) (d : Bytes) (s : State) : (outputOrParam i d s).hi = HashCtx.init := by
  unfold outputOrParam
  split
  · exact raise_hi _ _ _
  · rfl

theorem raise_hi_wf (ds : List OpReg) (k : ErrKind) (s : State) : (raise ds k s).hi.wf := by
  rw [raise_hi]
  exact HashCtx.init_wf

theorem drawScalar_hi_wf {i : Instr} {use : Nat → State → State} {s s' : State} (h : drawScalar i use s = some s')
    (huse : ∀ d u, (use d u).hi = u.hi) (hw : s.hi.wf) : s'.hi.wf := by
  unfold drawScalar at h
  dsimp only at h
  split at h
  · cases h
    exact raise_hi_wf _ _ _
  · split at h
    · cases h
    · cases h
      exact raise_hi_wf _ _ _
    · split at h
      · cases h
        exact hw
      · cases h
        rw [huse]
        exact hw

theorem keygenBody_hi_wf {s s' : State} (h : keygenBody s = some s') (hw : s.hi.wf) : s'.hi.wf := by
  unfold keygenBody at h
  split at h
  · exact drawScalar_hi_wf h (fun _ _ => rfl) hw
  · cases h; exact HashCtx.init_wf
  · cases h

theorem signStates_hi_wf {i : Instr} {u : Bool} {s s' : State} (h : signStates i u s = some s') (hw : s.hi.wf) :
    s'.hi.wf := by
  unfold signStates at h
  split at h
  · cases h; exact hw
  · cases h; exact absorb_wf HashCtx.init_wf _
  · cases h; exact absorb_wf (absorb_wf HashCtx.init_wf _) _
  · exact drawScalar_hi_wf h (fun _ _ => rfl) hw
  · cases h; exact hw
  · cases h; exact hw
  · cases h; exact hw
  · cases h; exact HashCtx.init_wf
  · cases h

theorem verifyStates_hi_wf {u : Bool} {s s' : State} (h : verifyStates u s = some s') (hw : s.hi.wf) : s'.hi.wf := by
  unfold verifyStates at h
  split at h
  · cases h
    unfold vfRange
    split
    · exact HashCtx.init_wf
    · exact hw
  · cases h; exact absorb_wf HashCtx.init_wf _
  · cases h; exact absorb_wf (absorb_wf HashCtx.init_wf _) _
  · cases h
    unfold vfT
    dsimp only
    split
    · exact HashCtx.init_wf
    · exact hw
  · cases h
    unfold vfPoint
    dsimp only
    split
    · exact HashCtx.init_wf
    · exact hw
  · cases h; exact HashCtx.init_wf
  · cases h

theorem encryptBody_hi_wf {s s' : State} (h : encryptBody s = some s') (hw : s.hi.wf) : s'.hi.wf := by
  unfold encryptBody at h
  split at h
  · exact drawScalar_hi_wf h (fun _ _ => rfl) hw
  · cases h; exact hw
  · cases h; exact kdfStream_hi_wf _ _ hw
  · cases h; exact absorb_wf HashCtx.init_wf _
  · cases h; exact HashCtx.init_wf
  · cases h

theorem decryptBody_hi_wf {s s' : State} (h : decryptBody s = some s') (hw : s.hi.wf) : s'.hi.wf := by
  unfold decryptBody at h
  split at h
  · cases h
    unfold deParse
    split
    · exact raise_hi_wf _ _ _
    · exact hw
  · cases h
    unfold deCof
    split
    · exact raise_hi_wf _ _ _
    · exact hw
  · cases h; exact hw
  · cases h; exact kdfStream_hi_wf _ _ hw
  · cases h
    unfold deTag
    dsimp only
    split
    · exact raise_hi_wf _ _ _
    · exact absorb_wf HashCtx.init_wf _
  · cases h; exact HashCtx.init_wf
  · cases h

theorem body_hi_wf {i : Instr} {s s' : State} (h : body i s = some s') (hw : s.hi.wf) : s'.hi.wf := by
  cases i with
  | hReset c => exact singleState_hi_wf h rfl
  | hUpdate c => exact singleState_hi_wf h rfl
  | hFinal c => exact singleState_hi_wf h rfl
  | hDigest c => exact singleState_hi_wf h rfl
  | domCheck => exact singleState_hi_wf h (by unfold domCheckRun; dsimp only; split <;> simp)
  | keygen => exact keygenBody_hi_wf h hw
  | pubkey => exact singleState_hi_wf h rfl
  | kdf => exact singleState_hi_wf h rfl
  | sign => exact signStates_hi_wf h hw
  | signU => exact signStates_hi_wf h hw
  | verify => exact verifyStates_hi_wf h hw
  | verifyU => exact verifyStates_hi_wf h hw
  | encrypt => exact encryptBody_hi_wf h hw
  | decrypt => exact decryptBody_hi_wf h hw
  | derEncSig => exact singleState_hi_wf h (outputOrParam_hi _ _ _)
  | derDecSig => exact singleState_hi_wf h (by unfold derDecSigRun; split <;> simp)
  | derEncCt => exact singleState_hi_wf h (by unfold derEncCtRun; split <;> simp [outputOrParam_hi])
  | derDecCt => exact singleState_hi_wf h (by unfold derDecCtRun; split <;> simp [outputOrParam_hi])
  | keyEncPub => exact singleState_hi_wf h rfl
  | keyEncRaw => exact singleState_hi_wf h rfl
  | keyEncPriv => exact singleState_hi_wf h rfl
  | keyDecPub => exact singleState_hi_wf h (by unfold keyDecPubRun; split <;> simp)
  | keyDecRaw => exact singleState_hi_wf h rfl
  | keyDecPriv => exact singleState_hi_wf h rfl

theorem turn_hi_wf {i : Instr} {s s' : State} (h : turn i s = some s') (hw : s.hi.wf) : s'.hi.wf := by
  by_cases h1 : s.seq = .idle
  · exact absurd h1 (turn_ne_idle h)
  · by_cases h2 : s.seq = .check
    · rw [turn_check h2] at h
      split at h
      · cases h
        exact raise_hi_wf _ _ _
      · cases h
        exact hw
    · by_cases h3 : s.seq = .finish
      · rw [turn_finish h3] at h
        cases h
        exact HashCtx.init_wf
      · rw [turn_body h1 h2 h3] at h
        exact body_hi_wf h hw

end Sys2Proof.Machine
end

/-! SUPPORT. The structural invariant at reset, and what each update of the state does to it. -/
section
namespace Sys2Proof.Machine

theorem OperandRegs.get_reset_lt {c : Config.Params} (h : c.sized = true) (r : OpReg) :
    (OperandRegs.reset c.defaultDomain).get r < 2 ^ c.opBits := by
  obtain ⟨-, -, -, -, -, -, -, -, -, -, -, -, -, -, -, hp, ha, hb, hgx, hgy, hn, -⟩ := Config.Params.sized_spec h
  cases r with
  | domP => exact hp
  | domA => exact ha
  | domB => exact hb
  | domGx => exact hgx
  | domGy => exact hgy
  | domN => exact hn
  | _ => exact Nat.pow_pos (by norm_num)

theorem coreInv_resetWith {c : Config.Params} (h : c.sized = true) : CoreInv (State.resetWith c) where
  params := h
  memory := rfl
  contexts := List.length_replicate
  pending _ hx := (List.eq_of_mem_replicate hx) ▸ HashCtx.init_wf
  internal := HashCtx.init_wf
  registers := OperandRegs.get_reset_lt h
  errlogReserved := BitVec.zero_and
  errcodeClear _ := rfl
  errcodeKind he := nomatch he
  statusWhileBusy hs := absurd rfl hs
  clearedWhenIdle _ := ⟨rfl, rfl⟩
  onPath := .inl rfl

theorem flightInv_resetWith (c : Config.Params) : FlightInv (State.resetWith c) where
  cells off hoff := absurd rfl hoff
  outputLength := Nat.zero_le _
  checked i _ hp := by cases i <;> simp [State.resetWith, path] at hp
  encryptBody h := by simp [State.resetWith] at h
  encryptTag h := by simp [State.resetWith] at h
  decryptBody h := by simp [State.resetWith] at h

/-- The invariant says nothing of the model's own fields that steps change (log 4, 5, 13). -/
theorem CoreInv.withAgents {s : State} (h : CoreInv s) (r : List RngAnswer) (a : List Move) (b : BusReply) :
    CoreInv { s with rng := r, agenda := a, reply := b } :=
  { h with onPath := h.onPath }

theorem bit_reserved {n : Nat} (h1 : 1 ≤ n) (h8 : n ≤ 8) : bit true n &&& 0xFFFFFE01 = 0 := by
  interval_cases n <;> rfl

theorem errlog_or_reserved {e : Word} {n : Nat} (he : e &&& 0xFFFFFE01 = 0) (h1 : 1 ≤ n) (h8 : n ≤ 8) :
    (e ||| bit true n) &&& 0xFFFFFE01 = 0 := by
  rw [BitVec.and_or_distrib_right, he, bit_reserved h1 h8]
  rfl

theorem ErrKind.code_range (k : ErrKind) : 1 ≤ k.code.toNat ∧ k.code.toNat ≤ 6 := by cases k <;> decide

theorem CoreInv.logError {s : State} (h : CoreInv s) {n : Nat} (h1 : 1 ≤ n) (h8 : n ≤ 8) :
    CoreInv (logError n s) :=
  { h with errlogReserved := errlog_or_reserved h.errlogReserved h1 h8, onPath := h.onPath }

theorem CoreInv.resetCore {s : State} (h : CoreInv s) : CoreInv (resetCore s) :=
  (coreInv_resetWith h.params).withAgents _ _ _

theorem clearRegs_lt {n : Nat} {s : State} (ds : List OpReg) (h : ∀ r, s.regs.get r < 2 ^ n) (r : OpReg) :
    (clearRegs ds s).regs.get r < 2 ^ n := by
  rw [clearRegs_get]
  split
  · exact Nat.pow_pos (by norm_num)
  · exact h r

/-- The error entry keeps the invariant, whatever the temporaries, the verdict and the `DOMOK` it finds (60 R256). -/
theorem CoreInv.raise {s : State} (h : CoreInv s) (ds : List OpReg) (k : ErrKind) (t : Temps) (x : HashCtx)
    (r : List RngAnswer) (d b : Bool) :
    CoreInv (raise ds k { s with tmp := t, hi := x, rng := r, domok := d, result := b }) := by
  rw [raise_eq]
  exact {
    h with
    internal := HashCtx.init_wf
    registers := fun r => by
      dsimp only
      split
      · exact h.registers r
      · apply clearRegs_lt
        exact h.registers
    errlogReserved :=
      errlog_or_reserved h.errlogReserved k.code_range.1 (k.code_range.2.trans (by norm_num))
    errcodeClear := nofun
    errcodeKind := fun _ => k.code_range
    statusWhileBusy := fun hs => absurd rfl hs
    clearedWhenIdle := fun _ => ⟨rfl, rfl⟩
    onPath := .inl rfl }

/-- The end of a command keeps the invariant, whatever the command has written (30 R84 (4)). -/
theorem CoreInv.complete {i : Instr} {s s1 : State} (h : CoreInv s) (he : Ended i s s1) : CoreInv (complete s1) := by
  have hcfg : s1.cfg = s.cfg := by rw [he.frame]
  have herr : s1.err = s.err := by rw [he.frame]
  have hcode : s1.errcode = s.errcode := by rw [he.frame]
  have hlog : s1.errlog = s.errlog := by rw [he.frame]
  constructor
  case params => rw [complete_cfg, hcfg]; exact h.params
  case memory =>
    rcases he.mem with ⟨hm, -⟩ | ⟨d, hm, -⟩ <;> rw [complete_mem, hm]
    · exact h.memory
    · exact Memory.wf_memSetBytes h.memory _ _
  case contexts =>
    rcases he.hc with hc | ⟨c, x, -, hc, -⟩ <;> rw [complete_hc, complete_cfg, hcfg, hc]
    · exact h.contexts
    · rw [List.length_set]; exact h.contexts
  case pending =>
    rcases he.hc with hc | ⟨c, x, -, hc, hx⟩ <;> rw [complete_hc, hc]
    · exact h.pending
    · intro y hy
      rcases List.mem_or_eq_of_mem_set hy with hy | rfl
      · exact h.pending y hy
      · exact hx h.pending
  case internal => exact HashCtx.init_wf
  case registers =>
    intro r
    rw [complete_regs, complete_cfg, hcfg]
    rcases he.regs r with hr | ⟨-, hr⟩
    · rw [hr]; exact h.registers r
    · exact hr
  case errlogReserved => rw [complete_errlog, hlog]; exact h.errlogReserved
  case errcodeClear => rw [complete_err, complete_errcode, herr, hcode]; exact h.errcodeClear
  case errcodeKind => rw [complete_err, complete_errcode, herr, hcode]; exact h.errcodeKind
  case statusWhileBusy => exact fun hs => absurd rfl hs
  case clearedWhenIdle => exact fun _ => ⟨rfl, rfl⟩
  case onPath => exact .inl rfl

theorem idle_notMem_path (i : Instr) : Seq.idle ∉ path i := by cases i <;> simp [path]

theorem onPath_of_owns {i : Instr} {s : State} (hd : decode s.cfg.nctx s.cur = some i) (ho : owns i s.seq = true) :
    OnPath s :=
  .inr (by rw [hd]; exact ho)

/-- A turn of the decoded command keeps the invariant. -/
theorem CoreInv.turn {i : Instr} {s s' : State} (hd : decode s.cfg.nctx s.cur = some i) (ht : turn i s = some s')
    (h : CoreInv s) : CoreInv s' := by
  have hhi := turn_hi_wf ht h.internal
  cases turn_cases ht with
  | moved q t x r hq _ =>
    exact {
      h with
      internal := hhi
      statusWhileBusy := fun _ => h.statusWhileBusy (turn_ne_idle ht)
      clearedWhenIdle := fun hs => absurd (hs ▸ hq) (idle_notMem_path i)
      onPath := onPath_of_owns (i := i) hd (owns_of_mem hq) }
  | failed k t x r d => exact h.raise _ _ _ _ _ _ _
  | ended s1 he => exact h.complete he

theorem CoreInv.illegalRun (s : State) (h : CoreInv s) : CoreInv (illegalRun s) := by
  rcases illegalRun_cases s with ⟨_, hs⟩ | ⟨_, hs⟩ | hs <;> rw [hs]
  · exact h.raise [] .illegal s.tmp s.hi s.rng s.domok s.result
  · exact h.complete (Ended.refl .domCheck s)
  · exact h

theorem CoreInv.rngMove {s : State} (h : CoreInv s) (a : RngAnswer) : CoreInv (rngMove a s) := by
  unfold Machine.rngMove
  split
  · exact h.withAgents [a] s.agenda s.reply
  · exact h

theorem CoreInv.issue {s : State} (h : CoreInv s) (w : Word) : CoreInv (issue w s) :=
  { h with
    errcodeClear := fun _ => rfl
    errcodeKind := nofun
    statusWhileBusy := fun _ => ⟨rfl, rfl, rfl, rfl⟩
    clearedWhenIdle := nofun
    onPath := .inr (by split <;> simp [illegalOwns]) }

theorem placeWrite_mem_wf (v : Word) {s : State} (p : Place) (h : Memory.wf s.mem = true) :
    Memory.wf (placeWrite v s p).mem = true := by
  cases p with
  | bufWord b a =>
    cases b with
    | id => exact Memory.wf_memSetBytes h _ _
    | msg => exact Memory.wf_memSetBytes h _ _
    | out => exact h
  | opWord r i =>
    simp only [placeWrite, opWordWrite]
    split <;> exact h
  | _ => exact h

theorem placeWrite_regs_lt (v : Word) {s : State} (p : Place) (h : ∀ r, s.regs.get r < 2 ^ s.cfg.opBits) (r : OpReg) :
    (placeWrite v s p).regs.get r < 2 ^ s.cfg.opBits := by
  cases p with
  | opWord r' i =>
    rw [placeWrite, opWordWrite_regs, OperandRegs.get_put]
    split
    · exact Nat.mod_lt _ (Nat.pow_pos (by norm_num))
    · exact h r
  | bufWord b a => cases b <;> exact h r
  | _ => exact h r

theorem CoreInv.placeWrite {s : State} (h : CoreInv s) (v : Word) (p : Place) : CoreInv (placeWrite v s p) := by
  have hmem := placeWrite_mem_wf v p h.memory
  have hregs := placeWrite_regs_lt v p h.registers
  rcases placeWrite_cases v s p with ⟨_, hp⟩ | hp
  · rw [hp]
    exact h.issue v
  · rw [hp]
    exact { h with memory := hmem, registers := hregs, onPath := h.onPath }

theorem CoreInv.ctrlWrite {s : State} (h : CoreInv s) (v : Word) : CoreInv (ctrlWrite v s) := by
  cases hv : v.getLsbD 0 with
  | true => exact ctrlWrite_of_srst s hv ▸ h.resetCore
  | false =>
    rw [ctrlWrite_of_not_srst s hv]
    exact { h with
      statusWhileBusy := fun hs => by
        obtain ⟨hd, hrest⟩ := h.statusWhileBusy hs
        exact ⟨by simp [hd], hrest⟩
      onPath := h.onPath }

theorem CoreInv.busWrite {s : State} (h : CoreInv s) (off : Nat) (v : Word) : CoreInv (busWrite off v s) := by
  unfold Machine.busWrite
  split
  · exact h.ctrlWrite v
  · split
    · exact h.logError (by decide) (by decide)
    · exact h.placeWrite v _

theorem CoreInv.hostMove {s : State} (h : CoreInv s) (m : HostMove) : CoreInv (hostMove m s) := by
  have hlog : CoreInv (Machine.logError busErrBit s) := h.logError (by decide) (by decide)
  cases m with
  | rst => exact h.resetCore
  | read width off =>
    unfold Machine.hostMove
    dsimp only
    split
    · exact h.withAgents s.rng s.agenda _
    · exact hlog.withAgents s.rng s.agenda _
  | write width off v =>
    unfold Machine.hostMove
    dsimp only
    split
    · exact (h.busWrite off v).withAgents _ _ _
    · exact hlog.withAgents s.rng s.agenda _

/-- Settles O21: every agent's move keeps the invariant. -/
theorem stepKeepsCoreInv : Obligations.StepKeepsCoreInv := by
  intro s t h hstep
  have hrest : ∀ rest, CoreInv { s with agenda := rest } := fun rest => h.withAgents s.rng rest s.reply
  rcases step_cases hstep with ⟨m, rest, -, rfl⟩ | ⟨a, rest, -, rfl⟩ | ⟨rest, hc⟩
  · exact (hrest rest).hostMove m
  · exact (hrest rest).rngMove a
  · exact coreTurn_keeps (fun _ _ _ => CoreInv.turn) CoreInv.illegalRun hc (hrest rest)

end Sys2Proof.Machine
end

/-! SUPPORT. The operand registers on the bus: word i of a register reads and writes as `regWord` and `withRegWord`, and the
words of a value are its big-endian bytes (10 R36). -/
section
namespace Sys2Proof.Machine

theorem be_add (a b v : Nat) : be (a + b) v = be a (v / 256 ^ b) ++ be b v := by
  induction a with
  | zero => simp [be]
  | succ a ih =>
    rw [show a + 1 + b = a + b + 1 by omega, be, be, ih, Nat.div_div_eq_div_mul, ← pow_add, Nat.add_comm b a,
      List.cons_append]

theorem lanesOfWord_ofNat (v : Nat) : lanesOfWord (BitVec.ofNat 32 v) = be 4 v := by
  have lane : ∀ k, k + 8 ≤ 32 → (BitVec.ofNat 32 v).extractLsb' k 8 = BitVec.ofNat 8 (v / 2 ^ k) := by
    intro k hk
    apply BitVec.eq_of_getLsbD_eq
    intro j hj
    simp only [BitVec.getLsbD_extractLsb', BitVec.getLsbD_ofNat, Nat.testBit_div_two_pow, hj, decide_true, Bool.true_and,
      show k + j < 32 by omega, Nat.add_comm j k]
  simp only [lanesOfWord, be]
  rw [lane 24 (by norm_num), lane 16 (by norm_num), lane 8 (by norm_num), lane 0 (by norm_num)]
  norm_num

/-- The words of a value, most significant first and each big-endian, are its big-endian bytes (10 R36). -/
theorem flatMap_regWord (nw v : Nat) :
    (List.range nw).flatMap (fun j => lanesOfWord (regWord nw v j)) = be (4 * nw) v := by
  induction nw with
  | zero => rfl
  | succ nw ih =>
    have htail : ∀ j, regWord (nw + 1) v (j + 1) = regWord nw v j := fun j => by
      rw [regWord, regWord, show nw + 1 - 1 - (j + 1) = nw - 1 - j by omega]
    have hhead : lanesOfWord (regWord (nw + 1) v 0) = be 4 (v / 256 ^ (4 * nw)) := by
      rw [regWord, lanesOfWord_ofNat, ← two_pow_eight_mul, show 32 * (nw + 1 - 1 - 0) = 8 * (4 * nw) by omega]
    rw [List.range_succ_eq_map, List.flatMap_cons, List.flatMap_map, hhead]
    simp only [Nat.succ_eq_add_one, htail]
    rw [ih, show 4 * (nw + 1) = 4 + 4 * nw by ring, be_add]

theorem opBits_eq {c : Config.Params} (h : c.sized = true) : c.opBits = 32 * c.nw ∧ c.nw ≤ 32 := by
  obtain ⟨hm, -, hle, -⟩ := Config.Params.sized_spec h
  unfold Config.Params.nw
  omega

theorem busRead_opWord {s : State} (hc : s.cfg.sized = true) (hs : s.seq = .idle) (r : OpReg) {i : Nat}
    (hi : i < s.cfg.nw) : busRead s (0x100 + 0x80 * r.slot + 4 * i) = regWord s.cfg.nw (s.regs.get r) i := by
  rw [busRead_of_idle hs, place_opWord _ r hi (hi.trans_le (opBits_eq hc).2)]
  rfl

theorem busWrite_opWord {s : State} (hc : s.cfg.sized = true) (hs : s.seq = .idle) (r : OpReg) {i : Nat}
    (hi : i < s.cfg.nw) (v : Word) : busWrite (0x100 + 0x80 * r.slot + 4 * i) v s = opWordWrite r i v s := by
  have hp := place_opWord s.cfg r hi (hi.trans_le (opBits_eq hc).2)
  rw [busWrite_of_idle hs (by omega) (by omega), hp]
  rfl

/-- What an operand word write leaves: all but the register and `DOMOK` (10 R36, R37). -/
theorem opWordWrite_eq (r : OpReg) (i : Nat) (v : Word) (s : State) :
    opWordWrite r i v s = { s with
      regs := (opWordWrite r i v s).regs, domok := if r.isDomain then false else s.domok } := by
  unfold opWordWrite
  dsimp only
  split <;> rfl

@[simp] theorem opWordWrite_cfg (r : OpReg) (i : Nat) (v : Word) (s : State) : (opWordWrite r i v s).cfg = s.cfg := by
  rw [opWordWrite_eq]
@[simp] theorem opWordWrite_seq (r : OpReg) (i : Nat) (v : Word) (s : State) : (opWordWrite r i v s).seq = s.seq := by
  rw [opWordWrite_eq]
@[simp] theorem opWordWrite_domok (r : OpReg) (i : Nat) (v : Word) (s : State) :
    (opWordWrite r i v s).domok = if r.isDomain then false else s.domok := by
  rw [opWordWrite_eq]

/-- A register within its width takes the word replaced without loss (10 R36). -/
theorem opWordWrite_get_same {s : State} (hc : s.cfg.sized = true) {r : OpReg} (hr : s.regs.get r < 2 ^ s.cfg.opBits)
    {i : Nat} (hi : i < s.cfg.nw) (v : Word) :
    (opWordWrite r i v s).regs.get r = withRegWord s.cfg.nw (s.regs.get r) i v := by
  rw [opWordWrite_regs, OperandRegs.get_put_same, Nat.mod_eq_of_lt]
  rw [(opBits_eq hc).1] at hr ⊢
  exact withRegWord_lt v hi hr

theorem opWordWrite_get_ne (s : State) {r r' : OpReg} (h : r' ≠ r) (i : Nat) (v : Word) :
    (opWordWrite r i v s).regs.get r' = s.regs.get r' := by
  rw [opWordWrite_regs, OperandRegs.get_put_ne _ _ h]

/-- Settles O12: the reads by `flatMap_regWord`, the write by the laws of `withRegWord`. -/
theorem operandWordsAreBigEndian : Obligations.OperandWordsAreBigEndian := by
  intro s r i v hc hr hs hi
  have hsame := opWordWrite_get_same hc hr hi v
  have hread : ∀ j, j < s.cfg.nw → busRead (opWordWrite r i v s) (0x100 + 0x80 * r.slot + 4 * j)
      = regWord s.cfg.nw (withRegWord s.cfg.nw (s.regs.get r) i v) j := by
    intro j hj
    rw [busRead_opWord (by simpa using hc) (by simpa using hs) r (by simpa using hj), hsame, opWordWrite_cfg]
  rw [busWrite_opWord hc hs r hi]
  refine ⟨?_, ?_, fun j hj hne => ?_, fun r' hne => ?_, ?_⟩
  · have hlanes : ∀ j ∈ List.range s.cfg.nw, lanesOfWord (busRead s (0x100 + 0x80 * r.slot + 4 * j))
        = lanesOfWord (regWord s.cfg.nw (s.regs.get r) j) := fun j hj => by
      rw [busRead_opWord hc hs r (List.mem_range.1 hj)]
    rw [List.flatMap_congr hlanes, flatMap_regWord, (opBits_eq hc).1]
    congr 1
    omega
  · rw [hread i hi, regWord_withRegWord_same]
  · rw [hread j hj, regWord_withRegWord_ne v hi hj hne, busRead_opWord hc hs r hj]
  · exact opWordWrite_get_ne s hne i v
  · rw [hsame]
    rw [(opBits_eq hc).1] at hr ⊢
    exact withRegWord_lt v hi hr

/-! The places a write to which clears `DOMOK` (10 R37). -/

/-- `DOM_BITS` and the words of the registers k = 0..5 (10 R37). -/
def Place.isDomain : Place → Bool
  | .domBits => true
  | .opWord r _ => r.isDomain
  | _ => false

theorem placeWrite_domok (v : Word) (s : State) (p : Place) :
    (placeWrite v s p).domok = if p.isDomain then false else s.domok := by
  cases p with
  | opWord r i => exact opWordWrite_domok r i v s
  | bufWord b a => cases b <;> rfl
  | _ => rfl

theorem OpReg.isDomain_iff (r : OpReg) : r.isDomain = true ↔ r.slot < 6 := by cases r <;> decide

theorem OpReg.exists_slot {k : Nat} (h : k < 13) : ∃ r : OpReg, r.slot = k :=
  ⟨OpReg.all[k]'h, ((OpReg.all_getElem? k _).1 (List.getElem?_eq_getElem h)).symm⟩

/-- The offsets of the domain registers are those at which a domain place stands (10 R36, R37). -/
theorem isDomain_place_iff {c : Config.Params} (hc : c.sized = true) {off : Nat} (h4 : off % 4 = 0) :
    (place c off).isDomain = true ↔ off = 0xA0 ∨ domainOffset c off := by
  constructor
  · intro h
    cases hp : place c off with
    | domBits => exact .inl ((place_eq_domBits_iff c h4).1 hp)
    | opWord r i =>
      obtain ⟨hi, h32, rfl⟩ := place_eq_opWord h4 hp
      rw [hp] at h
      have hslot := (OpReg.isDomain_iff r).1 h
      exact .inr ⟨by omega, by omega, by omega⟩
    | _ => rw [hp] at h; cases h
  · rintro (rfl | ⟨hlo, hhi, hw⟩)
    · rfl
    · obtain ⟨r, hr⟩ := OpReg.exists_slot (k := (off - 0x100) / 0x80) (by omega)
      have hp := place_opWord c r hw (hw.trans_le (opBits_eq hc).2)
      rw [hr, show 0x100 + 0x80 * ((off - 0x100) / 0x80) + 4 * ((off - 0x100) % 0x80 / 4) = off by omega] at hp
      rw [hp]
      exact (OpReg.isDomain_iff r).2 (by omega)

/-- Settles O13: a write clears `DOMOK` exactly at a domain place. -/
theorem domainWritesClearDomok : Obligations.DomainWritesClearDomok := by
  intro s off v hc hs h4 _ hctrl
  rw [busWrite_of_idle hs h4 hctrl, placeWrite_domok, ← isDomain_place_iff hc h4]
  exact ⟨fun h => if_pos h, fun h => if_neg h⟩

end Sys2Proof.Machine
end

/-! SUPPORT. The hash window (10 R34). -/
section
namespace Sys2Proof.Machine

/-- The registers of the hash window (10 R34). -/
def Place.isHashWindow : Place → Bool
  | .hbufLen | .hcntHi | .hcntLo | .hv _ | .hbuf _ => true
  | _ => false

theorem place_hv (c : Config.Params) {i : Nat} (h : i < 8) : place c (0x40 + 4 * i) = .hv i := by
  interval_cases i <;> rfl

theorem place_hbuf (c : Config.Params) {i : Nat} (h : i < 16) : place c (0x60 + 4 * i) = .hbuf i := by
  interval_cases i <;> rfl

theorem isHashWindow_place (c : Config.Params) {off : Nat} (h4 : off % 4 = 0)
    (h : 0x2C ≤ off ∧ off < 0x38 ∨ 0x40 ≤ off ∧ off < 0xA0) : (place c off).isHashWindow = true := by
  rw [place_low c (by omega) h4]
  obtain ⟨k, rfl⟩ : ∃ k, off = 4 * k := ⟨off / 4, by omega⟩
  have hk : k < 64 := by omega
  clear h4
  revert h
  revert k
  decide

theorem placeWrite_of_isHashWindow (v : Word) (s : State) {p : Place} (h : p.isHashWindow = true) :
    placeWrite v s p = s := by
  cases p with
  | hbufLen | hcntHi | hcntLo | hv i | hbuf i => rfl
  | _ => cases h

/-- The view of a context that a register of the window shows, 0 for any other place (10 R34). -/
def windowView : Place → HashCtx → Word
  | .hbufLen, x => BitVec.ofNat 32 x.buf.length
  | .hcntHi, x => x.cnt.extractLsb' 32 32
  | .hcntLo, x => x.cnt.extractLsb' 0 32
  | .hv i, x => x.v.get i
  | .hbuf i, x => hbufWord x i
  | _, _ => 0

theorem placeRead_of_isHashWindow (s : State) {p : Place} (h : p.isHashWindow = true) :
    placeRead s p = windowWord s (windowView p) := by
  cases p with
  | hbufLen | hcntHi | hcntLo | hv i | hbuf i => rfl
  | _ => cases h

theorem readableWhenBusy_of_isHashWindow {p : Place} (h : p.isHashWindow = true) : readableWhenBusy p = false := by
  cases p with
  | hbufLen | hcntHi | hcntLo | hv i | hbuf i => rfl
  | _ => cases h

/-- A register of the window shows the selected context while idle. -/
theorem busRead_window_selected {s : State} (hlen : s.hc.length = s.cfg.nctx) (hs : s.seq = .idle) {x : HashCtx}
    (hx : s.hc[s.ctxsel.toNat]? = some x) {off : Nat} {p : Place} (hp : place s.cfg off = p)
    (hwin : p.isHashWindow = true) : busRead s off = windowView p x := by
  have hlt : s.ctxsel.toNat < s.cfg.nctx := hlen ▸ (List.getElem?_eq_some_iff.1 hx).1
  have hctx : hashCtx s.ctxsel.toNat s = x := by rw [hashCtx, List.getD_eq_getElem?_getD, hx]; rfl
  rw [busRead_of_idle hs, hp, placeRead_of_isHashWindow s hwin, windowWord, if_pos hlt, hctx]

/-- The window reads 0 where `CTXSEL` names no context and while the CORE is busy. -/
theorem busRead_window_hidden {s : State} (h : s.cfg.nctx ≤ s.ctxsel.toNat ∨ s.seq ≠ .idle) {off : Nat} {p : Place}
    (hp : place s.cfg off = p) (hwin : p.isHashWindow = true) : busRead s off = 0 := by
  by_cases hs : s.seq = .idle
  · have hsel := h.resolve_right (not_not_intro hs)
    rw [busRead_of_idle hs, hp, placeRead_of_isHashWindow s hwin, windowWord, if_neg (Nat.not_lt.2 hsel)]
  · exact busRead_of_hidden hs (hp ▸ readableWhenBusy_of_isHashWindow hwin)

/-- Settles O18, by the view that each place of the window shows. -/
theorem hashWindowShowsTheSelectedContext : Obligations.HashWindowShowsTheSelectedContext := by
  intro s hlen hpend
  refine ⟨fun hs x hx => ?_, fun h => ?_, fun hs off v hoff h4 => ?_⟩
  · have hbuf : x.buf.length < 64 := hpend x (List.mem_of_getElem? hx)
    refine ⟨fun i hi => busRead_window_selected hlen hs hx (place_hv _ hi) rfl,
      busRead_window_selected hlen hs hx (p := .hcntHi) rfl rfl,
      busRead_window_selected hlen hs hx (p := .hcntLo) rfl rfl, ?_,
      fun i hi => busRead_window_selected hlen hs hx (place_hbuf _ hi) rfl⟩
    rw [busRead_window_selected hlen hs hx (p := .hbufLen) rfl rfl, windowView, BitVec.toNat_ofNat]
    omega
  · exact ⟨fun i hi => busRead_window_hidden h (place_hv _ hi) rfl, busRead_window_hidden h (p := .hcntHi) rfl rfl,
      busRead_window_hidden h (p := .hcntLo) rfl rfl, busRead_window_hidden h (p := .hbufLen) rfl rfl,
      fun i hi => busRead_window_hidden h (place_hbuf _ hi) rfl⟩
  · have hwin := isHashWindow_place s.cfg h4 hoff
    rw [busWrite_of_idle hs h4 (by omega), placeWrite_of_isHashWindow v s hwin]

end Sys2Proof.Machine
end

/-! SUPPORT. The control and status registers, the length registers, and reset (10 R22 to R33, R44). -/
section
namespace Sys2Proof.Machine

/-- Settles O6: `CMD` stands at 0x04 and shows at every time. -/
theorem cmdWriteIssues : Obligations.CmdWriteIssues := by
  refine ⟨fun s w hs => ?_, fun s w hs => ?_, fun s => ?_, ?_⟩
  · exact busWrite_of_idle hs rfl (by decide) w
  · exact busWrite_of_busy hs rfl (by decide) w
  · exact busRead_of_readable rfl
  · exact busRead_of_readable rfl

/-- Settles O9, by the bits of the `STATUS` word. -/
theorem statusWordAndInterruptLine : Obligations.StatusWordAndInterruptLine := by
  intro s
  have hr : busRead s 0x08 = statusWord s := busRead_of_readable rfl
  simp only [hr, getLsbD_statusWord]
  refine ⟨by simp [State.busy], by simp, by simp, by simp, by simp, fun n hn => ?_, rfl⟩
  have h : ∀ m, m < 5 → decide (m = n) = false := fun m hm => decide_eq_false (by omega)
  simp [h]

/-- Settles O14: `CTRL` stands at 0x14, and a write to it acts whether busy or not. -/
theorem ctrlWriteActs : Obligations.CtrlWriteActs := by
  intro s v
  refine ⟨fun hv => ?_, fun hv => ?_, ?_⟩
  · exact (busWrite_of_ctrl rfl v).trans (ctrlWrite_of_srst s hv)
  · exact (busWrite_of_ctrl rfl v).trans (ctrlWrite_of_not_srst s hv)
  · exact busRead_of_readable rfl

/-- Settles O17, each register by the place at its offset. -/
theorem lengthRegistersStore : Obligations.LengthRegistersStore := by
  refine ⟨fun s v hs => ?_, fun s => ?_, fun s hs => ?_⟩
  · have hm : busWrite 0x18 v s = { s with mlen := v } := busWrite_of_idle hs rfl (by decide) v
    have hi : busWrite 0x1C v s = { s with idlen := v } := busWrite_of_idle hs rfl (by decide) v
    have hk : busWrite 0x20 v s = { s with klen := v } := busWrite_of_idle hs rfl (by decide) v
    have hc : busWrite 0x28 v s = { s with ctxsel := v.extractLsb' 0 4 } := busWrite_of_idle hs rfl (by decide) v
    have hd : busWrite 0xA0 v s = { s with domBits := v, domok := false } := busWrite_of_idle hs rfl (by decide) v
    rw [hm, hi, hk, hc, hd]
    refine ⟨rfl, busRead_of_idle ?_ _, rfl, busRead_of_idle ?_ _, rfl, busRead_of_idle ?_ _, rfl,
      (busRead_of_idle ?_ _).trans (zeroExtend_lowNibble v), rfl, busRead_of_idle ?_ _⟩ <;> exact hs
  · exact ⟨busRead_of_readable rfl, busRead_of_readable rfl, busRead_of_readable rfl⟩
  · exact ⟨busRead_of_idle hs _, busRead_of_idle hs _, busRead_of_idle hs _, busRead_of_idle hs _,
      busRead_of_idle hs _, busRead_of_idle hs _⟩

/-- Settles O20, by evaluating `resetCore`, which both events reach. -/
theorem resetSetsEveryPieceOfState : Obligations.ResetSetsEveryPieceOfState := by
  intro s
  refine ⟨rfl, fun v hv => ?_, ?_, ?_, rfl, fun _ => rfl⟩
  · exact (busWrite_of_ctrl rfl v).trans (ctrlWrite_of_srst s hv)
  · exact (busRead_of_readable rfl).trans (statusWord_resetCore s)
  · exact busRead_of_readable rfl

/-- Settles O24, by the two invariants at reset. -/
theorem resetMeetsTheInvariants : Obligations.ResetMeetsTheInvariants :=
  fun c h => ⟨coreInv_resetWith h, flightInv_resetWith c⟩

end Sys2Proof.Machine
end

/-! SUPPORT. The pre-checks of the model are those of 60 R260, and what a turn does by the state the sequencer stands in. -/
section
namespace Sys2Proof.Machine

theorem firstFailing_eq_none_iff (cs : List Check) : firstFailing cs = none ↔ ∀ c ∈ cs, c.1 = true := by
  induction cs with
  | nil => simp [firstFailing]
  | cons c rest ih =>
    obtain ⟨ok, k⟩ := c
    cases ok <;> simp [firstFailing, ih]

/-- What the checks of a command say, as the classes of 60 R260, each where the command has it. -/
theorem firstFailing_checks_eq_none_iff (i : Instr) (s : State) : firstFailing (checks i s) = none ↔ Prechecked i s := by
  have hkdf : (kdfDomokCheck s).1 = true ↔ domainReady .kdf s := by
    cases hc : s.cfg.coordSer <;> simp [kdfDomokCheck, domainReady, needsDomain, hc]
  rw [firstFailing_eq_none_iff, Prechecked]
  cases i with
  | kdf =>
    simp only [checks, List.forall_mem_cons, hkdf, klenCheck, decide_eq_true_eq]
    simp [lengthsFit, inputFormFits, outputFits, keyInRange, Instr.WellFormed, readsMessage]
  | _ =>
    simp only [checks, List.forall_mem_cons, ctxCheck, idlenCheck, mlenCheck, mlenNonzeroCheck, domokCheck,
      flatLenCheck, formLenCheck, encryptFitCheck, decryptFitCheck, formFitCheck, keyCheck, signKeyCheck,
      decide_eq_true_eq]
    simp [lengthsFit, domainReady, inputFormFits, outputFits, keyInRange, Instr.WellFormed, readsMessage, needsDomain,
      KeyForm.length, Config.c3Len, and_assoc, and_left_comm]

/-- A turn by the state the sequencer stands in: the pre-checks, passed or not, the end of a command, or a run state
(30 R84). -/
theorem turn_seq_cases {i : Instr} {s s' : State} (h : turn i s = some s') :
    (∃ k, s' = raise (destinations i) k s) ∨ (Prechecked i s ∧ s' = enterRun i s) ∨ s' = finish s
      ∨ ((owns i s.seq = true → s.seq ∈ path i) ∧ body i s = some s') := by
  by_cases h1 : s.seq = .idle
  · exact absurd h1 (turn_ne_idle h)
  · by_cases h2 : s.seq = .check
    · rw [turn_check h2] at h
      split at h
      · cases h
        exact .inl ⟨_, rfl⟩
      · rename_i hf
        cases h
        exact .inr (.inl ⟨(firstFailing_checks_eq_none_iff i s).1 hf, rfl⟩)
    · by_cases h3 : s.seq = .finish
      · rw [turn_finish h3] at h
        cases h
        exact .inr (.inr (.inl rfl))
      · rw [turn_body h1 h2 h3] at h
        exact .inr (.inr (.inr ⟨fun ho => by simpa [owns, h1, h2, h3] using ho, h⟩))

end Sys2Proof.Machine
end

/-! SUPPORT. What a run state writes: nothing, or an output that fits `OUTBUF` (10 R32, 20 R74). -/
section
namespace Sys2Proof.Machine

@[simp] theorem length_message (s : State) : s.message.length = s.mlen.toNat := length_memGetBytes _ _ _

@[simp] theorem length_pointBytes (keyBytes : Nat) (q : Point) : (pointBytes keyBytes q).length = 2 * keyBytes + 1 := by
  simp [pointBytes]
  omega

@[simp] theorem length_keyFormBytes (f : KeyForm) (s : State) : (keyFormBytes f s).length = f.length s.keyBytes := by
  cases f with
  | pub => exact length_pointBytes _ _
  | raw => simp [keyFormBytes, KeyForm.length, two_mul]
  | priv => simp [keyFormBytes, KeyForm.length]

@[simp] theorem length_xorBytes (a b : Bytes) : (xorBytes a b).length = min a.length b.length := by simp [xorBytes]

theorem length_flatBytes (keyBytes : Nat) (ct : Ciphertext) :
    (flatBytes keyBytes ct).length = 2 * keyBytes + 1 + ct.c2.length + ct.c3.length := by
  simp [flatBytes, add_assoc]

theorem length_flatInput_c2 (s : State) : s.flatInput.c2.length = s.mlen.toNat - s.c1Len - 32 := by
  simp only [State.flatInput, splitFlat, length_slice, length_message, State.c1Len, Config.c3Len]
  omega

theorem length_kdfLoop (seed : Bytes) (n ct : Nat) (hi : HashCtx) (ks : Bytes) :
    (kdfLoop seed n ct hi ks).2.length = ks.length + 32 * n := by
  induction n generalizing ct hi ks with
  | zero => rfl
  | succ n ih =>
    rw [kdfLoop, ih, List.length_append, length_finalize]
    omega

/-- A keystream has the length asked for (42 R155). -/
@[simp] theorem length_kdfStream (seed : Bytes) (outLen : Nat) (hi : HashCtx) :
    (kdfStream seed outLen hi).2.length = outLen := by
  have hlen : outLen ≤ 32 * ceilDiv outLen 32 := by unfold ceilDiv; omega
  simp [kdfStream, length_kdfLoop, hlen]

/-- What a turn may do to the visible output: leave memory and `OLEN` alone, or write at most `OUTCAP` bytes to `OUTBUF`
from index 0 and set `OLEN` to their number. -/
def OutputWithin (s s' : State) : Prop :=
  (s'.mem = s.mem ∧ s'.olen = s.olen)
    ∨ ∃ d : Bytes, d.length ≤ s.cfg.outCap ∧ s'.mem = memSetBytes s.mem Buf.out.base d
        ∧ s'.olen = BitVec.ofNat 32 d.length

theorem OutputWithin.ofOutput {s : State} {d : Bytes} (h : d.length ≤ s.cfg.outCap) :
    OutputWithin s (complete (output d s)) :=
  .inr ⟨d, h, rfl, rfl⟩

theorem OutputWithin.ofRaise (s : State) (ds : List OpReg) (k : ErrKind) : OutputWithin s (raise ds k s) :=
  .inl ⟨raise_mem _ _ _, raise_olen _ _ _⟩

theorem OutputWithin.ofOutputOrParam (i : Instr) (d : Bytes) (s : State) : OutputWithin s (outputOrParam i d s) := by
  unfold outputOrParam
  split
  · exact .ofRaise _ _ _
  · exact .ofOutput (by omega)

/-- What a draw leads to: the error entry, the same state again, or the state of an accepted draw (41 R137). -/
theorem drawScalar_next {i : Instr} {use : Nat → State → State} {s s' : State} (h : drawScalar i use s = some s') :
    ∃ rest : List RngAnswer, ∃ u : State, u = { s with rng := rest, tmp := { s.tmp with tries := s.tmp.tries + 1 } }
      ∧ (s' = raise (destinations i) .rng u ∨ s' = u ∨ ∃ d, s' = use d u) := by
  unfold drawScalar at h
  dsimp only at h
  split at h
  · cases h
    exact ⟨s.rng, _, rfl, .inl rfl⟩
  · split at h
    · cases h
    · rename_i rest _
      cases h
      exact ⟨rest, _, rfl, .inl rfl⟩
    · rename_i v rest _
      refine ⟨rest, _, rfl, .inr ?_⟩
      split at h <;> cases h
      · exact .inl rfl
      · exact .inr ⟨_, rfl⟩

theorem drawScalar_noOutput {i : Instr} {use : Nat → State → State} {s s' : State} (h : drawScalar i use s = some s')
    (huse : ∀ d u, (use d u).mem = u.mem ∧ (use d u).olen = u.olen) : s'.mem = s.mem ∧ s'.olen = s.olen := by
  obtain ⟨rest, u, rfl, rfl | rfl | ⟨d, rfl⟩⟩ := drawScalar_next h
  · exact ⟨raise_mem _ _ _, raise_olen _ _ _⟩
  · exact ⟨rfl, rfl⟩
  · exact huse d _

theorem signStates_noOutput {i : Instr} {u : Bool} {s s' : State} (h : signStates i u s = some s') :
    s'.mem = s.mem ∧ s'.olen = s.olen := by
  unfold signStates at h
  split at h
  · cases h; simp [sgPub]
  · cases h; simp [sgZ, computeZ]
  · cases h; simp [sgE, computeE]
  · exact drawScalar_noOutput h fun _ _ => ⟨rfl, rfl⟩
  · cases h; simp [sgPoint]
  · cases h; simp [sgR]
  · cases h; simp [sgS]
  · cases h; simp [sgOut]
  · cases h

theorem verifyStates_noOutput {u : Bool} {s s' : State} (h : verifyStates u s = some s') :
    s'.mem = s.mem ∧ s'.olen = s.olen := by
  unfold verifyStates at h
  split at h <;> cases h
  · unfold vfRange
    split <;> simp [vfEnd]
  · simp [vfZ, computeZ]
  · simp [vfE, computeE]
  · unfold vfT
    dsimp only
    split <;> simp [vfEnd]
  · unfold vfPoint
    dsimp only
    split <;> simp [vfEnd]
  · simp [vfCmp, vfEnd]

theorem keygenBody_noOutput {s s' : State} (h : keygenBody s = some s') : s'.mem = s.mem ∧ s'.olen = s.olen := by
  unfold keygenBody at h
  split at h
  · exact drawScalar_noOutput h fun _ _ => ⟨rfl, rfl⟩
  · cases h
    exact ⟨rfl, rfl⟩
  · cases h

theorem singleState_noOutput {q : Seq} {act : State → State} {s s' : State} (h : singleState q act s = some s')
    (ha : (act s).mem = s.mem ∧ (act s).olen = s.olen) : s'.mem = s.mem ∧ s'.olen = s.olen := by
  obtain ⟨_, rfl⟩ := singleState_cases h
  exact ha

/-- A command without output leaves memory and `OLEN` alone (10 R32, R41). -/
theorem body_noOutput {i : Instr} {s s' : State} (hi : makesOutput i = false) (h : body i s = some s') :
    s'.mem = s.mem ∧ s'.olen = s.olen := by
  cases i with
  | hReset c => exact singleState_noOutput h ⟨rfl, rfl⟩
  | hUpdate c => exact singleState_noOutput h ⟨rfl, rfl⟩
  | domCheck => exact singleState_noOutput h (by unfold domCheckRun; dsimp only; split <;> simp)
  | keygen => exact keygenBody_noOutput h
  | pubkey => exact singleState_noOutput h ⟨rfl, rfl⟩
  | sign => exact signStates_noOutput h
  | signU => exact signStates_noOutput h
  | verify => exact verifyStates_noOutput h
  | verifyU => exact verifyStates_noOutput h
  | derDecSig => exact singleState_noOutput h (by unfold derDecSigRun; split <;> simp)
  | keyDecPub => exact singleState_noOutput h (by unfold keyDecPubRun; split <;> simp)
  | keyDecRaw => exact singleState_noOutput h ⟨rfl, rfl⟩
  | keyDecPriv => exact singleState_noOutput h ⟨rfl, rfl⟩
  | _ => cases hi

end Sys2Proof.Machine
end

/-! SUPPORT. The working copy of `ENCRYPT` and `DECRYPT` has the length that their output takes from it. -/
section
namespace Sys2Proof.Machine

/-- What `FlightInv` says of the working copy. -/
structure WorkingCopy (s : State) : Prop where
  encryptBody : s.seq = .enTag ∨ s.seq = .enOut → s.tmp.wbuf.length = s.mlen.toNat
  encryptTag : s.seq = .enOut → s.tmp.c3.length = 32
  decryptBody : s.seq = .deTag ∨ s.seq = .deOut → s.tmp.wbuf.length = s.mlen.toNat - s.c1Len - 32

/-- The sequencer states in which the working copy is in use. -/
def workingStates : List Seq := [.enTag, .enOut, .deTag, .deOut]

theorem FlightInv.workingCopy {s : State} (h : FlightInv s) : WorkingCopy s :=
  ⟨h.encryptBody, h.encryptTag, h.decryptBody⟩

theorem WorkingCopy.of_notMem {s : State} (h : s.seq ∉ workingStates) : WorkingCopy s := by
  simp only [workingStates, List.mem_cons, List.not_mem_nil, or_false, not_or] at h
  obtain ⟨hentag, henout, hdetag, hdeout⟩ := h
  exact ⟨fun hs => absurd hs (by simp [hentag, henout]), fun hs => absurd hs henout,
    fun hs => absurd hs (by simp [hdetag, hdeout])⟩

theorem WorkingCopy.of_seq {s : State} {q : Seq} (hs : s.seq = q) (h : q ∉ workingStates) : WorkingCopy s :=
  .of_notMem (hs ▸ h)

theorem encryptBody_workingCopy {s s' : State} (h : encryptBody s = some s') (hw : WorkingCopy s) :
    WorkingCopy s' := by
  unfold encryptBody at h
  split at h <;> rename_i hq
  · obtain ⟨rest, u, rfl, rfl | rfl | ⟨d, rfl⟩⟩ := drawScalar_next h
    · exact .of_seq (raise_seq _ _ _) (by decide)
    · exact .of_seq hq (by decide)
    · exact .of_seq (q := .enPoint) rfl (by decide)
  · cases h
    exact .of_seq (q := .enKdf) rfl (by decide)
  · cases h
    have hlen : (enKdf s).tmp.wbuf.length = s.mlen.toNat := by simp [enKdf]
    refine ⟨fun _ => hlen, fun hs => ?_, fun hs => ?_⟩ <;>
      simp only [enKdf] at hs <;> split at hs <;> simp at hs
  · cases h
    exact ⟨fun _ => hw.encryptBody (.inl hq), fun _ => length_finalize _, nofun⟩
  · cases h
    exact .of_seq (complete_seq _) (by decide)
  · cases h

theorem decryptBody_workingCopy {s s' : State} (h : decryptBody s = some s') (hw : WorkingCopy s) :
    WorkingCopy s' := by
  unfold decryptBody at h
  split at h <;> rename_i hq <;> cases h
  · unfold deParse
    split
    · exact .of_seq (raise_seq _ _ _) (by decide)
    · exact .of_seq (q := .deCof) rfl (by decide)
  · unfold deCof
    split
    · exact .of_seq (raise_seq _ _ _) (by decide)
    · exact .of_seq (q := .deShare) rfl (by decide)
  · exact .of_seq (q := .deKdf) rfl (by decide)
  · have hlen : (deKdf s).tmp.wbuf.length = s.mlen.toNat - s.c1Len - 32 := by simp [deKdf, length_flatInput_c2]
    exact ⟨nofun, nofun, fun _ => hlen⟩
  · unfold deTag
    dsimp only
    split
    · exact .of_seq (raise_seq _ _ _) (by decide)
    · exact ⟨nofun, nofun, fun _ => hw.decryptBody (.inl hq)⟩
  · exact .of_seq (complete_seq _) (by decide)

theorem TurnCases.seq {i : Instr} {s s' : State} (h : TurnCases i s s') : s'.seq = .idle ∨ s'.seq ∈ path i := by
  cases h with
  | moved q t x r hq _ => exact .inr hq
  | failed => exact .inl (raise_seq _ _ _)
  | ended s1 _ => exact .inl (complete_seq _)

/-- Only `ENCRYPT` and `DECRYPT` have a working copy. -/
theorem notMem_workingStates {i : Instr} {q : Seq} (he : i ≠ .encrypt) (hd : i ≠ .decrypt) (hq : q ∈ path i) :
    q ∉ workingStates := by
  revert q
  cases i with
  | encrypt => exact absurd rfl he
  | decrypt => exact absurd rfl hd
  | _ => simp [path, workingStates]

theorem body_workingCopy {i : Instr} {s s' : State} (h : body i s = some s') (hw : WorkingCopy s) : WorkingCopy s' := by
  by_cases he : i = .encrypt
  · subst he
    exact encryptBody_workingCopy h hw
  · by_cases hd : i = .decrypt
    · subst hd
      exact decryptBody_workingCopy h hw
    · rcases (body_cases h).seq with hs | hs
      · exact .of_seq hs (by decide)
      · exact .of_notMem (notMem_workingStates he hd hs)

theorem headD_path_notMem_workingStates (i : Instr) : (path i).headD .finish ∉ workingStates := by
  cases i <;> simp [path, workingStates]

theorem turn_workingCopy {i : Instr} {s s' : State} (h : turn i s = some s') (hw : WorkingCopy s) : WorkingCopy s' := by
  rcases turn_seq_cases h with ⟨k, rfl⟩ | ⟨-, rfl⟩ | rfl | ⟨-, hb⟩
  · exact .of_seq (raise_seq _ _ _) (by decide)
  · exact .of_seq (enterRun_seq _ _) (headD_path_notMem_workingStates i)
  · exact .of_seq (finish_seq _) (by decide)
  · exact body_workingCopy hb hw

end Sys2Proof.Machine
end

/-! SUPPORT. Past its pre-checks a command writes no more than `OUTBUF` holds (20 R74, 60 R260). -/
section
namespace Sys2Proof.Machine

theorem OutputWithin.ofEncryptBody {s s' : State} (hp : Prechecked .encrypt s) (hw : WorkingCopy s)
    (h : encryptBody s = some s') : OutputWithin s s' := by
  obtain ⟨-, -, -, -, ⟨hfit, -⟩, -⟩ := hp
  have hcap := hfit rfl
  unfold encryptBody at h
  split at h <;> rename_i hq
  · exact .inl (drawScalar_noOutput h fun _ _ => ⟨rfl, rfl⟩)
  · cases h
    exact .inl (by simp [enPoint])
  · cases h
    exact .inl (by simp [enKdf])
  · cases h
    exact .inl (by simp [enTag])
  · cases h
    refine .ofOutput ?_
    rw [length_flatBytes, hw.encryptBody (.inr hq), hw.encryptTag hq]
    exact hcap
  · cases h

theorem OutputWithin.ofDecryptBody {s s' : State} (hp : Prechecked .decrypt s) (hw : WorkingCopy s)
    (h : decryptBody s = some s') : OutputWithin s s' := by
  obtain ⟨-, -, -, -, ⟨-, hfit, -⟩, -⟩ := hp
  have hcap := hfit rfl
  unfold decryptBody at h
  split at h <;> rename_i hq <;> cases h
  · unfold deParse
    split
    · exact .ofRaise _ _ _
    · exact .inl ⟨rfl, rfl⟩
  · unfold deCof
    split
    · exact .ofRaise _ _ _
    · exact .inl ⟨rfl, rfl⟩
  · exact .inl (by simp [deShare])
  · exact .inl (by simp [deKdf])
  · unfold deTag
    dsimp only
    split
    · exact .inl (by simp)
    · exact .inl (by simp)
  · refine .ofOutput ?_
    rw [hw.decryptBody (.inr hq)]
    exact hcap

theorem OutputWithin.ofSingleState {q : Seq} {act : State → State} {s s' : State} (h : singleState q act s = some s')
    (ha : OutputWithin s (act s)) : OutputWithin s s' := by
  obtain ⟨_, rfl⟩ := singleState_cases h
  exact ha

theorem OutputWithin.ofKeyEncRun {f : KeyForm} {s : State} (h : f.length s.keyBytes ≤ s.cfg.outCap) :
    OutputWithin s (keyEncRun f s) :=
  .ofOutput (by rwa [length_keyFormBytes])

theorem OutputWithin.ofBody {i : Instr} {s s' : State} (hc : s.cfg.sized = true) (hp : Prechecked i s)
    (hw : WorkingCopy s) (h : body i s = some s') : OutputWithin s s' := by
  obtain ⟨-, -, -, -, -, -, -, -, -, -, -, -, hdigest, -⟩ := Config.Params.sized_spec hc
  have hdigest : 32 ≤ s.cfg.outCap := by omega
  have ⟨_, ⟨_, _, _, hklen⟩, _, _, ⟨_, _, hpub, hraw, hpriv⟩, _⟩ := hp
  cases i with
  | hFinal c => exact ofSingleState h (.ofOutput hdigest)
  | hDigest c => exact ofSingleState h (.ofOutput (s := setHashCtx c.toNat _ s) hdigest)
  | kdf => exact ofSingleState h (.ofOutput (s := { s with hi := _ }) ((length_kdfStream _ _ _).trans_le (hklen rfl)))
  | encrypt => exact .ofEncryptBody hp hw h
  | decrypt => exact .ofDecryptBody hp hw h
  | derEncSig => exact ofSingleState h (.ofOutputOrParam _ _ _)
  | derEncCt =>
    refine ofSingleState h ?_
    unfold derEncCtRun
    split
    · exact .ofRaise _ _ _
    · exact .ofOutputOrParam _ _ _
  | derDecCt =>
    refine ofSingleState h ?_
    unfold derDecCtRun
    split
    · exact .ofRaise _ _ _
    · exact .ofOutputOrParam _ _ _
  | keyEncPub => exact ofSingleState h (.ofKeyEncRun (hpub rfl))
  | keyEncRaw => exact ofSingleState h (.ofKeyEncRun (hraw rfl))
  | keyEncPriv => exact ofSingleState h (.ofKeyEncRun (hpriv rfl))
  | _ => exact .inl (body_noOutput rfl h)

theorem OutputWithin.ofTurn {i : Instr} {s s' : State} (hc : s.cfg.sized = true) (ho : owns i s.seq = true)
    (hp : s.seq ∈ path i → Prechecked i s) (hw : WorkingCopy s) (h : turn i s = some s') : OutputWithin s s' := by
  rcases turn_seq_cases h with ⟨k, rfl⟩ | ⟨-, rfl⟩ | rfl | ⟨hs, hb⟩
  · exact .ofRaise _ _ _
  · exact .inl ⟨rfl, rfl⟩
  · exact .inl ⟨rfl, rfl⟩
  · exact .ofBody hc (hp (hs ho)) hw hb

/-- A turn that leaves a command on its path finds the pre-checks made: it is the turn that has made them, or a later one. -/
theorem prechecked_of_turn {i : Instr} {s s' : State} (ho : owns i s.seq = true) (hp : s.seq ∈ path i → Prechecked i s)
    (h : turn i s = some s') (hs' : s'.seq ∈ path i) : Prechecked i s := by
  rcases turn_seq_cases h with ⟨k, rfl⟩ | ⟨hchecked, -⟩ | rfl | ⟨hs, -⟩
  · exact absurd (raise_seq _ _ _ ▸ hs') (idle_notMem_path i)
  · exact hchecked
  · exact absurd hs' (idle_notMem_path i)
  · exact hp (hs ho)

end Sys2Proof.Machine
end

/-! SUPPORT. What each agent's move does to the invariant of a command in flight (20 R70, R74). -/
section
namespace Sys2Proof.Machine

/-- A byte string written inside a buffer leaves every byte outside the buffers 0 (20 R74). -/
theorem inBuffer_of_memSetBytes {c : Config.Params} {m : List Host.Cell} (hm : Memory.wf m = true)
    (hcells : ∀ off, memGet m off ≠ 0 → inBuffer c off) (b : Buf) {a : Nat} {d : Bytes} (hd : a + d.length ≤ b.cap c)
    (off : Nat) (h : memGet (memSetBytes m (b.base + a) d) off ≠ 0) : inBuffer c off := by
  rw [memGet_memSetBytes hm] at h
  split at h
  · exact ⟨b, off - b.base, by omega, by omega⟩
  · exact hcells off h

/-- A turn that writes no more than `OUTBUF` holds keeps the invariant, when the pre-checks and the working copy are as they
should be where it leads. -/
theorem FlightInv.of_outputWithin {s s' : State} (hm : Memory.wf s.mem = true) (h : FlightInv s)
    (hcfg : s'.cfg = s.cfg) (hout : OutputWithin s s')
    (hchecked : ∀ i, decode s'.cfg.nctx s'.cur = some i → s'.seq ∈ path i → Prechecked i s') (hw : WorkingCopy s') :
    FlightInv s' := by
  constructor
  case cells =>
    rw [hcfg]
    rcases hout with ⟨hmem, -⟩ | ⟨d, hd, hmem, -⟩ <;> rw [hmem]
    · exact h.cells
    · exact inBuffer_of_memSetBytes hm h.cells .out (a := 0) (by simpa [Buf.cap] using hd)
  case outputLength =>
    rw [hcfg]
    rcases hout with ⟨-, holen⟩ | ⟨d, hd, -, holen⟩ <;> rw [holen]
    · exact h.outputLength
    · exact (Nat.mod_le _ _).trans hd
  case checked => exact hchecked
  case encryptBody => exact hw.encryptBody
  case encryptTag => exact hw.encryptTag
  case decryptBody => exact hw.decryptBody

/-- The end of a command, of whatever kind, keeps the invariant. -/
theorem FlightInv.of_idle {s s' : State} (hm : Memory.wf s.mem = true) (h : FlightInv s) (hcfg : s'.cfg = s.cfg)
    (hout : OutputWithin s s') (hidle : s'.seq = .idle) : FlightInv s' :=
  h.of_outputWithin hm hcfg hout (fun i _ hs => absurd (hidle ▸ hs) (idle_notMem_path i))
    (.of_seq hidle (by decide))

/-- Nothing that the invariant of a command in flight reads is among these fields. -/
theorem FlightInv.withUnread {s : State} (h : FlightInv s) (e : Word) (ie d : Bool) (r : List RngAnswer) (a : List Move)
    (b : BusReply) : FlightInv { s with errlog := e, ie := ie, done := d, rng := r, agenda := a, reply := b } :=
  { h with checked := h.checked }

theorem FlightInv.resetCore (s : State) : FlightInv (resetCore s) :=
  (flightInv_resetWith s.cfg).withUnread _ _ _ _ s.agenda s.reply

theorem CoreInv.owns {i : Instr} {s : State} (h : CoreInv s) (hd : decode s.cfg.nctx s.cur = some i) :
    owns i s.seq = true := by
  rcases h.onPath with hs | hs
  · rw [hs]
    exact owns_idle i
  · rwa [hd] at hs

/-- A turn of the decoded command keeps the invariant: while it is on its path nothing its pre-checks read has changed. -/
theorem FlightInv.turn {i : Instr} {s s' : State} (hd : decode s.cfg.nctx s.cur = some i) (ht : turn i s = some s')
    (hc : CoreInv s) (h : FlightInv s) : FlightInv s' := by
  have ho := hc.owns hd
  have hout : OutputWithin s s' := .ofTurn hc.params ho (h.checked i hd) h.workingCopy ht
  have hw := turn_workingCopy ht h.workingCopy
  have hp := prechecked_of_turn ho (h.checked i hd) ht
  cases turn_cases ht with
  | moved q t x r hq _ =>
    refine h.of_outputWithin hc.memory rfl hout (fun j hj _ => ?_) hw
    obtain rfl : i = j := Option.some.inj (hd.symm.trans hj)
    exact hp hq
  | failed => exact h.of_idle hc.memory (raise_cfg _ _ _) hout (raise_seq _ _ _)
  | ended s1 he => exact h.of_idle hc.memory (by rw [complete_cfg, he.frame]) hout (complete_seq _)

theorem FlightInv.illegalRun (s : State) (hc : CoreInv s) (h : FlightInv s) : FlightInv (illegalRun s) := by
  rcases illegalRun_cases s with ⟨_, hs⟩ | ⟨_, hs⟩ | hs <;> rw [hs]
  · exact h.of_idle hc.memory (raise_cfg _ _ _) (.ofRaise _ _ _) (raise_seq _ _ _)
  · exact h.of_idle hc.memory (finish_cfg _) (.inl ⟨rfl, rfl⟩) (finish_seq _)
  · exact h

theorem FlightInv.rngMove {s : State} (h : FlightInv s) (a : RngAnswer) : FlightInv (rngMove a s) := by
  unfold Machine.rngMove
  split
  · exact h.withUnread s.errlog s.ie s.done [a] s.agenda s.reply
  · exact h

theorem FlightInv.issue {s : State} (h : FlightInv s) (w : Word) : FlightInv (issue w s) where
  cells := h.cells
  outputLength := Nat.zero_le _
  checked i _ hs := by cases i <;> simp [path] at hs
  encryptBody := nofun
  encryptTag := nofun
  decryptBody := nofun

/-- A write to a buffer word stays inside the buffer (20 R62). -/
theorem placeWrite_cells (v : Word) {s : State} {off : Nat} (hc : CoreInv s) (h : FlightInv s) (h4 : off % 4 = 0) (y : Nat)
    (hy : memGet (placeWrite v s (place s.cfg off)).mem y ≠ 0) : inBuffer s.cfg y := by
  cases hp : place s.cfg off with
  | bufWord b a =>
    obtain ⟨ha, rfl⟩ := place_eq_bufWord h4 hp
    obtain ⟨hcap, -, -⟩ := cap_le s.cfg hc.params b
    have hfits : a + (lanesOfWord v).length ≤ b.cap s.cfg := by
      have hbase : b.base % 4 = 0 := by cases b <;> rfl
      rw [length_lanesOfWord]
      omega
    rw [hp] at hy
    cases b with
    | out => exact h.cells y hy
    | _ => exact inBuffer_of_memSetBytes hc.memory h.cells _ hfits y hy
  | opWord r i =>
    rw [hp, placeWrite, opWordWrite_eq] at hy
    exact h.cells y hy
  | _ =>
    rw [hp] at hy
    exact h.cells y hy

theorem FlightInv.placeWrite {s : State} (hc : CoreInv s) (h : FlightInv s) (hs : s.seq = .idle) (v : Word) {off : Nat}
    (h4 : off % 4 = 0) : FlightInv (placeWrite v s (place s.cfg off)) := by
  have hcells := placeWrite_cells v hc h h4
  rcases placeWrite_cases v s (place s.cfg off) with ⟨_, hp⟩ | hp
  · rw [hp]
    exact h.issue v
  · rw [hp]
    exact {
      cells := hcells
      outputLength := h.outputLength
      checked := fun i _ hi => absurd (hs ▸ hi) (idle_notMem_path i)
      encryptBody := by simp [hs]
      encryptTag := by simp [hs]
      decryptBody := by simp [hs] }

theorem FlightInv.busWrite {s : State} (hc : CoreInv s) (h : FlightInv s) {off : Nat} (h4 : off % 4 = 0) (v : Word) :
    FlightInv (busWrite off v s) := by
  unfold Machine.busWrite
  split
  · unfold ctrlWrite
    split
    · exact .resetCore s
    · exact h.withUnread s.errlog _ _ s.rng s.agenda s.reply
  · split
    · exact h.withUnread _ s.ie s.done s.rng s.agenda s.reply
    · rename_i hb
      exact h.placeWrite hc ((busy_eq_false_iff s).1 (by simpa using hb)) v h4

theorem FlightInv.hostMove {s : State} (hc : CoreInv s) (h : FlightInv s) (m : HostMove) : FlightInv (hostMove m s) := by
  cases m with
  | rst => exact .resetCore s
  | read width off =>
    unfold Machine.hostMove
    dsimp only
    split
    · exact h.withUnread s.errlog s.ie s.done s.rng s.agenda _
    · exact h.withUnread _ s.ie s.done s.rng s.agenda _
  | write width off v =>
    unfold Machine.hostMove
    dsimp only
    split
    · rename_i hl
      obtain ⟨-, h4, -⟩ := (legalAccess_iff _ _).1 hl
      exact (h.busWrite hc h4 v).withUnread _ _ _ _ _ _
    · exact h.withUnread _ s.ie s.done s.rng s.agenda _

/-- Settles O23: every agent's move keeps the invariant, along a run together with the structural one. -/
theorem stepKeepsFlightInv : Obligations.StepKeepsFlightInv := by
  intro s t hc h hstep
  have hcr : ∀ rest, CoreInv { s with agenda := rest } := fun rest => hc.withAgents s.rng rest s.reply
  have hr : ∀ rest, FlightInv { s with agenda := rest } :=
    fun rest => h.withUnread s.errlog s.ie s.done s.rng rest s.reply
  rcases step_cases hstep with ⟨m, rest, -, rfl⟩ | ⟨a, rest, -, rfl⟩ | ⟨rest, hturn⟩
  · exact (hr rest).hostMove (hcr rest) m
  · exact (hr rest).rngMove a
  · exact (coreTurn_keeps (P := fun u => CoreInv u ∧ FlightInv u)
      (fun _ _ _ hd ht ⟨hcu, hu⟩ => ⟨hcu.turn hd ht, hu.turn hd ht hcu⟩)
      (fun u ⟨hcu, hu⟩ => ⟨hcu.illegalRun, hu.illegalRun u hcu⟩) hturn ⟨hcr rest, hr rest⟩).2

end Sys2Proof.Machine
end

/-! SUPPORT. What stands where in the window, for the accesses that a busy CORE hides and those that ignore a write
(20 R61, R67, R71). -/
section
namespace Sys2Proof.Machine

/-- What holds of the 64 words below 0x100 with the default parameters holds with any: no register there depends on them
(10 R21). -/
theorem place_low_all {P : Nat → Place → Prop} (h : ∀ k < 64, P (4 * k) (place Config.default (4 * k)))
    (c : Config.Params) {off : Nat} (hl : off < 0x100) (h4 : off % 4 = 0) : P off (place c off) := by
  rw [place_low c hl h4, ← place_low Config.default hl h4]
  obtain ⟨k, rfl⟩ : ∃ k, off = 4 * k := ⟨off / 4, by omega⟩
  exact h k (by omega)

/-- The six registers that a busy CORE shows are the first six words of the window (10 R21, 20 R71). -/
theorem readableWhenBusy_place (c : Config.Params) {off : Nat} (h4 : off % 4 = 0) :
    readableWhenBusy (place c off) = decide (off ≤ 0x14) := by
  by_cases hl : off < 0x100
  · exact place_low_all (P := fun off p => readableWhenBusy p = decide (off ≤ 0x14)) (by decide) c hl h4
  · rw [decide_eq_false (by omega)]
    rcases place_high_ne (c := c) (Nat.le_of_not_lt hl) with ⟨r, i, hp⟩ | ⟨b, a, hp⟩ | hp <;> rw [hp] <;> rfl

/-- The places that ignore a write while `BUSY = 0`: the read-only registers, `OUTBUF` and what is reserved (20 R67). -/
def Place.ignoresWrites : Place → Bool
  | .id | .status | .errcode | .errlog | .olen | .hbufLen | .hcntHi | .hcntLo | .hv _ | .hbuf _ | .reserved => true
  | .bufWord b _ => b = .out
  | _ => false

theorem placeWrite_of_ignoresWrites (v : Word) (s : State) {p : Place} (h : p.ignoresWrites = true) :
    placeWrite v s p = s := by
  cases p with
  | bufWord b a =>
    obtain rfl : b = .out := by simpa [Place.ignoresWrites] using h
    rfl
  | id | status | errcode | errlog | olen | hbufLen | hcntHi | hcntLo | hv i | hbuf i | reserved => rfl
  | _ => cases h

/-- A read-only offset holds a read-only register or a byte of `OUTBUF` (10 R21, 20 R61). -/
theorem ignoresWrites_of_readOnlyOffset {c : Config.Params} (hc : c.sized = true) {off : Nat} (h4 : off % 4 = 0)
    (h : readOnlyOffset c off) : (place c off).ignoresWrites = true := by
  by_cases hl : off < 0x100
  · refine place_low_all (P := fun off p => (off = 0x00 ∨ off = 0x08 ∨ off = 0x0C ∨ off = 0x10 ∨ off = 0x24
      ∨ (0x2C ≤ off ∧ off < 0x38) ∨ (0x40 ≤ off ∧ off < 0xA0)) → p.ignoresWrites = true) (by decide) c hl h4 ?_
    unfold readOnlyOffset at h
    omega
  · have ho : 0x200000 ≤ off ∧ off - 0x200000 < c.outCap := by
      unfold readOnlyOffset at h
      omega
    have hp := place_buf hc .out ho.2
    rw [show Buf.out.base + (off - 0x200000) = off by simp only [Buf.base]; omega] at hp
    rw [hp]
    rfl

/-- Beyond the capacity of a buffer its region is reserved (20 R61). -/
theorem bufPlace_of_le {c : Config.Params} {b : Buf} {off : Nat} (h : b.base + b.cap c ≤ off) :
    bufPlace c b off = .reserved :=
  if_neg (by omega)

/-- Nothing stands at a reserved offset (10 R21, R36, 20 R61). -/
theorem place_of_reservedOffset {c : Config.Params} {off : Nat} (h4 : off % 4 = 0) (h : reservedOffset c off) :
    place c off = .reserved := by
  unfold reservedOffset at h
  by_cases hl : off < 0x100
  · exact place_low_all (P := fun off p => (off = 0x38 ∨ off = 0x3C ∨ 0xA4 ≤ off) → p = .reserved) (by decide) c hl h4
      (by omega)
  · unfold place
    split
    · unfold regPlace
      rw [if_neg hl]
      split
      · rfl
      · rename_i r hr
        have := (OpReg.all_getElem? _ _).1 hr
        have := r.slot_lt
        exact if_neg (by omega)
    · split
      · exact bufPlace_of_le (b := .id) (by simp only [Buf.base, Buf.cap]; omega)
      · split
        · exact bufPlace_of_le (b := .msg) (by simp only [Buf.base, Buf.cap]; omega)
        · split
          · exact bufPlace_of_le (b := .out) (by simp only [Buf.base, Buf.cap]; omega)
          · rfl

/-- A reserved offset reads 0, busy or not (20 R61, R71). -/
theorem busRead_of_reserved {s : State} {off : Nat} (h : place s.cfg off = .reserved) : busRead s off = 0 := by
  rw [busRead, h]
  split <;> rfl

/-- A word of `IDBUF` or `MSGBUF` takes a write while idle (20 R63). -/
theorem busWrite_buf {s : State} (hc : s.cfg.sized = true) (hs : s.seq = .idle) {b : Buf} (hb : b ≠ .out) {a : Nat}
    (h4 : a % 4 = 0) (ha : a < b.cap s.cfg) (v : Word) :
    busWrite (b.base + a) v s = memWrite b a (lanesOfWord v) s := by
  rw [busWrite_of_idle hs, place_buf hc b ha]
  · cases b with
    | out => exact absurd rfl hb
    | id => rfl
    | msg => rfl
  · cases b <;> simp only [Buf.base] <;> omega
  · cases b <;> simp only [Buf.base] <;> omega

/-- A word of a buffer reads, while idle, the bytes that show (20 R63, R72). -/
theorem busRead_buf {s : State} (hc : s.cfg.sized = true) (hs : s.seq = .idle) (b : Buf) {a : Nat}
    (ha : a < b.cap s.cfg) : busRead s (b.base + a) = bufWordRead s b a (bufVisible s b) := by
  rw [busRead_of_idle hs, place_buf hc b ha]
  rfl

/-- `IDBUF` and `MSGBUF` show every byte (20 R63). -/
theorem bufWordRead_of_ne_out (s : State) {b : Buf} (hb : b ≠ .out) (a : Nat) :
    bufWordRead s b a (bufVisible s b) = memGet s.mem (b.base + a) ++ memGet s.mem (b.base + a + 1)
      ++ memGet s.mem (b.base + a + 2) ++ memGet s.mem (b.base + a + 3) := by
  cases b with
  | out => exact absurd rfl hb
  | id => rfl
  | msg => rfl

/-- The four bytes of a word written, and every other byte (20 R63). -/
theorem memGet_memSetBytes_lanes {m : List Host.Cell} (h : Memory.wf m = true) (x : Nat) (v : Word) (y : Nat) :
    memGet (memSetBytes m x (lanesOfWord v)) y =
      if y = x then v.extractLsb' 24 8 else if y = x + 1 then v.extractLsb' 16 8
      else if y = x + 2 then v.extractLsb' 8 8 else if y = x + 3 then v.extractLsb' 0 8 else memGet m y := by
  rw [memGet_memSetBytes h, length_lanesOfWord]
  by_cases hy : x ≤ y ∧ y < x + 4
  · obtain ⟨k, rfl⟩ : ∃ k, y = x + k := ⟨y - x, by omega⟩
    have hk : k < 4 := by omega
    rw [if_pos hy, Nat.add_sub_cancel_left]
    interval_cases k <;> simp [byteAt, lanesOfWord]
  · rw [if_neg hy, if_neg (by omega), if_neg (by omega), if_neg (by omega), if_neg (by omega)]

end Sys2Proof.Machine
end

/-! SUPPORT. The statements about accesses to the window (20 R62 to R72). -/
section
namespace Sys2Proof.Machine

/-- Settles O7: of the places a busy CORE listens at `CTRL` only, and there it acts as ever. -/
theorem busyWritesAreDropped : Obligations.BusyWritesAreDropped := by
  intro s off v hs h4 _
  refine ⟨fun hoff => busWrite_of_busy hs h4 hoff v, ?_, ?_⟩
  · rintro rfl hv
    exact (busWrite_of_ctrl rfl v).trans (ctrlWrite_of_srst s hv)
  · rintro rfl hv hdone
    rw [busWrite_of_ctrl rfl v, ctrlWrite_of_not_srst s hv, hdone, Bool.false_and, ← hdone]

/-- Settles O8: the first six words are readable, and every other word is hidden. -/
theorem busyReadsAreHidden : Obligations.BusyReadsAreHidden := by
  intro s off hs h4 _
  have hr := readableWhenBusy_place s.cfg h4
  by_cases hoff : off ≤ 0x14
  · rw [busRead_of_readable (by rw [hr]; exact decide_eq_true hoff), place_low s.cfg (by omega) h4]
    obtain ⟨k, rfl⟩ : ∃ k, off = 4 * k := ⟨off / 4, by omega⟩
    have hk : k ≤ 5 := by omega
    interval_cases k <;> rfl
  · rw [busRead_of_hidden hs (by rw [hr]; exact decide_eq_false hoff)]
    iterate 6 rw [if_neg (by omega)]

/-- Settles O10: a lane of `OUTBUF` shows below `OLEN`. -/
theorem outputIsMaskedByOlen : Obligations.OutputIsMaskedByOlen := by
  intro s a hc hs _ ha
  refine (busRead_buf hc hs .out ha).trans ?_
  simp [bufWordRead, wordOfLanes, bufVisible, Buf.base, add_assoc]

/-- Settles O11, by the four lanes of the word. -/
theorem bufferWordsAreBigEndian : Obligations.BufferWordsAreBigEndian := by
  intro s b a v hb hc hm hs h4 ha
  have hmem := memGet_memSetBytes_lanes hm (b.base + a) v
  rw [busWrite_buf hc hs hb h4 ha]
  refine ⟨?_, hmem, rfl, ?_⟩
  · rw [busRead_buf hc hs b ha, bufWordRead_of_ne_out s hb]
  · rw [busRead_buf (s := memWrite b a (lanesOfWord v) s) hc hs b ha, bufWordRead_of_ne_out _ hb, memWrite_mem]
    simp only [hmem]
    simpa [wordOfLanes] using wordOfLanes_lanesOfWord v

/-- Settles O15: what is not legal is malformed, and the move only logs it. -/
theorem malformedAccessOnlyLogs : Obligations.MalformedAccessOnlyLogs := by
  intro s width off v h
  have hl : legalAccess width off = false := Bool.eq_false_iff.2 fun hl => h ((legalAccess_iff width off).1 hl)
  simp only [hostMove, hl]
  exact ⟨rfl, rfl⟩

/-- Every legal offset below 0x100 is a register that takes writes, a read-only one, or reserved; above, it is a word of an
operand register, a word of a buffer, or reserved (10 R21, 20 R61). -/
theorem legalOffset_cases {c : Config.Params} {off : Nat} (h4 : off % 4 = 0) (h : off < 0x400000) :
    (off = 0x04 ∨ off = 0x14 ∨ off = 0x18 ∨ off = 0x1C ∨ off = 0x20 ∨ off = 0x28 ∨ off = 0xA0)
      ∨ reservedOffset c off ∨ readOnlyOffset c off
      ∨ (∃ (r : OpReg) (i : Nat), i < c.nw ∧ off = 0x100 + 0x80 * r.slot + 4 * i)
      ∨ ∃ (b : Buf) (a : Nat), b ≠ .out ∧ a < b.cap c ∧ off = b.base + a := by
  unfold reservedOffset readOnlyOffset
  by_cases hop : 0x100 ≤ off ∧ off < 0x780 ∧ (off - 0x100) % 0x80 / 4 < c.nw
  · obtain ⟨hlo, hhi, hw⟩ := hop
    obtain ⟨r, hr⟩ := OpReg.exists_slot (k := (off - 0x100) / 0x80) (by omega)
    exact .inr (.inr (.inr (.inl ⟨r, (off - 0x100) % 0x80 / 4, hw, by omega⟩)))
  · by_cases hid : 0x1000 ≤ off ∧ off < 0x1000 + c.idCap
    · exact .inr (.inr (.inr (.inr ⟨.id, off - 0x1000, by decide, by simp only [Buf.cap]; omega,
        by simp only [Buf.base]; omega⟩)))
    · by_cases hmsg : 0x100000 ≤ off ∧ off < 0x100000 + c.msgCap
      · exact .inr (.inr (.inr (.inr ⟨.msg, off - 0x100000, by decide, by simp only [Buf.cap]; omega,
          by simp only [Buf.base]; omega⟩)))
      · omega

/-- Settles O16, place by place; that every offset is one of these is `legalOffset_cases`. -/
theorem onlyFourKindsOfWriteHaveSideEffects : Obligations.OnlyFourKindsOfWriteHaveSideEffects := by
  intro s off v hc h4 hlt
  have hread : hostMove (.read 32 off) s = { s with reply := ⟨false, busRead s off⟩ } :=
    if_pos ((legalAccess_iff _ _).2 ⟨rfl, h4, hlt⟩)
  refine ⟨hread, fun h => busRead_of_reserved (place_of_reservedOffset h4 h), ?_, fun hs => ?_, ?_⟩
  · rintro rfl
    exact busWrite_of_ctrl rfl v
  · refine ⟨fun h => ?_, ?_, ?_, ?_, ?_, ?_, ?_, ?_, ?_⟩
    · have hignored : (place s.cfg off).ignoresWrites = true := by
        rcases h with h | h
        · rw [place_of_reservedOffset h4 h]
          rfl
        · exact ignoresWrites_of_readOnlyOffset hc h4 h
      have hctrl : off ≠ 0x14 := by
        rintro rfl
        cases hignored
      rw [busWrite_of_idle hs h4 hctrl, placeWrite_of_ignoresWrites v s hignored]
    iterate 6
      · rintro rfl
        exact busWrite_of_idle hs rfl (by decide) v
    · rintro r i hi rfl
      rw [busWrite_opWord hc hs r hi]
      exact ⟨opWordWrite_eq r i v s, fun r' hr => opWordWrite_get_ne s hr i v⟩
    · rintro b a hb ha rfl
      have h4a : a % 4 = 0 := by cases b <;> simp only [Buf.base] at h4 <;> omega
      rw [busWrite_buf hc hs hb h4a ha]
      refine ⟨rfl, fun y hy hm => ?_⟩
      rw [memWrite_mem, memGet_memSetBytes hm, length_lanesOfWord, if_neg (by omega)]
  · simpa only [or_assoc] using legalOffset_cases h4 hlt

end Sys2Proof.Machine
end

/-! SUPPORT. The fields of a command word: a word is its four fields, and the fields of a masked word and of the word of an
`H_*` command (30 R80, R82). -/
section
namespace Sys2Proof

/-- The mask of an `H_*` row: every bit but `CTX` (30 R82, R83). -/
def hashMask : Word := 0xFFFFF0FF

/-- A word is its four fields (30 R80). -/
theorem word_eq_fields (w : Word) : w = fieldReserved w ++ fieldF w ++ fieldCtx w ++ fieldOp w := by
  unfold fieldReserved fieldF fieldCtx fieldOp
  rw [BitVec.extractLsb'_append_extractLsb'_eq_extractLsb' (by decide),
    BitVec.extractLsb'_append_extractLsb'_eq_extractLsb' (by decide),
    BitVec.extractLsb'_append_extractLsb'_eq_extractLsb' (by decide)]
  exact BitVec.extractLsb'_eq_self.symm

/-- Two words are equal exactly when their fields are. -/
theorem word_eq_iff_fields {v w : Word} :
    v = w ↔ fieldReserved v = fieldReserved w ∧ fieldF v = fieldF w ∧ fieldCtx v = fieldCtx w ∧ fieldOp v = fieldOp w := by
  refine ⟨fun h => by simp [h], fun ⟨hr, hf, hc, ho⟩ => ?_⟩
  rw [word_eq_fields v, word_eq_fields w, hr, hf, hc, ho]

theorem fieldReserved_and (v w : Word) : fieldReserved (v &&& w) = fieldReserved v &&& fieldReserved w :=
  BitVec.extractLsb'_and
theorem fieldF_and (v w : Word) : fieldF (v &&& w) = fieldF v &&& fieldF w := BitVec.extractLsb'_and
theorem fieldCtx_and (v w : Word) : fieldCtx (v &&& w) = fieldCtx v &&& fieldCtx w := BitVec.extractLsb'_and
theorem fieldOp_and (v w : Word) : fieldOp (v &&& w) = fieldOp v &&& fieldOp w := BitVec.extractLsb'_and

theorem fieldReserved_or (v w : Word) : fieldReserved (v ||| w) = fieldReserved v ||| fieldReserved w :=
  BitVec.extractLsb'_or
theorem fieldF_or (v w : Word) : fieldF (v ||| w) = fieldF v ||| fieldF w := BitVec.extractLsb'_or
theorem fieldCtx_or (v w : Word) : fieldCtx (v ||| w) = fieldCtx v ||| fieldCtx w := BitVec.extractLsb'_or
theorem fieldOp_or (v w : Word) : fieldOp (v ||| w) = fieldOp v ||| fieldOp w := BitVec.extractLsb'_or

/-- The mask of an `H_*` row is all ones but in `CTX`. -/
theorem fields_hashMask : fieldReserved hashMask = BitVec.allOnes 16 ∧ fieldF hashMask = BitVec.allOnes 4
    ∧ fieldCtx hashMask = 0 ∧ fieldOp hashMask = BitVec.allOnes 8 := by decide

/-- A context index in its place is all zeros but in `CTX`. -/
theorem fields_ctx : ∀ c : BitVec 4, fieldReserved (c.zeroExtend 32 <<< 8) = 0 ∧ fieldF (c.zeroExtend 32 <<< 8) = 0
    ∧ fieldCtx (c.zeroExtend 32 <<< 8) = c ∧ fieldOp (c.zeroExtend 32 <<< 8) = 0 := by decide

/-- A word under the mask of an `H_*` row keeps every field but `CTX`. -/
theorem and_hashMask_eq_iff {w v : Word} (hv : fieldCtx v = 0) :
    w &&& hashMask = v ↔ fieldReserved w = fieldReserved v ∧ fieldF w = fieldF v ∧ fieldOp w = fieldOp v := by
  obtain ⟨hr, hf, hc, ho⟩ := fields_hashMask
  rw [word_eq_iff_fields, fieldReserved_and, fieldF_and, fieldCtx_and, fieldOp_and, hr, hf, hc, ho, hv,
    BitVec.and_allOnes, BitVec.and_allOnes, BitVec.and_allOnes]
  simp

/-- The word of an `H_*` command has `CTX = c` over a pattern that has none, and the pattern's other fields (30 R83). -/
theorem hashWord_eq_iff {v w : Word} (hv : fieldCtx v = 0) (c : BitVec 4) :
    hashWord v c = w ↔
      fieldReserved v = fieldReserved w ∧ fieldF v = fieldF w ∧ c = fieldCtx w ∧ fieldOp v = fieldOp w := by
  obtain ⟨hr, hf, hc, ho⟩ := fields_ctx c
  rw [word_eq_iff_fields, hashWord, fieldReserved_or, fieldF_or, fieldCtx_or, fieldOp_or, hr, hf, hc, ho, hv]
  simp

end Sys2Proof
end

/-! SUPPORT. The two kinds of opcode rows, what a row reads, and that the rows are disjoint (30 R82, R83). -/
section
namespace Sys2Proof
open Machine

/-- The row of an `H_*` command: it leaves `CTX` free, and its command carries `CTX`. -/
structure OpRow.IsHash (row : OpRow) : Prop where
  mask : row.mask = hashMask
  ctx : fieldCtx row.pattern = 0
  opcode : fieldOp row.pattern ∈ hashOpcodes
  encodes : ∀ c, encode (row.make c) = hashWord row.pattern c
  wellFormed : ∀ nctx c, (row.make c).WellFormed nctx = decide (c.toNat < nctx)

/-- The row of any other command: it fixes every bit of the word. -/
structure OpRow.IsExact (row : OpRow) : Prop where
  mask : row.mask = BitVec.allOnes 32
  ctx : fieldCtx row.pattern = 0
  opcode : fieldOp row.pattern ∉ hashOpcodes
  encodes : ∀ c, encode (row.make c) = row.pattern
  wellFormed : ∀ nctx c, (row.make c).WellFormed nctx = true

/-- The first four rows are those of the `H_*` commands, the other twenty fix the whole word (30 R83). -/
theorem opRows_kinds : (∀ row ∈ opRows.take 4, row.IsHash) ∧ ∀ row ∈ opRows.drop 4, row.IsExact := by
  simp only [opRows, List.take, List.drop, List.forall_mem_cons]
  refine ⟨⟨?_, ?_, ?_, ?_, by simp⟩, ?_, ?_, ?_, ?_, ?_, ?_, ?_, ?_, ?_, ?_, ?_, ?_, ?_, ?_, ?_, ?_, ?_, ?_, ?_, ?_, by simp⟩
  iterate 4 exact ⟨rfl, by decide, by decide, fun _ => rfl, fun _ _ => rfl⟩
  iterate 20 exact ⟨by decide, by decide, by decide, fun _ => rfl, fun _ _ => rfl⟩

theorem opRow_kind {row : OpRow} (h : row ∈ opRows) : row.IsHash ∨ row.IsExact := by
  rw [← List.take_append_drop 4 opRows, List.mem_append] at h
  exact h.imp (opRows_kinds.1 row) (opRows_kinds.2 row)

/-- A row matches exactly the word of the command it makes: no other word (30 R82, R83). -/
theorem opRow_matches_iff_encode {row : OpRow} (h : row ∈ opRows) (w : Word) :
    w &&& row.mask = row.pattern ↔ encode (row.make (fieldCtx w)) = w := by
  rcases opRow_kind h with hk | hk
  · rw [hk.mask, hk.encodes, and_hashMask_eq_iff hk.ctx, hashWord_eq_iff hk.ctx]
    simp only [true_and, eq_comm]
  · rw [hk.mask, hk.encodes, BitVec.and_allOnes, eq_comm]

theorem opRow_read_eq_some_iff (row : OpRow) (nctx : Nat) (w : Word) (i : Instr) :
    row.read nctx w = some i ↔ w &&& row.mask = row.pattern ∧ i.WellFormed nctx = true ∧ row.make (fieldCtx w) = i := by
  rw [OpRow.read, Option.ite_none_right_eq_some, Option.some.injEq, and_assoc]
  refine and_congr_right fun _ => ⟨?_, ?_⟩
  · rintro ⟨hw, rfl⟩
    exact ⟨hw, rfl⟩
  · rintro ⟨hw, rfl⟩
    exact ⟨hw, rfl⟩

/-- Every command is the one that some row makes of the command's own word (30 R83). -/
theorem exists_opRow_make (i : Instr) : ∃ row ∈ opRows, row.make (fieldCtx (encode i)) = i := by
  have hctx : ∀ (v : Word) (c : BitVec 4), fieldCtx v = 0 → fieldCtx (hashWord v c) = c := fun v c hv =>
    ((hashWord_eq_iff hv c).1 rfl).2.2.1.symm
  cases i with
  | hReset c => exact ⟨_, List.getElem_mem (n := 0) (by decide), congrArg Instr.hReset (hctx _ c (by decide))⟩
  | hUpdate c => exact ⟨_, List.getElem_mem (n := 1) (by decide), congrArg Instr.hUpdate (hctx _ c (by decide))⟩
  | hFinal c => exact ⟨_, List.getElem_mem (n := 2) (by decide), congrArg Instr.hFinal (hctx _ c (by decide))⟩
  | hDigest c => exact ⟨_, List.getElem_mem (n := 3) (by decide), congrArg Instr.hDigest (hctx _ c (by decide))⟩
  | _ => simp [opRows]

/-- Some row reads the command from the word exactly when the command is legal and the word is its encoding. -/
theorem exists_opRow_read_iff (nctx : Nat) (w : Word) (i : Instr) :
    (∃ row ∈ opRows, row.read nctx w = some i) ↔ i.WellFormed nctx = true ∧ encode i = w := by
  constructor
  · rintro ⟨row, hrow, hread⟩
    obtain ⟨hmatch, hw, rfl⟩ := (opRow_read_eq_some_iff row nctx w i).1 hread
    exact ⟨hw, (opRow_matches_iff_encode hrow w).1 hmatch⟩
  · rintro ⟨hw, rfl⟩
    obtain ⟨row, hrow, hmake⟩ := exists_opRow_make i
    exact ⟨row, hrow, (opRow_read_eq_some_iff row nctx _ i).2
      ⟨(opRow_matches_iff_encode hrow _).2 (by rw [hmake]), hw, hmake⟩⟩

/-- Two patterns that differ where both masks fix the word exclude each other. -/
theorem not_matches_both {a b : OpRow} (h : a.pattern &&& b.mask ≠ b.pattern &&& a.mask) (w : Word) :
    ¬ (w &&& a.mask = a.pattern ∧ w &&& b.mask = b.pattern) := by
  rintro ⟨ha, hb⟩
  exact h (by rw [← ha, ← hb, BitVec.and_assoc, BitVec.and_assoc, BitVec.and_comm a.mask])

theorem opRows_pairwise_disjoint :
    opRows.Pairwise fun a b => ∀ w : Word, ¬ (w &&& a.mask = a.pattern ∧ w &&& b.mask = b.pattern) :=
  List.Pairwise.imp not_matches_both (by decide)

/-- Where no two elements answer, the first answer is the only one, so the order does not matter. -/
theorem findSome?_eq_some_iff_of_pairwise {α β : Type} {f : α → Option β} {l : List α}
    (h : l.Pairwise fun a b => (f a).isSome → f b = none) (y : β) :
    l.findSome? f = some y ↔ ∃ x ∈ l, f x = some y := by
  induction l with
  | nil => simp
  | cons a l ih =>
    obtain ⟨ha, hl⟩ := List.pairwise_cons.1 h
    rw [List.findSome?_cons, List.exists_mem_cons_iff, ← ih hl]
    cases hfa : f a with
    | none => simp
    | some z =>
      have hrest : l.findSome? f = none :=
        List.findSome?_eq_none_iff.2 fun b hb => ha b hb (by rw [hfa]; rfl)
      simp [hrest]

theorem opRow_matches_of_read_isSome {row : OpRow} {nctx : Nat} {w : Word} (h : (row.read nctx w).isSome) :
    w &&& row.mask = row.pattern := by
  obtain ⟨i, hi⟩ := Option.isSome_iff_exists.1 h
  exact ((opRow_read_eq_some_iff row nctx w i).1 hi).1

/-- The decoder reads what any of the rows reads, since no two of them match a word (30 R82). -/
theorem decode_eq_some_iff_exists_read (nctx : Nat) (w : Word) (i : Instr) :
    decode nctx w = some i ↔ ∃ row ∈ opRows, row.read nctx w = some i := by
  refine findSome?_eq_some_iff_of_pairwise (opRows_pairwise_disjoint.imp fun {a b} hab ha => ?_) i
  by_contra hb
  exact hab w ⟨opRow_matches_of_read_isSome ha, opRow_matches_of_read_isSome (Option.isSome_iff_ne_none.2 hb)⟩

theorem decode_eq_some_iff (nctx : Nat) (w : Word) (i : Instr) :
    decode nctx w = some i ↔ i.WellFormed nctx = true ∧ encode i = w :=
  (decode_eq_some_iff_exists_read nctx w i).trans (exists_opRow_read_iff nctx w i)

end Sys2Proof
end

/-! SUPPORT. Which words are illegal (30 R85): a row matches a word by the word's fields, and the rows are the opcodes with
the flags each allows. -/
section
namespace Sys2Proof
open Machine

/-- The values of `F` that an opcode allows (30 R81, R85). -/
abbrev FlagsAllowed (op : BitVec 8) (f : BitVec 4) : Prop :=
  ¬ (f ≠ 0 ∧ op ≠ 0x20 ∧ op ≠ 0x21 ∧ op ≠ 0x38 ∧ op ≠ 0x39)
    ∧ ¬ (f.extractLsb' 1 3 ≠ 0 ∧ (op = 0x20 ∨ op = 0x21))
    ∧ ¬ (2 < f.toNat ∧ (op = 0x38 ∨ op = 0x39))

theorem opRow_fields : ∀ row ∈ opRows, fieldReserved row.pattern = 0 ∧ fieldOp row.pattern ∈ opcodes
    ∧ FlagsAllowed (fieldOp row.pattern) (fieldF row.pattern) := by decide

theorem exists_opRow_of_flagsAllowed : ∀ op ∈ opcodes, ∀ f : BitVec 4, FlagsAllowed op f →
    ∃ row ∈ opRows, fieldOp row.pattern = op ∧ fieldF row.pattern = f := by decide

/-- The rows are exactly the opcodes, each with the flags it allows (30 R83, R85). -/
theorem exists_opRow_iff_flagsAllowed (op : BitVec 8) (f : BitVec 4) :
    (∃ row ∈ opRows, fieldOp row.pattern = op ∧ fieldF row.pattern = f) ↔ op ∈ opcodes ∧ FlagsAllowed op f := by
  constructor
  · rintro ⟨row, hrow, rfl, rfl⟩
    exact (opRow_fields row hrow).2
  · exact fun ⟨hop, hf⟩ => exists_opRow_of_flagsAllowed op hop f hf

/-- A row reads a command from a word by the word's fields. -/
theorem opRow_read_isSome_iff {row : OpRow} (h : row ∈ opRows) (nctx : Nat) (w : Word) :
    (row.read nctx w).isSome ↔
      fieldReserved w = 0 ∧ (fieldCtx w = 0 ∨ fieldOp w ∈ hashOpcodes)
        ∧ ((fieldCtx w).toNat < nctx ∨ fieldOp w ∉ hashOpcodes)
        ∧ fieldOp row.pattern = fieldOp w ∧ fieldF row.pattern = fieldF w := by
  have hread : (row.read nctx w).isSome ↔
      w &&& row.mask = row.pattern ∧ (row.make (fieldCtx w)).WellFormed nctx = true := by
    simp [OpRow.read, Option.isSome_ite]
  rw [hread]
  have hres := (opRow_fields row h).1
  rcases opRow_kind h with hk | hk
  · have hop := hk.opcode
    rw [hk.mask, hk.wellFormed, and_hashMask_eq_iff hk.ctx, hres, decide_eq_true_eq]
    constructor
    · rintro ⟨⟨hr, hf, ho⟩, hn⟩
      exact ⟨hr, .inr (ho ▸ hop), .inl hn, ho.symm, hf.symm⟩
    · rintro ⟨hr, -, hn, ho, hf⟩
      exact ⟨⟨hr, hf.symm, ho.symm⟩, hn.resolve_right (not_not_intro (ho ▸ hop))⟩
  · have hop := hk.opcode
    rw [hk.mask, hk.wellFormed, BitVec.and_allOnes, word_eq_iff_fields, hres, hk.ctx]
    constructor
    · rintro ⟨⟨hr, hf, hc, ho⟩, -⟩
      exact ⟨hr, .inl hc, .inr (ho ▸ hop), ho.symm, hf.symm⟩
    · rintro ⟨hr, hc, -, ho, hf⟩
      exact ⟨⟨hr, hf.symm, hc.resolve_right (ho ▸ hop), ho.symm⟩, rfl⟩

/-- A word is legal when its fields pass every clause of 30 R85. -/
theorem not_illegalWord_iff (nctx : Nat) (w : Word) :
    ¬ IllegalWord nctx w ↔
      fieldReserved w = 0 ∧ (fieldCtx w = 0 ∨ fieldOp w ∈ hashOpcodes)
        ∧ ((fieldCtx w).toNat < nctx ∨ fieldOp w ∉ hashOpcodes)
        ∧ fieldOp w ∈ opcodes ∧ FlagsAllowed (fieldOp w) (fieldF w) := by
  simp only [IllegalWord, FlagsAllowed, not_or, not_and_or, not_not, not_le, ne_eq]
  constructor
  · exact fun ⟨hop, hr, hc, hn, hf⟩ => ⟨hr, hc, hn, hop, hf⟩
  · exact fun ⟨hr, hc, hn, hop, hf⟩ => ⟨hop, hr, hc, hn, hf⟩

theorem decode_eq_none_iff (nctx : Nat) (w : Word) : decode nctx w = none ↔ IllegalWord nctx w := by
  rw [← not_iff_not, not_illegalWord_iff, ← exists_opRow_iff_flagsAllowed, decode, List.findSome?_eq_none_iff]
  constructor
  · intro h
    push Not at h
    obtain ⟨row, hrow, hread⟩ := h
    obtain ⟨hr, hc, hn, hop⟩ := (opRow_read_isSome_iff hrow nctx w).1 (Option.isSome_iff_ne_none.2 hread)
    exact ⟨hr, hc, hn, row, hrow, hop⟩
  · rintro ⟨hr, hc, hn, row, hrow, hop⟩ h
    exact Option.isSome_iff_ne_none.1 ((opRow_read_isSome_iff hrow nctx w).2 ⟨hr, hc, hn, hop⟩) (h row hrow)

end Sys2Proof
end

/-! SUPPORT. The CORE's turn by what `CUR` decodes to, and the answers of the RNG port that are taken. -/
section
namespace Sys2Proof.Machine

theorem runCore_idle {s : State} (h : s.seq = .idle) : runCore s = .next s := if_pos h

theorem runCore_legal {s : State} {i : Instr} (h : s.seq ≠ .idle) (hd : decode s.cfg.nctx s.cur = some i) :
    runCore s = exec i s := by
  rw [runCore, if_neg h, hd]

theorem runCore_illegal {s : State} (h : s.seq ≠ .idle) (hd : decode s.cfg.nctx s.cur = none) :
    runCore s = execIllegal s := by
  rw [runCore, if_neg h, hd]

theorem tickCore_legal {s : State} {i : Instr} (hd : decode s.cfg.nctx s.cur = some i) (ho : owns i s.seq = true) :
    tickCore s = .next ((turn i s).getD s) := by
  rw [tickCore, hd]
  exact if_pos ho

/-- An illegal word ends in `CHECK` (30 R85). -/
theorem execIllegal_check {s : State} (h : s.seq = .check) : execIllegal s = .next (raise [] .illegal s) := by
  simp [execIllegal, illegalOwns, illegalRun, h]

theorem rngWaiting_iff (s : State) :
    s.rngWaiting = true ↔ (s.seq = .kgDraw ∨ s.seq = .sgDraw ∨ s.seq = .enDraw) ∧ s.rng = []
      ∧ overLimit s.cfg.retryLimit (s.tmp.tries + 1) = false := by
  simp [State.rngWaiting, and_assoc, or_assoc]

theorem rngMove_of_waiting (a : RngAnswer) {s : State} (h : s.rngWaiting = true) : rngMove a s = { s with rng := [a] } :=
  if_pos h

theorem rngMove_of_not_waiting (a : RngAnswer) {s : State} (h : ¬ s.rngWaiting = true) : rngMove a s = s := if_neg h

end Sys2Proof.Machine
end

/-! SUPPORT. The statements about the command word and its decoding (30 R80 to R85), and about whose turn it is. -/
section
namespace Sys2Proof.Machine

/-- Settles O1: the decoder reads what some row reads, and a row reads exactly the word of the command it makes. -/
theorem decodeAndEncodeAgree : Obligations.DecodeAndEncodeAgree := decode_eq_some_iff

/-- Settles O2: where two patterns differ under both masks no word matches both, and then the order is immaterial. -/
theorem opcodeRowsAreDisjoint : Obligations.OpcodeRowsAreDisjoint :=
  ⟨opRows_pairwise_disjoint, decode_eq_some_iff_exists_read⟩

/-- Settles O3, by the fields of the word and the error entry from `CHECK`. -/
theorem illegalWordsEndWithErrIllegal : Obligations.IllegalWordsEndWithErrIllegal := by
  refine ⟨decode_eq_none_iff, fun nctx => .inl (by decide), fun s w ⟨hseq, htmp, hhi⟩ hw => ?_⟩
  have hd : decode (issue w s).cfg.nctx (issue w s).cur = none := (decode_eq_none_iff s.cfg.nctx w).2 hw
  calc runCore (placeWrite w s .cmd)
      = execIllegal (issue w s) := runCore_illegal (s := issue w s) (by simp) hd
    _ = .next (raise [] .illegal (issue w s)) := execIllegal_check rfl
    _ = _ := by
      rw [raise_eq, ← hseq, ← htmp, ← hhi]
      rfl

/-- Settles O4, by evaluating the decoder on the words of 30 R83. -/
theorem tableWordsDecode : Obligations.TableWordsDecode := by
  unfold Obligations.TableWordsDecode
  decide

/-- Settles O5, by the next move of the agenda. -/
theorem stepRunsTheDecodedCommand : Obligations.StepRunsTheDecodedCommand := by
  refine ⟨fun s i hs hd => ⟨((decode_eq_some_iff _ _ _).1 hd).1, fun ha => ?_, fun rest ha => ?_, fun rest ha ho => ?_⟩,
    fun s hs ha => ?_, fun s m rest ha => ?_, fun s a rest ha => ?_⟩
  · rw [step, ha]
    exact runCore_legal hs hd
  · rw [step, ha]
    exact runCore_legal hs hd
  · rw [step, ha]
    exact tickCore_legal hd ho
  · rw [step, ha]
    exact runCore_idle hs
  · rw [step, ha]
  · have hstep : step s = .next (rngMove a { s with agenda := rest }) := by rw [step, ha]
    have hwait := rngWaiting_iff { s with agenda := rest }
    refine ⟨hstep, fun hw => ?_, fun hw => ?_⟩
    · rw [hstep, rngMove_of_waiting a (hwait.2 hw)]
    · rw [hstep, rngMove_of_not_waiting a (mt hwait.1 hw)]

end Sys2Proof.Machine
end

/-! SUPPORT. The stream law of `Absorb`, and that a context finalizes to the `SM3` of what it has absorbed (40 R113,
R114). -/
section
namespace Sys2Proof.Machine

/-- With less than a block at hand nothing is compressed (40 R113). -/
theorem absorb_of_lt {x : HashCtx} {d : Bytes} (h : (x.buf ++ d).length < 64) :
    absorb x d = ⟨x.v, x.buf ++ d, x.cnt + BitVec.ofNat 64 (8 * d.length)⟩ := by
  rw [absorb_eq, Nat.div_eq_of_lt h]
  simp [compressBlocks_zero]

theorem absorb_nil {x : HashCtx} (h : x.buf.length < 64) : absorb x [] = x := by
  rw [absorb_of_lt (by simpa using h)]
  simp

theorem length_absorb_buf_lt (x : HashCtx) (d : Bytes) : (absorb x d).buf.length < 64 := by
  rw [absorb_eq, List.length_drop]
  omega

@[simp] theorem absorb_cnt (x : HashCtx) (d : Bytes) : (absorb x d).cnt = x.cnt + BitVec.ofNat 64 (8 * d.length) := rfl

/-- A whole block at hand is compressed, and the rest absorbed into the new state; the counts aside (40 R113). -/
theorem absorb_of_le {x : HashCtx} {d : Bytes} (h : 64 ≤ (x.buf ++ d).length) (c : BitVec 64) :
    (absorb x d).v = (absorb ⟨sm3CF x.v ((x.buf ++ d).take 64), [], c⟩ ((x.buf ++ d).drop 64)).v
      ∧ (absorb x d).buf = (absorb ⟨sm3CF x.v ((x.buf ++ d).take 64), [], c⟩ ((x.buf ++ d).drop 64)).buf := by
  simp only [absorb_eq, List.nil_append]
  generalize x.buf ++ d = m at h ⊢
  have hn : m.length / 64 = (m.drop 64).length / 64 + 1 := by rw [List.length_drop]; omega
  rw [hn, compressBlocks_succ, List.drop_drop, Nat.mul_add, Nat.add_comm (64 * _)]
  exact ⟨rfl, rfl⟩

/-- The blocks of a stream are the blocks of its front, and then those of what is left of it and the rest (40 R113). -/
theorem compressBlocks_stream (v : Words8) (m d : Bytes) :
    compressBlocks (compressBlocks v m (m.length / 64)) (m.drop (64 * (m.length / 64)) ++ d)
        ((m.drop (64 * (m.length / 64)) ++ d).length / 64) =
      compressBlocks v (m ++ d) ((m ++ d).length / 64) := by
  have hle : 64 * (m.length / 64) ≤ m.length := Nat.mul_div_le _ _
  have hn : (m ++ d).length / 64 = m.length / 64 + (m.drop (64 * (m.length / 64)) ++ d).length / 64 := by
    simp only [List.length_append, List.length_drop]
    omega
  rw [hn, compressBlocks_add, compressBlocks_append v m d _ hle, List.drop_append_of_le_length hle]

/-- Absorbing `d1` then `d2` is absorbing `d1 ‖ d2` (40 R113). -/
theorem absorb_absorb (x : HashCtx) (d1 d2 : Bytes) : absorb (absorb x d1) d2 = absorb x (d1 ++ d2) := by
  simp only [absorb_eq, ← List.append_assoc, compressBlocks_stream, HashCtx.mk.injEq, true_and]
  generalize x.buf ++ d1 = m
  have hle : 64 * (m.length / 64) ≤ m.length := Nat.mul_div_le _ _
  constructor
  · rw [← List.drop_append_of_le_length hle, List.drop_drop]
    congr 1
    simp only [List.length_append, List.length_drop]
    omega
  · rw [BitVec.add_assoc, ← BitVec.ofNat_add, List.length_append, Nat.mul_add]

/-- Absorbing chunk after chunk is absorbing their concatenation, whatever the split (40 R113). -/
theorem foldl_absorb {x : HashCtx} (hx : x.buf.length < 64) (chunks : List Bytes) :
    chunks.foldl absorb x = absorb x chunks.flatten := by
  induction chunks generalizing x with
  | nil => exact (absorb_nil hx).symm
  | cons d ds ih => rw [List.foldl_cons, ih (length_absorb_buf_lt x d), absorb_absorb, List.flatten_cons]

/-- The padding holds the bit length modulo 2^64 (40 R111). -/
theorem sm3Pad_mod (buf : Bytes) (bits : Nat) : sm3Pad buf (bits % 2 ^ 64) = sm3Pad buf bits := by
  unfold sm3Pad
  rw [show 2 ^ 64 = 256 ^ 8 by norm_num, be_mod 8 bits 8 (Nat.le_refl 8)]

/-- A context that has absorbed a message from the initial one finalizes to its `SM3` (40 R112, R114). -/
theorem finalize_absorb_init (m : Bytes) : finalize (absorb HashCtx.init m) = sm3 m := by
  have hcnt : (absorb HashCtx.init m).cnt.toNat = 8 * m.length % 2 ^ 64 := by simp [HashCtx.init]
  unfold finalize sm3
  rw [hcnt, sm3Pad_mod, absorb_eq]
  rfl

end Sys2Proof.Machine
end

/-! SUPPORT. The padding, by its lengths (40 R111). -/
section
namespace Sys2Proof.Machine

theorem padZeros_eq {n : Nat} (h : n < 64) : padZeros n = (119 - n) % 64 := by
  unfold padZeros modN
  omega

/-- The last eight bytes of the padding are the bit length (40 R111). -/
theorem drop_sm3Pad (buf : Bytes) (bits : Nat) :
    (sm3Pad buf bits).drop (buf.length + 1 + padZeros buf.length) = be 8 bits := by
  unfold sm3Pad
  exact List.drop_left' (by simp only [List.length_append, List.length_singleton, List.length_replicate])

end Sys2Proof.Machine
end

/-! SUPPORT. The words of the message expansion (40 R102, R104). -/
section
namespace Sys2Proof.Machine

@[simp] theorem length_blockWords (b : Bytes) : (blockWords b).length = 16 := by simp [blockWords]

/-- The words of a block are its big-endian values (40 R102). -/
theorem toNat_blockWords_getD (b : Bytes) {i : Nat} (h : i < 16) :
    ((blockWords b).getD i 0).toNat = intOf (slice b (4 * i) 4) := by
  have hlen : (slice b (4 * i) 4).length ≤ 4 := by simp [slice]
  have hlt : intOf (slice b (4 * i) 4) < 2 ^ 32 :=
    calc intOf (slice b (4 * i) 4) < 256 ^ (slice b (4 * i) 4).length := intOf_lt _
      _ ≤ 256 ^ 4 := Nat.pow_le_pow_right (by norm_num) hlen
      _ = 2 ^ 32 := by norm_num
  rw [blockWords, List.getD_eq_getElem _ _ (by simpa using h), List.getElem_map, List.getElem_range, BitVec.toNat_ofNat,
    Nat.mod_eq_of_lt hlt]

/-- Every word from the seventeenth on is the next word of those before it. -/
def FollowsRecurrence (w : List Word) : Prop := ∀ j, 16 ≤ j → j < w.length → w.getD j 0 = nextW (w.take j)

theorem followsRecurrence_blockWords (b : Bytes) : FollowsRecurrence (blockWords b) := fun j hj hlt => by
  rw [length_blockWords] at hlt
  omega

theorem FollowsRecurrence.append_nextW {w : List Word} (h : FollowsRecurrence w) :
    FollowsRecurrence (w ++ [nextW w]) := by
  intro j hj hlt
  rw [List.length_append, List.length_singleton] at hlt
  obtain hw | rfl : j < w.length ∨ j = w.length := by omega
  · rw [List.getD_append _ _ _ _ hw, List.take_append_of_le_length hw.le, h j hj hw]
  · simp

theorem FollowsRecurrence.extendW {w : List Word} (h : FollowsRecurrence w) (n : Nat) :
    FollowsRecurrence (extendW n w) := by
  induction n generalizing w with
  | zero => exact h
  | succ n ih => exact ih h.append_nextW

theorem length_extendW (n : Nat) (w : List Word) : (extendW n w).length = w.length + n := by
  induction n generalizing w with
  | zero => rfl
  | succ n ih =>
    rw [extendW, ih, List.length_append, List.length_singleton]
    omega

/-- Expansion leaves the words it starts from. -/
theorem extendW_getD_of_lt (n : Nat) {w : List Word} {i : Nat} (h : i < w.length) :
    (extendW n w).getD i 0 = w.getD i 0 := by
  induction n generalizing w with
  | zero => rfl
  | succ n ih => rw [extendW, ih (by simp; omega), List.getD_append _ _ _ _ h]

@[simp] theorem length_expandW (b : Bytes) : (expandW b).length = 68 := by simp [expandW, length_extendW]

/-- The first sixteen words of the expansion are those of the block (40 R104). -/
theorem toNat_expandW_getD (b : Bytes) {i : Nat} (h : i < 16) :
    ((expandW b).getD i 0).toNat = intOf (slice b (4 * i) 4) := by
  rw [expandW, extendW_getD_of_lt _ (by simpa using h), toNat_blockWords_getD b h]

/-- The recurrence reads only words before the one it makes. -/
theorem nextW_take {w : List Word} {j : Nat} (h16 : 16 ≤ j) (hj : j ≤ w.length) :
    nextW (w.take j) =
      sm3P1 (w.getD (j - 16) 0 ^^^ w.getD (j - 9) 0 ^^^ (w.getD (j - 3) 0).rotateLeft 15)
        ^^^ (w.getD (j - 13) 0).rotateLeft 7 ^^^ w.getD (j - 6) 0 := by
  have hget : ∀ k, 0 < k → k ≤ 16 → (w.take j).getD (j - k) 0 = w.getD (j - k) 0 := fun k h0 hk => by
    rw [List.getD_eq_getElem?_getD, List.getElem?_take_of_lt (by omega), ← List.getD_eq_getElem?_getD]
  simp only [nextW, List.length_take_of_le hj]
  rw [hget 16 (by norm_num) (by norm_num), hget 9 (by norm_num) (by norm_num), hget 3 (by norm_num) (by norm_num),
    hget 13 (by norm_num) (by norm_num), hget 6 (by norm_num) (by norm_num)]

/-- The later words of the expansion follow the recurrence (40 R104). -/
theorem expandW_getD (b : Bytes) {j : Nat} (h16 : 16 ≤ j) (hj : j < 68) :
    (expandW b).getD j 0 =
      sm3P1 ((expandW b).getD (j - 16) 0 ^^^ (expandW b).getD (j - 9) 0 ^^^ ((expandW b).getD (j - 3) 0).rotateLeft 15)
        ^^^ ((expandW b).getD (j - 13) 0).rotateLeft 7 ^^^ (expandW b).getD (j - 6) 0 := by
  have hlt : j < (expandW b).length := by simpa using hj
  have hrec : FollowsRecurrence (expandW b) := (followsRecurrence_blockWords b).extendW 52
  rw [hrec j h16 hlt, nextW_take h16 hlt.le]

end Sys2Proof.Machine
end

/-! SUPPORT. The rounds of the compression function (40 R108, R109). -/
section
namespace Sys2Proof.Machine

/-- The working words before round n. -/
def workingWords (w : List Word) (v : Words8) (n : Nat) : Words8 := (List.range n).foldl (sm3Round w) v

theorem workingWords_zero (w : List Word) (v : Words8) : workingWords w v 0 = v := rfl

theorem workingWords_succ (w : List Word) (v : Words8) (n : Nat) :
    workingWords w v (n + 1) = sm3Round w (workingWords w v n) n := by
  simp only [workingWords, List.range_succ, List.foldl_append, List.foldl_cons, List.foldl_nil]

theorem sm3CF_eq (v : Words8) (b : Bytes) : sm3CF v b = v.xor (workingWords (expandW b) v 64) := rfl

theorem Words8.get_xor (v r : Words8) {i : Nat} (h : i < 8) : (v.xor r).get i = v.get i ^^^ r.get i := by
  interval_cases i <;> rfl

end Sys2Proof.Machine
end

/-! SUPPORT. The run of a hash command (40 R119). -/
section
namespace Sys2Proof.Machine

/-- A hash command that passes its pre-checks takes its one run state and completes (40 R119). -/
theorem exec_hash (i : Instr) {s : State} {act : State → State} (hs : s.seq = .check)
    (hpath : path i = [.hashRun]) (hbody : body i = singleState .hashRun (complete ∘ act))
    (hchecks : firstFailing (checks i s) = none) : exec i s = .next (complete (act (enterRun i s))) := by
  refine exec_single hs hchecks ?_ rfl
  rw [hbody, singleState, if_pos (by simp [hpath])]
  rfl

@[simp] theorem enterRun_message (i : Instr) (s : State) : (enterRun i s).message = s.message := rfl

@[simp] theorem enterRun_hashCtx (c : Nat) (i : Instr) (s : State) : hashCtx c (enterRun i s) = hashCtx c s := rfl

/-- A command that outputs a digest ends with it in `OUTBUF` and `OLEN = 32` (10 R32, 40 R117). -/
theorem complete_output_of_length {d : Bytes} (hd : d.length = 32) (s : State) :
    complete (output d s) = { Finished s with mem := memSetBytes s.mem 0x200000 d, olen := 32 } := by
  rw [complete, output, hd]
  rfl

theorem firstFailing_ctxCheck {c : BitVec 4} {s : State} (hc : c.toNat < s.cfg.nctx) :
    firstFailing [ctxCheck c s] = none := by
  simp [firstFailing_eq_none_iff, ctxCheck, hc]

theorem firstFailing_ctxCheck_mlenCheck {c : BitVec 4} {s : State} (hc : c.toNat < s.cfg.nctx)
    (hm : s.mlen.toNat ≤ s.cfg.msgCap) : firstFailing [ctxCheck c s, mlenCheck s] = none := by
  simp [firstFailing_eq_none_iff, ctxCheck, mlenCheck, hc, hm]

end Sys2Proof.Machine
end

/-! SUPPORT. The statements about the SM3 engine and the hash commands (40 R101 to R118). -/
section
namespace Sys2Proof.Machine

/-- Settles O49: a split absorbs as its concatenation, and the initial context that absorbed a message finalizes to its
`SM3`. -/
theorem chunkedHashIsSm3 : Obligations.ChunkedHashIsSm3 := fun chunks => by
  rw [foldl_absorb (x := HashCtx.init) (by decide), finalize_absorb_init]

/-- Settles O50, by the closed form of `Absorb`. -/
theorem absorbIsAStream : Obligations.AbsorbIsAStream := by
  refine fun x hx => ⟨absorb_nil hx, fun d => ⟨length_absorb_buf_lt x d, absorb_cnt x d⟩, fun d hd => ?_,
    fun d hd => absorb_of_le hd 0, absorb_absorb x⟩
  rw [absorb_of_lt hd]
  exact ⟨rfl, rfl⟩

/-- Settles O51, by the number of zero bytes: it is the residue that fills the block. -/
theorem paddingFillsTheBlock : Obligations.PaddingFillsTheBlock := by
  intro buf bits hbuf hbits
  have hz := padZeros_eq hbuf
  refine ⟨padZeros buf.length, rfl, hz, length_sm3Pad_mod buf bits, fun y hy => by omega, ?_, ?_⟩
  · rw [length_sm3Pad, hz]
    split <;> omega
  · rw [drop_sm3Pad, intOf_be, Nat.mod_eq_of_lt (by simpa using hbits)]

/-- Settles O52, by induction on the words appended. -/
theorem expansionFollowsTheRecurrence : Obligations.ExpansionFollowsTheRecurrence := fun b _ =>
  ⟨length_expandW b, fun _ hi => toNat_expandW_getD b hi, fun _ h16 hj => expandW_getD b h16 hj⟩

/-- Settles O60: the words are those of the expansion, and the states those of the fold over the rounds. -/
theorem compressionFollowsTheRounds : Obligations.CompressionFollowsTheRounds := by
  intro v b _
  refine ⟨fun i => (expandW b).getD i 0, wPrime (expandW b), workingWords (expandW b) v,
    fun i hi => toNat_expandW_getD b hi, fun j h16 hj => expandW_getD b h16 hj, fun j _ => rfl,
    workingWords_zero _ v, fun j _ => ?_, fun i hi => ?_⟩
  · rw [workingWords_succ]
    exact ⟨rfl, rfl, rfl, rfl, rfl, rfl, rfl, rfl⟩
  · rw [sm3CF_eq, Words8.get_xor _ _ hi]

/-- Settles O34, by the one run state of each command. -/
theorem hashStateCommands : Obligations.HashStateCommands := by
  refine fun c s hs hc => ⟨?_, fun hm => ?_⟩
  · exact exec_hash (.hReset c) hs rfl rfl (firstFailing_ctxCheck hc)
  · exact exec_hash (.hUpdate c) hs rfl rfl (firstFailing_ctxCheck_mlenCheck hc hm)

/-- Settles O35, by the one run state of each command; the context that absorbed the message finalizes to its `SM3`. -/
theorem hashDigestCommands : Obligations.HashDigestCommands := by
  refine fun c s hs hc => ⟨?_, fun hm => ?_⟩
  · rw [exec_hash (.hFinal c) hs rfl rfl (firstFailing_ctxCheck hc), hFinalRun, enterRun_hashCtx,
      complete_output_of_length (length_finalize _), enterRun_mem]
    rfl
  · rw [exec_hash (.hDigest c) hs rfl rfl (firstFailing_ctxCheck_mlenCheck hc hm), hDigestRun, finalize_absorb_init,
      complete_output_of_length (length_sm3 _), enterRun_message, setHashCtx_mem, enterRun_mem]
    rfl

end Sys2Proof.Machine
end

/-! SUPPORT. The GA port within its contract (41 R132, R133). -/
section
namespace Sys2Proof.Machine

/-- The port of the model answers by the group law where the contract holds (41 R132). -/
theorem gaCorrect : GACorrect ga where
  add d q r hd hq hr := if_pos (by simp [hd, hq, hr])
  mul d q k hd hq := if_pos (by simp [hd, hq])
  mulBase d k hd hg := (if_pos (by simp [hd, hg])).trans (if_pos (by simp [hd, hg])).symm
  isInf d q hd hq := if_pos (by simp [hd, hq])

theorem ga_mulBase_eq_curveMul {d : Domain} (hd : domainInContract d = true) (hg : pointInContract d d.g = true)
    (k : Nat) : ga.mulBase d k = curveMul d d.g k :=
  (gaCorrect.mulBase d k hd hg).trans (gaCorrect.mul d d.g k hd hg)

/-- A multiple of G is at infinity for the port exactly when it is by the group law. -/
theorem ga_isInf_mulBase_iff {d : Domain} (hd : domainInContract d = true) (hg : pointInContract d d.g = true) (k : Nat) :
    ga.isInf d (ga.mulBase d k) = true ↔ curveMul d d.g k = Point.inf := by
  rw [ga_mulBase_eq_curveMul hd hg, gaCorrect.isInf d _ hd (curveMul_inContract hd hg k), decide_eq_true_eq]

theorem pointInContract_of_onCurve {d : Domain} {q : Point} (h : onCurve d q = true) : pointInContract d q = true := by
  simp [pointInContract, h]

/-- `mul(P, k)` adds P to `INF` k times (41 R133). -/
theorem curveMul_eq_iterate (d : Domain) (q : Point) (k : Nat) :
    curveMul d q k = (fun r => curveAdd d r q)^[k] Point.inf := by
  induction k with
  | zero => rfl
  | succ k ih => rw [Function.iterate_succ_apply', ← ih, curveMul]

@[simp] theorem curveAdd_inf_left (d : Domain) (q : Point) : curveAdd d Point.inf q = q := by simp [curveAdd]

/-- The multiples of a finite point return to `INF` with a period, and a prime n with n·P = `INF` is that period. This asks
nothing of the curve, so it also holds where the finite point (0, 0) is taken for `INF` (41 R134). -/
theorem curveMul_eq_inf_iff_dvd {d : Domain} {q : Point} {n : Nat} (hq : q ≠ Point.inf) (hn : n.Prime)
    (h : curveMul d q n = Point.inf) (k : Nat) : curveMul d q k = Point.inf ↔ n ∣ k := by
  have hstep : curveAdd d Point.inf q ≠ Point.inf := by rwa [curveAdd_inf_left]
  rw [curveMul_eq_iterate] at h ⊢
  have : Fact n.Prime := ⟨hn⟩
  have hperiod : Function.minimalPeriod (fun r => curveAdd d r q) Point.inf = n :=
    Function.minimalPeriod_eq_prime h hstep
  rw [← hperiod]
  exact Function.isPeriodicPt_iff_minimalPeriod_dvd

/-- Settles O57: the contract by the definition of the port, and the order of G by the period of its multiples. -/
theorem gaPortMeetsItsContract : Obligations.GAPortMeetsItsContract := by
  refine ⟨gaCorrect, fun d q r k hd hq hr => ⟨?_, ?_⟩, fun d k hd hg hne hn hinf => ?_⟩
  · rw [gaCorrect.add d q r hd hq hr]
    exact curveAdd_inContract hd hq hr
  · rw [gaCorrect.mul d q k hd hq]
    exact curveMul_inContract hd hq k
  · rw [ga_mulBase_eq_curveMul hd hg] at hinf
    rw [ga_isInf_mulBase_iff hd hg, curveMul_eq_inf_iff_dvd hne hn hinf]

end Sys2Proof.Machine
end

/-! SUPPORT. The domain check and the public key command (41 R138 to R141). -/
section
namespace Sys2Proof.Machine

/-- A command with one run state that passes its pre-checks does what that state does, which ends it. -/
theorem exec_singleState {i : Instr} {s : State} {q : Seq} {act : State → State} (hs : s.seq = .check)
    (hpath : path i = [q]) (hbody : body i = singleState q act) (hchecks : firstFailing (checks i s) = none)
    (hidle : (act (enterRun i s)).seq = .idle) : exec i s = .next (act (enterRun i s)) := by
  refine exec_single hs hchecks ?_ hidle
  rw [hbody, singleState, if_pos (by simp [hpath])]

theorem Point.eq_inf_iff (q : Point) : q = Point.inf ↔ q.x = 0 ∧ q.y = 0 := by
  cases q
  simp [Point.inf]

/-- `OnCurve` with the powers of 41 R136. -/
theorem onCurve_iff_pow (d : Domain) (q : Point) :
    onCurve d q = true ↔ q.x < d.p ∧ q.y < d.p ∧ q.y ^ 2 % d.p = (q.x ^ 3 + d.a * q.x + d.b) % d.p := by
  have hx : q.x ^ 3 = q.x * q.x * q.x := by ring
  simp [onCurve, and_assoc, hx, sq]

/-- The six conditions of 41 R138, as propositions. -/
theorem validDomain_iff (opBits : Nat) (d : Domain) :
    validDomain opBits d = true ↔
      (1 ≤ d.bits ∧ d.bits ≤ opBits ∧ d.p < 2 ^ d.bits)
      ∧ (3 < d.p ∧ d.p.Prime)
      ∧ (d.a < d.p ∧ d.b < d.p ∧ d.gx < d.p ∧ d.gy < d.p)
      ∧ (¬ (d.gx = 0 ∧ d.gy = 0) ∧ d.gy ^ 2 % d.p = (d.gx ^ 3 + d.a * d.gx + d.b) % d.p)
      ∧ d.n.Prime
      ∧ ga.isInf d (ga.mulBase d d.n) = true := by
  simp only [validDomain, Bool.and_eq_true, decide_eq_true_eq, isPrime_iff, onCurve_iff_pow, Ne, Point.eq_inf_iff,
    Domain.g]
  tauto

theorem exec_domCheck {s : State} (hs : s.seq = .check) :
    exec .domCheck s = .next (domCheckRun (enterRun .domCheck s)) := by
  refine exec_singleState hs rfl rfl rfl ?_
  unfold domCheckRun
  dsimp only
  split
  · exact complete_seq _
  · exact raise_seq _ _ _

theorem domCheckRun_of_valid {s : State} (h : DomainValid s) :
    domCheckRun s = { Finished s with domok := true, result := true } := by
  unfold domCheckRun
  rw [h]
  rfl

theorem domCheckRun_of_not_valid {s : State} (h : ¬ DomainValid s) :
    domCheckRun s = { Finished s with
      domok := false, result := false, err := true, errcode := 2, errlog := s.errlog ||| 4 } := by
  unfold domCheckRun
  rw [Bool.eq_false_iff.2 h]
  dsimp only
  rw [if_neg Bool.false_ne_true, raise_eq]
  simp [destinations, clearRegs, ErrKind.code, bit, Finished]

/-- Settles O36: the run state by its two verdicts, the conditions by `validDomain_iff`. -/
theorem domCheckCompletes : Obligations.DomCheckCompletes := by
  refine fun s => ⟨fun hs hv => ?_, fun hs hv => ?_, validDomain_iff _ _, fun hd hg => ?_⟩
  · rw [exec_domCheck hs, domCheckRun_of_valid (s := enterRun .domCheck s) hv]
    rfl
  · rw [exec_domCheck hs, domCheckRun_of_not_valid (s := enterRun .domCheck s) hv]
    rfl
  · exact ga_isInf_mulBase_iff hd (pointInContract_of_onCurve hg) _

/-- Within the contract a register that is wide enough for P keeps a multiple of G whole (10 R36; log 14). -/
theorem gaMulBase_mod {s : State} (hd : domainInContract s.dom = true) (hg : onCurve s.dom s.dom.g = true)
    (hp : s.regs.domP ≤ 2 ^ s.cfg.opBits) (k : Nat) :
    (⟨(s.gaMulBase k).x % 2 ^ s.cfg.opBits, (s.gaMulBase k).y % 2 ^ s.cfg.opBits⟩ : Point)
      = curveMul s.dom s.dom.g k := by
  have hG := pointInContract_of_onCurve hg
  obtain ⟨h3, -, -⟩ := (domainInContract_iff s.dom).1 hd
  obtain ⟨hx, hy⟩ := lt_of_inContract (by omega) (curveMul_inContract hd hG k)
  rw [State.gaMulBase, ga_mulBase_eq_curveMul hd hG, Nat.mod_eq_of_lt (hx.trans_le hp),
    Nat.mod_eq_of_lt (hy.trans_le hp)]

/-- `PUB_RUN` loads the multiple of G by `KEY_D` (41 R141). -/
theorem pubkeyRun_eq (s : State) :
    pubkeyRun s = { Finished s with
      regs := { s.regs with
        keyQx := (s.gaMulBase s.regs.keyD).x % 2 ^ s.cfg.opBits
        keyQy := (s.gaMulBase s.regs.keyD).y % 2 ^ s.cfg.opBits } } := by
  simp only [pubkeyRun, complete, finish, Finished, setPubKey, setReg, OperandRegs.put]

/-- Settles O38, by the one run state of the command. -/
theorem pubkeyCompletes : Obligations.PubkeyCompletes := by
  intro s hs hdom h1 hlt
  have hchecks : firstFailing (checks .pubkey s) = none :=
    (firstFailing_eq_none_iff _).2 (by simp [checks, domokCheck, keyCheck, hdom, h1, hlt])
  have hrun := exec_singleState (i := .pubkey) hs rfl rfl hchecks rfl
  rw [pubkeyRun_eq] at hrun
  exact ⟨hrun, fun hd hg hp => ⟨_, hrun, gaMulBase_mod hd hg hp s.regs.keyD⟩⟩

end Sys2Proof.Machine
end

/-! SUPPORT. The draws of a command (41 R137): what each answer of the RNG port does at the sequencer state that
draws. -/
section
namespace Sys2Proof.Machine

/-- The sequencer state after an accepted draw (41 R142, 43 R173, 44 R192); a command that draws nothing has none. -/
def drawNext : Instr → Seq
  | .keygen => .kgPub
  | .sign | .signU => .sgPoint
  | .encrypt => .enPoint
  | _ => .finish

/-- What the commands do with an accepted draw: keep it in the temporary `k` and go on. -/
def acceptDraw (next : Seq) (k : Nat) (s : State) : State := { s with tmp := { s.tmp with k := k }, seq := next }

/-- The state after n draws, the answers `rest` left. -/
def afterDraws (n : Nat) (rest : List RngAnswer) (s : State) : State :=
  { s with rng := rest, tmp := { s.tmp with tries := s.tmp.tries + n } }

theorem afterDraws_afterDraws (m n : Nat) (rest rest' : List RngAnswer) (s : State) :
    afterDraws n rest (afterDraws m rest' s) = afterDraws (m + n) rest s := by
  simp [afterDraws, Nat.add_assoc]

section
variable {i : Instr} {s : State}

/-- The commands that draw, by their drawing state. -/
theorem drawState_cases {q : Seq} (h : drawState i = some q) :
    i = .keygen ∧ q = .kgDraw ∨ (i = .sign ∨ i = .signU) ∧ q = .sgDraw ∨ i = .encrypt ∧ q = .enDraw := by
  cases i <;> simp_all [drawState]

theorem drawState_mem_path {q : Seq} (h : drawState i = some q) : q ∈ path i := by
  obtain ⟨rfl, rfl⟩ | ⟨rfl | rfl, rfl⟩ | ⟨rfl, rfl⟩ := drawState_cases h <;> decide

/-- In its drawing state every command that draws does one `DrawScalar` and keeps what it accepts. -/
theorem body_of_drawState (h : drawState i = some s.seq) :
    body i s = drawScalar i (acceptDraw (drawNext i)) s := by
  obtain ⟨rfl, hq⟩ | ⟨rfl | rfl, hq⟩ | ⟨rfl, hq⟩ := drawState_cases h
  · simp only [body, keygenBody, hq]; rfl
  · simp only [body, signBody, signStates, hq]; rfl
  · simp only [body, signUBody, signStates, hq]; rfl
  · simp only [body, encryptBody, hq]; rfl

theorem turn_of_mem_path (h : s.seq ∈ path i) : turn i s = body i s := by
  have hne : ∀ q ∈ path i, q ≠ .idle ∧ q ≠ .check ∧ q ≠ .finish := by cases i <;> simp [path]
  obtain ⟨hidle, hcheck, hfinish⟩ := hne _ h
  exact turn_body hidle hcheck hfinish

theorem turn_of_drawState (h : drawState i = some s.seq) :
    turn i s = drawScalar i (acceptDraw (drawNext i)) s :=
  (turn_of_mem_path (drawState_mem_path h)).trans (body_of_drawState h)

/-- The run from a drawing state goes on from what the draw leads to. -/
theorem exec_of_draw {s' : State} (h : drawState i = some s.seq)
    (hdraw : drawScalar i (acceptDraw (drawNext i)) s = some s') : exec i s = exec i s' :=
  exec_of_turn (owns_of_mem (drawState_mem_path h)) ((turn_of_drawState h).trans hdraw)

/-! One draw, by the limit and the answer. -/

theorem drawScalar_overLimit (use : Nat → State → State)
    (hlimit : overLimit s.cfg.retryLimit (s.tmp.tries + 1) = true) :
    drawScalar i use s = some (raise (destinations i) .rng (afterDraws 1 s.rng s)) := if_pos hlimit

theorem drawScalar_fail (use : Nat → State → State) {rest : List RngAnswer} (hrng : s.rng = .fail :: rest)
    (hlimit : overLimit s.cfg.retryLimit (s.tmp.tries + 1) = false) :
    drawScalar i use s = some (raise (destinations i) .rng (afterDraws 1 rest s)) := by
  simp [drawScalar, hlimit, hrng, afterDraws]

theorem drawScalar_zero (use : Nat → State → State) {v : Nat} {rest : List RngAnswer} (hrng : s.rng = .value v :: rest)
    (hv : v % s.regs.domN = 0) (hlimit : overLimit s.cfg.retryLimit (s.tmp.tries + 1) = false) :
    drawScalar i use s = some (afterDraws 1 rest s) := by
  simp [drawScalar, hlimit, hrng, hv, afterDraws]

theorem drawScalar_accept (use : Nat → State → State) {v : Nat} {rest : List RngAnswer}
    (hrng : s.rng = .value v :: rest) (hv : v % s.regs.domN ≠ 0)
    (hlimit : overLimit s.cfg.retryLimit (s.tmp.tries + 1) = false) :
    drawScalar i use s = some (use (v % s.regs.domN) (afterDraws 1 rest s)) := by
  simp [drawScalar, hlimit, hrng, hv, afterDraws]

/-- The error entry from a drawing state: the destinations 0, the answers as the draw has left them (60 R256). -/
theorem raise_afterDraws (h : drawState i = some s.seq) (k : ErrKind) (n : Nat) (rest : List RngAnswer) :
    raise (destinations i) k (afterDraws n rest s) =
      { Failed k s with regs := (clearRegs (destinations i) s).regs, rng := rest } := by
  have hcheck : (afterDraws n rest s).seq ≠ .check := fun hs : s.seq = .check => by
    rw [hs] at h
    obtain ⟨-, hq⟩ | ⟨-, hq⟩ | ⟨-, hq⟩ := drawState_cases h <;> cases hq
  have hregs : (clearRegs (destinations i) (afterDraws n rest s)).regs = (clearRegs (destinations i) s).regs :=
    OperandRegs.ext_get fun r => by rw [clearRegs_get, clearRegs_get]; rfl
  rw [raise_eq, hregs, if_neg hcheck]
  rfl

/-- A draw that raises ends the run. -/
theorem exec_of_draw_raise {n : Nat} {rest : List RngAnswer} (h : drawState i = some s.seq)
    (hdraw : drawScalar i (acceptDraw (drawNext i)) s = some (raise (destinations i) .rng (afterDraws n rest s))) :
    exec i s = .next { Failed .rng s with regs := (clearRegs (destinations i) s).regs, rng := rest } := by
  rw [exec_of_draw h hdraw, exec_idle (raise_seq _ _ _), raise_afterDraws h]

theorem exec_draw_zero {v : Nat} {rest : List RngAnswer} (h : drawState i = some s.seq)
    (hrng : s.rng = .value v :: rest) (hv : v % s.regs.domN = 0)
    (hlimit : overLimit s.cfg.retryLimit (s.tmp.tries + 1) = false) : exec i s = exec i (afterDraws 1 rest s) :=
  exec_of_draw h (drawScalar_zero _ hrng hv hlimit)

end

/-- Settles O33, by the three draws that accept nothing. -/
theorem drawFailsWithErrRng : Obligations.DrawFailsWithErrRng := by
  refine fun i s h => ⟨fun rest hrng hlimit => ?_, fun n hn hlt => ?_, fun v rest hrng hv hlimit => ?_⟩
  · exact exec_of_draw_raise h (drawScalar_fail _ hrng hlimit)
  · have hlimit : overLimit s.cfg.retryLimit (s.tmp.tries + 1) = true := by simp [overLimit, hn, hlt]
    exact exec_of_draw_raise h (drawScalar_overLimit _ hlimit)
  · exact exec_draw_zero h hrng hv hlimit

end Sys2Proof.Machine
end

/-! SUPPORT. A numeric `RETRY_LIMIT` bounds the draws (41 R137, 70 R290). -/
section
namespace Sys2Proof.Machine

section
variable {i : Instr} {s : State}

/-- The draws made and the answers waiting. A turn that goes on keeps their number. -/
def State.draws (s : State) : Nat := s.tmp.tries + s.rng.length

theorem drawScalar_draws {next : Seq} {s' : State} (h : drawScalar i (acceptDraw next) s = some s') :
    s'.seq = .idle ∨ s'.draws = s.draws := by
  cases hlimit : overLimit s.cfg.retryLimit (s.tmp.tries + 1) with
  | true =>
    rw [drawScalar_overLimit _ hlimit] at h
    cases h
    exact .inl (raise_seq _ _ _)
  | false =>
    cases hrng : s.rng with
    | nil => simp [drawScalar, hlimit, hrng] at h
    | cons a rest =>
      cases a with
      | fail =>
        rw [drawScalar_fail _ hrng hlimit] at h
        cases h
        exact .inl (raise_seq _ _ _)
      | value v =>
        have hkeep : (afterDraws 1 rest s).draws = s.draws := by
          simp only [State.draws, afterDraws, hrng, List.length_cons]
          omega
        by_cases hv : v % s.regs.domN = 0
        · rw [drawScalar_zero _ hrng hv hlimit] at h
          cases h
          exact .inr hkeep
        · rw [drawScalar_accept _ hrng hv hlimit] at h
          cases h
          exact .inr hkeep

theorem keygenBody_draws {s' : State} (h : keygenBody s = some s') : s'.seq = .idle ∨ s'.draws = s.draws := by
  unfold keygenBody at h
  split at h
  · exact drawScalar_draws (next := .kgPub) h
  · cases h; exact .inl rfl
  · cases h

theorem signStates_draws {u : Bool} {s' : State} (h : signStates i u s = some s') :
    s'.seq = .idle ∨ s'.draws = s.draws := by
  unfold signStates at h
  split at h
  · cases h; exact .inr (by simp [State.draws, sgPub])
  · cases h; exact .inr (by simp [State.draws, sgZ, computeZ])
  · cases h; exact .inr (by simp [State.draws, sgE, computeE])
  · exact drawScalar_draws (next := .sgPoint) h
  · cases h; exact .inr (by simp [State.draws, sgPoint])
  · cases h; exact .inr (by simp [State.draws, sgR])
  · cases h; exact .inr (by simp [State.draws, sgS])
  · cases h; exact .inl rfl
  · cases h

theorem encryptBody_draws {s' : State} (h : encryptBody s = some s') : s'.seq = .idle ∨ s'.draws = s.draws := by
  unfold encryptBody at h
  split at h
  · exact drawScalar_draws (next := .enPoint) h
  · cases h; exact .inr (by simp [State.draws, enPoint])
  · cases h; exact .inr (by simp [State.draws, enKdf])
  · cases h; exact .inr (by simp [State.draws, enTag])
  · cases h; exact .inl rfl
  · cases h

/-- A turn of a command that draws ends it or keeps the number of draws made and answers waiting. -/
theorem turn_draws {q : Seq} {s' : State} (hq : drawState i = some q) (h : turn i s = some s') :
    s'.seq = .idle ∨ s'.draws = s.draws := by
  rcases turn_seq_cases h with ⟨k, rfl⟩ | ⟨-, rfl⟩ | rfl | ⟨-, hb⟩
  · exact .inl (raise_seq _ _ _)
  · exact .inr rfl
  · exact .inl rfl
  · obtain ⟨rfl, -⟩ | ⟨rfl | rfl, -⟩ | ⟨rfl, -⟩ := drawState_cases hq
    · exact keygenBody_draws hb
    · exact signStates_draws hb
    · exact signStates_draws hb
    · exact encryptBody_draws hb

theorem turn_cfg {s' : State} (h : turn i s = some s') : s'.cfg = s.cfg := by
  cases turn_cases h with
  | moved => rfl
  | failed => exact raise_cfg _ _ _
  | ended s1 he => rw [complete_cfg, he.frame]

/-- The limit is n, and until the command ends at least n draws are made or can be made. -/
def DrawsReach (n : Nat) (s : State) : Prop := s.cfg.retryLimit = some n ∧ (s.seq = .idle ∨ n ≤ s.draws)

theorem turn_drawsReach {q : Seq} {n : Nat} {s' : State} (hq : drawState i = some q) (hs : DrawsReach n s)
    (h : turn i s = some s') : DrawsReach n s' := by
  obtain ⟨hlimit, hn⟩ := hs
  refine ⟨turn_cfg h ▸ hlimit, (turn_draws hq h).imp_right fun hkeep => ?_⟩
  rw [hkeep]
  exact hn.resolve_left (turn_ne_idle h)

/-- A draw that waits for an answer, within the limit, has not made n draws and cannot make one. -/
theorem not_drawsReach_of_waiting {n : Nat} (hidle : s.seq ≠ .idle) (hrng : s.rng = [])
    (hover : overLimit s.cfg.retryLimit (s.tmp.tries + 1) = false) : ¬ DrawsReach n s := by
  rintro ⟨hlimit, hn⟩
  have hle := hn.resolve_left hidle
  simp only [State.draws, hrng, List.length_nil, overLimit, hlimit, decide_eq_false_iff_not] at hle hover
  omega

end

/-- Settles O28: a run ends or waits at a draw, and where it waits the limit or the answers would have run out. -/
theorem retryLimitEndsEveryRun : Obligations.RetryLimitEndsEveryRun := by
  intro i s n hs _ hlimit hlen
  have he := exec_next (i := i) (s := s) (by rw [hs]; exact owns_check i)
  refine ⟨_, he, ?_⟩
  by_contra hidle
  obtain ⟨hq, hrng, hover⟩ := (turn_none (exec_owns he) (exec_ends he)).resolve_left hidle
  have hstart : DrawsReach n s := ⟨hlimit, .inr (hlen.trans (Nat.le_add_left _ _))⟩
  exact not_drawsReach_of_waiting hidle hrng hover (exec_keeps (fun _ _ => turn_drawsReach hq) hstart he)

end Sys2Proof.Machine
end

/-! SUPPORT. The run of `KEYGEN` (41 R142, R144). -/
section
namespace Sys2Proof.Machine

theorem overLimit_eq_false_of_le {limit : Option Nat} {m n : Nat} (hmn : m ≤ n) (h : overLimit limit n = false) :
    overLimit limit m = false := by
  cases limit with
  | none => rfl
  | some l =>
    simp only [overLimit, decide_eq_false_iff_not] at h ⊢
    omega

/-- Draws of 0 are drawn again, and the first other draw is accepted (41 R137). -/
theorem exec_draws_accept {i : Instr} {s : State} (h : drawState i = some s.seq) {zs : List Nat} {v : Nat}
    {rest : List RngAnswer} (hrng : s.rng = zs.map RngAnswer.value ++ .value v :: rest)
    (hzs : ∀ z ∈ zs, z % s.regs.domN = 0) (hv : v % s.regs.domN ≠ 0)
    (hlimit : overLimit s.cfg.retryLimit (s.tmp.tries + zs.length + 1) = false) :
    exec i s = exec i (acceptDraw (drawNext i) (v % s.regs.domN) (afterDraws (zs.length + 1) rest s)) := by
  induction zs generalizing s with
  | nil => exact exec_of_draw h (drawScalar_accept _ hrng hv hlimit)
  | cons z zs ih =>
    rw [List.forall_mem_cons] at hzs
    obtain ⟨hz, hzs⟩ := hzs
    rw [List.length_cons] at hlimit ⊢
    have hzero := exec_draw_zero h hrng hz (overLimit_eq_false_of_le (by omega) hlimit)
    have hrest := ih (s := afterDraws 1 (zs.map RngAnswer.value ++ .value v :: rest) s) h rfl hzs hv
      (overLimit_eq_false_of_le (by simp only [afterDraws]; omega) hlimit)
    rw [afterDraws_afterDraws, Nat.add_comm 1] at hrest
    exact hzero.trans hrest

/-- `KG_PUB` loads the drawn scalar and its multiple of G (41 R142). -/
theorem kgPub_eq (s : State) :
    kgPub s = { Finished s with
      regs := { s.regs with
        keyD := s.tmp.k % 2 ^ s.cfg.opBits
        keyQx := (s.gaMulBase s.tmp.k).x % 2 ^ s.cfg.opBits
        keyQy := (s.gaMulBase s.tmp.k).y % 2 ^ s.cfg.opBits } } := by
  simp only [kgPub, complete, finish, Finished, setPubKey, setReg, OperandRegs.put]

theorem exec_keygen_of_kgPub {s : State} (hs : s.seq = .kgPub) : exec .keygen s = .next (kgPub s) := by
  have hmem : s.seq ∈ path .keygen := by simp [hs, path]
  have hturn : turn .keygen s = some (kgPub s) := by
    rw [turn_of_mem_path hmem]
    simp only [body, keygenBody, hs]
  exact (exec_of_turn (owns_of_mem hmem) hturn).trans (exec_idle (s := kgPub s) rfl)

/-- The run of `KEYGEN` with an accepted draw (41 R142). -/
theorem exec_keygen {s : State} {d : Nat} {rest : List RngAnswer} (hs : s.seq = .check) (hdom : s.domok = true)
    (hdraw : DrawAccepted s (fun _ => False) d rest) :
    exec .keygen s = .next { Finished s with
      regs := { s.regs with
        keyD := d % 2 ^ s.cfg.opBits
        keyQx := (s.gaMulBase d).x % 2 ^ s.cfg.opBits, keyQy := (s.gaMulBase d).y % 2 ^ s.cfg.opBits }
      rng := rest } := by
  obtain ⟨zs, v, hrng, hzs, rfl, hv, -, hlimit⟩ := hdraw
  have hchecks : firstFailing (checks .keygen s) = none :=
    (firstFailing_eq_none_iff _).2 (by simp [checks, domokCheck, hdom])
  have haccept := exec_draws_accept (i := .keygen) (s := enterRun .keygen s) rfl hrng
    (fun z hz => (hzs z hz).resolve_right id) hv hlimit
  rw [exec_enter hs hchecks, haccept, exec_keygen_of_kgPub rfl, kgPub_eq]
  simp [acceptDraw, afterDraws, Finished, State.gaMulBase, State.dom]

/-- Settles O37, by the run of the command; d is below N and so fits its register. -/
theorem keygenCompletes : Obligations.KeygenCompletes := by
  intro s d rest hs hdom hN hbits hdraw
  have hrun := exec_keygen hs hdom hdraw
  have hlt : d < 2 ^ s.cfg.opBits := by
    obtain ⟨zs, v, -, -, rfl, -⟩ := hdraw
    exact (Nat.mod_lt v hN).trans_le hbits
  rw [Nat.mod_eq_of_lt hlt] at hrun
  exact ⟨hrun, fun hd hg hp => ⟨_, hrun, rfl, gaMulBase_mod hd hg hp d⟩⟩

end Sys2Proof.Machine
end

/-! SUPPORT. The keystream as blocks, one per counter, and the command `KDF` (42 R155 to R158). -/
section
namespace Sys2Proof.Machine

/-- The hash call of counter `ct` (42 R155). -/
def kdfBlock (seed : Bytes) (ct : Nat) : Bytes := sm3 (seed ++ kdfCounter ct)

/-- The loop appends the blocks of its counters in turn; the context it starts from does not reach them. -/
theorem kdfLoop_snd (seed : Bytes) (n ct : Nat) (hi : HashCtx) (ks : Bytes) :
    (kdfLoop seed n ct hi ks).2 = ks ++ (List.range' ct n).flatMap (kdfBlock seed) := by
  induction n generalizing ct hi ks with
  | zero => exact (List.append_nil ks).symm
  | succ n ih =>
    rw [kdfLoop, ih, finalize_absorb_init, List.range'_succ, List.flatMap_cons, List.append_assoc, kdfBlock]

theorem kdfStream_snd (seed : Bytes) (n : Nat) (hi : HashCtx) :
    (kdfStream seed n hi).2 = ((List.range' 1 (ceilDiv n 32)).flatMap (kdfBlock seed)).take n := by
  simp only [kdfStream, kdfLoop_snd, List.nil_append]

/-- Byte i of the blocks from counter `ct` on stands in block `i / 32`, each block being 32 bytes long. -/
theorem byteAt_kdfBlocks (seed : Bytes) {n ct i : Nat} (hi : i < 32 * n) :
    byteAt ((List.range' ct n).flatMap (kdfBlock seed)) i = byteAt (kdfBlock seed (ct + i / 32)) (i % 32) := by
  induction n generalizing ct i with
  | zero => omega
  | succ n ih =>
    have hlen : (kdfBlock seed ct).length = 32 := length_sm3 _
    rw [List.range'_succ, List.flatMap_cons]
    by_cases hfirst : i < 32
    · rw [byteAt, List.getD_append _ _ _ _ (by omega), Nat.div_eq_of_lt hfirst, Nat.mod_eq_of_lt hfirst]
      rfl
    · have hnext := ih (ct := ct + 1) (i := i - 32) (by omega)
      rw [show ct + 1 + (i - 32) / 32 = ct + i / 32 by omega, show (i - 32) % 32 = i % 32 by omega] at hnext
      rw [byteAt, List.getD_append_right _ _ _ _ (by omega), hlen]
      exact hnext

@[simp] theorem length_keystream (q : Point) (n : Nat) (s : State) : (keystream q n s).length = n :=
  length_kdfStream _ _ _

theorem byteAt_take {b : Bytes} {n i : Nat} (hi : i < n) : byteAt (b.take n) i = byteAt b i := by
  simpa [slice] using byteAt_slice_of_lt (b := b) (i := 0) hi

theorem byteAt_keystream (q : Point) {n i : Nat} (s : State) (hi : i < n) :
    byteAt (keystream q n s) i = byteAt (kdfBlock (kdfSeed q.x q.y s) (i / 32 + 1)) (i % 32) := by
  have hblocks : n ≤ 32 * ceilDiv n 32 := by unfold ceilDiv; omega
  rw [keystream, kdfStream_snd, byteAt_take hi, byteAt_kdfBlocks _ (hi.trans_le hblocks), Nat.add_comm 1]

theorem eq_of_byteAt {a b : Bytes} {n : Nat} (ha : a.length = n) (hb : b.length = n)
    (h : ∀ i, i < n → byteAt a i = byteAt b i) : a = b := by
  refine List.ext_getElem (ha.trans hb.symm) fun i hia hib => ?_
  simpa [byteAt, hia, hib] using h i (ha ▸ hia)

/-- A shorter request gives the first bytes of a longer one, since a byte does not depend on the length asked for
(42 R155). -/
theorem take_keystream (q : Point) {m n : Nat} (s : State) (hmn : m ≤ n) :
    (keystream q n s).take m = keystream q m s := by
  refine eq_of_byteAt (by simp [hmn]) (length_keystream q m s) fun i hi => ?_
  rw [byteAt_take hi, byteAt_keystream q s (hi.trans_le hmn), byteAt_keystream q s hi]

/-- Settles O53, by the blocks that the loop appends. -/
theorem keystreamIsCounterMode : Obligations.KeystreamIsCounterMode := fun s q n =>
  ⟨length_keystream q n s, fun _ hi => byteAt_keystream q s hi, fun _ hct => if_pos (by omega),
    fun _ hm => take_keystream q s hm⟩

/-- `KDF_RUN` delivers the keystream of its operands, whatever context it finds in `HI` (42 R157). -/
theorem kdfRun_eq (s : State) :
    kdfRun s = { Finished s with
      mem := memSetBytes s.mem 0x200000 (keystream ⟨s.regs.kdfZx, s.regs.kdfZy⟩ s.klen.toNat s), olen := s.klen } := by
  have hks : (kdfStream (kdfSeed s.regs.kdfZx s.regs.kdfZy s) s.klen.toNat s.hi).2
      = keystream ⟨s.regs.kdfZx, s.regs.kdfZy⟩ s.klen.toNat s := by
    rw [keystream, kdfStream_snd, kdfStream_snd]
  have holen : BitVec.ofNat 32 s.klen.toNat = s.klen := by simp
  rw [kdfRun, hks, output, length_keystream, holen]
  rfl

/-- Settles O39, by the one run state of the command. -/
theorem kdfCompletes : Obligations.KdfCompletes := by
  intro s hs hlen hdom
  have hready : s.cfg.coordSer = .minimal ∨ s.domok = true := by
    cases hser : s.cfg.coordSer with
    | minimal => exact .inl rfl
    | fixed => exact .inr (hdom hser)
  have hchecks : firstFailing (checks .kdf s) = none :=
    (firstFailing_eq_none_iff _).2 (by simp [checks, klenCheck, kdfDomokCheck, hlen, hready])
  have hrun := exec_singleState (i := .kdf) hs rfl rfl hchecks rfl
  rw [kdfRun_eq] at hrun
  exact hrun

end Sys2Proof.Machine
end

/-! SUPPORT. A loop that draws again when it rejects a scalar (43 R176, 44 R194): its runs are those of accepted draws. -/
section
namespace Sys2Proof.Machine

theorem exec_next_injective {i : Instr} {s t t' : State} (h : exec i s = .next t) (h' : exec i s = .next t') : t = t' :=
  Host.Outcome.next.inj (h.symm.trans h')

/-- The retry loop of command `i` in a run from `s`: `Loop` holds where it draws, a draw is counted there, and a scalar that
it `rejects` leads back to the draw with the answers and the count as they were. -/
structure RetryLoop (i : Instr) (s : State) (rejects : Nat → Prop) (Loop : State → Prop) : Prop where
  draws : ∀ {x}, Loop x → drawState i = some x.seq
  frame : ∀ {x}, Loop x → x.regs = s.regs ∧ x.cfg = s.cfg
  counted : ∀ {x} (n : Nat) (rest : List RngAnswer), Loop x → Loop (afterDraws n rest x)
  retry : ∀ {x} {k : Nat}, Loop x → rejects k →
    ∃ x', exec i (acceptDraw (drawNext i) k x) = exec i x' ∧ Loop x' ∧ x'.rng = x.rng ∧ x'.tmp.tries = x.tmp.tries

section
variable {i : Instr} {s x : State} {rejects : Nat → Prop} {Loop : State → Prop} {k z : Nat} {rest : List RngAnswer}

/-- A draw of 0 or of a rejected scalar uses one answer and comes back to the draw. -/
theorem RetryLoop.exec_rejected (hl : RetryLoop i s rejects Loop) (hx : Loop x) (hrng : x.rng = .value z :: rest)
    (hz : z % x.regs.domN = 0 ∨ rejects (z % x.regs.domN))
    (hlimit : overLimit x.cfg.retryLimit (x.tmp.tries + 1) = false) :
    ∃ x', exec i x = exec i x' ∧ Loop x' ∧ x'.rng = rest ∧ x'.tmp.tries = x.tmp.tries + 1 := by
  by_cases h0 : z % x.regs.domN = 0
  · exact ⟨_, exec_draw_zero (hl.draws hx) hrng h0 hlimit, hl.counted 1 rest hx, rfl, rfl⟩
  · have hdraw := exec_of_draw (hl.draws hx) (drawScalar_accept _ hrng h0 hlimit)
    obtain ⟨x', hback, hx', hrng', htries⟩ := hl.retry (hl.counted 1 rest hx) (hz.resolve_left h0)
    exact ⟨x', hdraw.trans hback, hx', hrng', htries⟩

/-- With an accepted draw the run leaves the loop with that scalar (41 R137). -/
theorem RetryLoop.exec_accepted (hl : RetryLoop i s rejects Loop) (hx : Loop x) (hdraw : DrawAccepted x rejects k rest) :
    ∃ x', Loop x' ∧ x'.rng = rest ∧ exec i x = exec i (acceptDraw (drawNext i) k x') := by
  obtain ⟨zs, v, hrng, hzs, rfl, hv, -, hlimit⟩ := hdraw
  induction zs generalizing x with
  | nil =>
    exact ⟨_, hl.counted 1 rest hx, rfl, exec_of_draw (hl.draws hx) (drawScalar_accept _ hrng hv hlimit)⟩
  | cons z zs ih =>
    rw [List.forall_mem_cons] at hzs
    obtain ⟨hz, hzs⟩ := hzs
    rw [List.length_cons] at hlimit
    obtain ⟨x', hback, hx', hrng', htries⟩ :=
      hl.exec_rejected hx hrng hz (overLimit_eq_false_of_le (by omega) hlimit)
    obtain ⟨hregs, hcfg⟩ := hl.frame hx
    obtain ⟨hregs', hcfg'⟩ := hl.frame hx'
    rw [hregs, ← hregs'] at hzs hv ⊢
    rw [hcfg, ← hcfg'] at hlimit
    obtain ⟨y, hy, hyrng, hrun⟩ := ih hx' hrng' hzs hv (by rw [htries]; convert hlimit using 2; omega)
    exact ⟨y, hy, hyrng, hback.trans hrun⟩

/-- A rejected draw may be put before an accepted one. -/
theorem DrawAccepted.cons {x' : State} (hregs : x'.regs = x.regs) (hcfg : x'.cfg = x.cfg)
    (htries : x'.tmp.tries = x.tmp.tries + 1) (hrng : x.rng = .value z :: x'.rng)
    (hz : z % x.regs.domN = 0 ∨ rejects (z % x.regs.domN)) (h : DrawAccepted x' rejects k rest) :
    DrawAccepted x rejects k rest := by
  obtain ⟨zs, v, hrng', hzs, hk, hv, hrej, hlimit⟩ := h
  rw [hregs] at hzs hk
  rw [hcfg, htries] at hlimit
  refine ⟨z :: zs, v, by rw [hrng, hrng']; rfl, List.forall_mem_cons.2 ⟨hz, hzs⟩, hk, hv, hrej, ?_⟩
  rw [List.length_cons]
  convert hlimit using 2
  omega

/-- An accepted scalar is in [1, N-1] and the loop does not reject it. -/
theorem DrawAccepted.scalar (h : DrawAccepted x rejects k rest) (hN : 0 < x.regs.domN) :
    k ≠ 0 ∧ k < x.regs.domN ∧ ¬ rejects k := by
  obtain ⟨_, v, _, _, rfl, hk0, hk, _⟩ := h
  exact ⟨hk0, Nat.mod_lt v hN, hk⟩

/-- A draw that raises ends the run with an error. -/
theorem err_of_draw_raise {n : Nat} {t : State} (h : drawState i = some x.seq)
    (hdraw : drawScalar i (acceptDraw (drawNext i)) x = some (raise (destinations i) .rng (afterDraws n rest x)))
    (he : exec i x = .next t) : t.err = true := by
  rw [exec_next_injective he (exec_of_draw_raise h hdraw)]
  rfl

/-- A run of the loop that ends without an error has had an accepted draw. -/
theorem RetryLoop.drawAccepted_of_ended (hl : RetryLoop i s rejects Loop) (hx : Loop x) {t : State}
    (he : exec i x = .next t) (hidle : t.seq = .idle) (herr : ¬ t.err = true) :
    ∃ k rest, DrawAccepted x rejects k rest := by
  generalize hrng : x.rng = answers
  induction answers generalizing x with
  | nil =>
    have hseq := hl.draws hx
    cases hlimit : overLimit x.cfg.retryLimit (x.tmp.tries + 1) with
    | true => exact absurd (err_of_draw_raise hseq (drawScalar_overLimit _ hlimit) he) herr
    | false =>
      have hwaits : turn i x = none := (turn_of_drawState hseq).trans (by simp [drawScalar, hlimit, hrng])
      rw [exec_next_injective he (exec_of_none (owns_of_mem (drawState_mem_path hseq)) hwaits)] at hidle
      rw [hidle] at hseq
      obtain ⟨-, hq⟩ | ⟨-, hq⟩ | ⟨-, hq⟩ := drawState_cases hseq <;> cases hq
  | cons a rest ih =>
    have hseq := hl.draws hx
    cases hlimit : overLimit x.cfg.retryLimit (x.tmp.tries + 1) with
    | true => exact absurd (err_of_draw_raise hseq (drawScalar_overLimit _ hlimit) he) herr
    | false =>
      cases a with
      | fail => exact absurd (err_of_draw_raise hseq (drawScalar_fail _ hrng hlimit) he) herr
      | value z =>
        by_cases hz : z % x.regs.domN = 0 ∨ rejects (z % x.regs.domN)
        · obtain ⟨x', hback, hx', hrng', htries⟩ := hl.exec_rejected hx hrng hz hlimit
          obtain ⟨hregs, hcfg⟩ := hl.frame hx
          obtain ⟨hregs', hcfg'⟩ := hl.frame hx'
          obtain ⟨k, rest', hdraw⟩ := ih hx' (hback.symm.trans he) hrng'
          exact ⟨k, rest', hdraw.cons (hregs'.trans hregs.symm) (hcfg'.trans hcfg.symm) htries (hrng'.symm ▸ hrng) hz⟩
        · obtain ⟨h0, hrej⟩ := not_or.1 hz
          exact ⟨_, rest, [], z, hrng, fun _ h => absurd h List.not_mem_nil, rfl, h0, hrej, hlimit⟩

end
end Sys2Proof.Machine
end

/-! SUPPORT. The run states of `SIGN` and `SIGN.U` (43 R171 to R177). -/
section
namespace Sys2Proof.Machine

/-- `SIGN` and `SIGN.U`, each with its flag `U` (43 R166). -/
abbrev IsSign (i : Instr) (u : Bool) : Prop := (i = .sign ∧ u = false) ∨ (i = .signU ∧ u = true)

/-- The state in which a command from `s` stands in the run state `q`, with the temporaries, the internal context and the
answers of the RNG port as they are then. -/
def inFlight (q : Seq) (m : Temps) (h : HashCtx) (r : List RngAnswer) (s : State) : State :=
  { s with tmp := m, hi := h, rng := r, seq := q }

/-- A run that has drawn nothing yet has the draws of its start. -/
theorem drawAccepted_inFlight_iff {m : Temps} {s : State} (htries : m.tries = s.tmp.tries) (q : Seq) (h : HashCtx)
    (rejects : Nat → Prop) (k : Nat) (rest : List RngAnswer) :
    DrawAccepted (inFlight q m h s.rng s) rejects k rest ↔ DrawAccepted s rejects k rest := by
  rw [DrawAccepted, DrawAccepted, ← htries]
  rfl

/-- The temporaries once Z and e are computed with the public point p (43 R167, R168). -/
def digested (u : Bool) (p : Point) (s : State) (m : Temps) : Temps := { m with z := zValue u p s, e := eValue u p s }

/-- The internal context that has absorbed the input of the Z-value (43 R167). -/
def zCtx (u : Bool) (p : Point) (s : State) : HashCtx := absorb HashCtx.init (zInput s.dom (userId u s) p)

/-- The internal context that has absorbed `Z ‖ M` (43 R168). -/
def digestCtx (u : Bool) (p : Point) (s : State) : HashCtx := absorb HashCtx.init (zValue u p s ++ s.message)

/-- `SG_Z`, `VF_Z`: the Z-value (43 R167). -/
theorem computeZ_inFlight (u : Bool) (p : Point) (q : Seq) (m : Temps) (h : HashCtx) (r : List RngAnswer) (s : State) :
    computeZ u p (inFlight q m h r s) = inFlight q { m with z := zValue u p s } (zCtx u p s) r s := by
  rw [zValue, ← finalize_absorb_init]
  rfl

/-- `SG_E`, `VF_E`: e, after the Z-value (43 R168). -/
theorem computeE_inFlight (u : Bool) (p : Point) (q : Seq) (m : Temps) (h : HashCtx) (r : List RngAnswer) (s : State) :
    computeE (inFlight q { m with z := zValue u p s } h r s) = inFlight q (digested u p s m) (digestCtx u p s) r s := by
  rw [digested, digestCtx, eValue, ← finalize_absorb_init, ← absorb_absorb]
  rfl

theorem sgZ_inFlight (u : Bool) (q : Seq) (m : Temps) (h : HashCtx) (r : List RngAnswer) (s : State) :
    sgZ u (inFlight q m h r s) = inFlight .sgE { m with z := zValue u m.pp s } (zCtx u m.pp s) r s := by
  rw [sgZ, computeZ_inFlight]
  rfl

theorem sgE_inFlight (u : Bool) (p : Point) (q : Seq) (m : Temps) (h : HashCtx) (r : List RngAnswer) (s : State) :
    sgE (inFlight q { m with z := zValue u p s } h r s) = inFlight .sgDraw (digested u p s m) (digestCtx u p s) r s := by
  rw [sgE, computeE_inFlight]
  rfl

/-- The end of a signature command with the scalar k (43 R177). -/
def signed (u : Bool) (k : Nat) (rest : List RngAnswer) (s : State) : State :=
  { Finished s with regs := { s.regs with sigR := signR u s k, sigS := signS u s k }, rng := rest }

section
variable {i : Instr} {u : Bool} {s : State} {m : Temps} {h : HashCtx} {r : List RngAnswer} {k : Nat} (hi : IsSign i u)
include hi

theorem body_of_isSign : body i = signStates i u := by
  obtain ⟨rfl, rfl⟩ | ⟨rfl, rfl⟩ := hi <;> rfl

theorem path_of_isSign : path i = [.sgPub, .sgZ, .sgE, .sgDraw, .sgPoint, .sgR, .sgS, .sgOut] := by
  obtain ⟨rfl, rfl⟩ | ⟨rfl, rfl⟩ := hi <;> rfl

theorem enterRun_of_isSign : enterRun i s = inFlight .sgPub s.tmp s.hi s.rng s := by
  rw [enterRun, path_of_isSign hi]
  rfl

theorem draw_of_isSign : drawState i = some .sgDraw ∧ drawNext i = .sgPoint := by
  obtain ⟨rfl, rfl⟩ | ⟨rfl, rfl⟩ := hi <;> exact ⟨rfl, rfl⟩

/-- A run state of a signature command, taken from the run. -/
theorem exec_signStates {x x' : State} (h : signStates i u x = some x')
    (hq : x.seq ∈ [Seq.sgPub, .sgZ, .sgE, .sgDraw, .sgPoint, .sgR, .sgS, .sgOut]) : exec i x = exec i x' := by
  rw [← path_of_isSign hi] at hq
  exact exec_of_turn (owns_of_mem hq) ((turn_of_mem_path hq).trans ((congrFun (body_of_isSign hi) x).trans h))

/-- Before the draw: the public point of `KEY_D`, and the e of it, the identifier and the message (43 R171, R172). -/
theorem exec_sgPub :
    exec i (inFlight .sgPub m h r s) =
      exec i (inFlight .sgDraw (digested u (s.gaMulBase s.regs.keyD) s { m with pp := s.gaMulBase s.regs.keyD })
        (digestCtx u (s.gaMulBase s.regs.keyD) s) r s) := by
  let p := s.gaMulBase s.regs.keyD
  let m' : Temps := { m with pp := p }
  calc exec i (inFlight .sgPub m h r s)
      = exec i (inFlight .sgZ m' h r s) := exec_signStates hi rfl (by simp [inFlight])
    _ = exec i (inFlight .sgE { m' with z := zValue u p s } (zCtx u p s) r s) :=
      exec_signStates hi (congrArg some (sgZ_inFlight u .sgZ m' h r s)) (by simp [inFlight])
    _ = exec i (inFlight .sgDraw (digested u p s m') (digestCtx u p s) r s) :=
      exec_signStates hi (congrArg some (sgE_inFlight u p .sgE m' _ r s)) (by simp [inFlight])

/-- With an accepted draw k: k·G, and r, which may send the loop back (43 R174). -/
theorem exec_sgPoint (he : m.e = eValue u (s.gaMulBase s.regs.keyD) s) :
    exec i (inFlight .sgPoint { m with k := k } h r s) =
      exec i (inFlight (if signR u s k = 0 ∨ signR u s k + k = s.regs.domN then .sgDraw else .sgS)
        { m with k := k, p1 := s.gaMulBase k, r := signR u s k } h r s) := by
  let x := inFlight .sgR { m with k := k, p1 := s.gaMulBase k } h r s
  calc exec i (inFlight .sgPoint { m with k := k } h r s)
      = exec i x := exec_signStates hi rfl (by simp [inFlight])
    _ = exec i (sgR x) := exec_signStates hi rfl (by simp [x, inFlight])
    _ = _ := by rw [signR, ← he]; rfl

/-- s, which may send the loop back (43 R175). -/
theorem exec_sgS (hk : m.k = k) (hr : m.r = signR u s k) :
    exec i (inFlight .sgS m h r s) =
      exec i (inFlight (if signS u s k = 0 then .sgDraw else .sgOut) { m with s := signS u s k } h r s) := by
  rw [signS, ← hr, ← hk]
  exact exec_signStates hi rfl (by simp [inFlight])

/-- The signature registers take r and s, each of which fits (43 R177, 10 R36). -/
theorem exec_sgOut (hr : m.r < 2 ^ s.cfg.opBits) (hs : m.s < 2 ^ s.cfg.opBits) :
    exec i (inFlight .sgOut m h r s) =
      .next { Finished s with regs := { s.regs with sigR := m.r, sigS := m.s }, rng := r } := by
  rw [exec_signStates hi (x' := sgOut (inFlight .sgOut m h r s)) rfl (by simp [inFlight]), exec_idle rfl]
  simp only [sgOut, inFlight, setReg, OperandRegs.put, Nat.mod_eq_of_lt hr, Nat.mod_eq_of_lt hs]
  rfl

/-- At the draw the e of the run is in its temporary; nothing of `s` but hidden state and the answers has changed. -/
inductive SignDrawing (u : Bool) (s : State) : State → Prop
  | intro (m : Temps) (h : HashCtx) (r : List RngAnswer) (he : m.e = eValue u (s.gaMulBase s.regs.keyD) s) :
    SignDrawing u s (inFlight .sgDraw m h r s)

/-- A rejected scalar leads back to the draw, with the same e and the same count (43 R176). -/
theorem exec_sign_rejected (he : m.e = eValue u (s.gaMulBase s.regs.keyD) s) (hk : signRejects u s k) :
    ∃ m', exec i (inFlight .sgPoint { m with k := k } h r s) = exec i (inFlight .sgDraw m' h r s)
      ∧ m'.e = m.e ∧ m'.tries = m.tries := by
  have hpoint := exec_sgPoint hi (h := h) (r := r) (k := k) he
  by_cases hr : signR u s k = 0 ∨ signR u s k + k = s.regs.domN
  · rw [if_pos hr] at hpoint
    exact ⟨_, hpoint, rfl, rfl⟩
  · have hs : signS u s k = 0 := (or_assoc.2 hk).resolve_left hr
    have hsgS := exec_sgS hi (m := { m with k := k, p1 := s.gaMulBase k, r := signR u s k }) (k := k) (h := h) (r := r)
      rfl rfl
    rw [if_neg hr] at hpoint
    rw [if_pos hs] at hsgS
    exact ⟨_, hpoint.trans hsgS, rfl, rfl⟩

/-- The signature commands draw in a retry loop (43 R176). -/
theorem sign_retryLoop : RetryLoop i s (signRejects u s) (SignDrawing u s) where
  draws := fun ⟨_, _, _, _⟩ => (draw_of_isSign hi).1
  frame := fun ⟨_, _, _, _⟩ => ⟨rfl, rfl⟩
  counted := fun _ _ ⟨_, _, _, he⟩ => .intro _ _ _ he
  retry := fun ⟨m, h, r, he⟩ hk => by
    obtain ⟨m', hback, he', htries⟩ := exec_sign_rejected hi (m := m) (h := h) (r := r) he hk
    rw [(draw_of_isSign hi).2]
    exact ⟨_, hback, .intro m' h r (he'.trans he), rfl, htries⟩

/-- An accepted scalar gives the signature (43 R174 to R177). -/
theorem exec_sign_accepted (hN : 0 < s.regs.domN) (hbits : s.regs.domN ≤ 2 ^ s.cfg.opBits)
    (he : m.e = eValue u (s.gaMulBase s.regs.keyD) s) (hk : ¬ signRejects u s k) :
    exec i (inFlight .sgPoint { m with k := k } h r s) = .next (signed u k r s) := by
  obtain ⟨hr, hs⟩ := not_or.1 (mt or_assoc.1 hk)
  rw [exec_sgPoint hi he, if_neg hr, exec_sgS hi rfl rfl, if_neg hs, exec_sgOut hi]
  · rfl
  · exact (Nat.mod_lt _ hN).trans_le hbits
  · exact (Nat.mod_lt _ hN).trans_le hbits

/-- A signature command that passes its pre-checks runs to its first draw (43 R171, R172). -/
theorem exec_sign_toDraw (hs : s.seq = .check) (hp : Prechecked i s) :
    ∃ m h, exec i s = exec i (inFlight .sgDraw m h s.rng s) ∧ SignDrawing u s (inFlight .sgDraw m h s.rng s)
      ∧ m.tries = s.tmp.tries := by
  have hchecks := (firstFailing_checks_eq_none_iff i s).2 hp
  rw [exec_enter hs hchecks, enterRun_of_isSign hi, exec_sgPub hi]
  exact ⟨_, _, rfl, .intro _ _ _ rfl, rfl⟩

theorem keyD_range_of_isSign (hp : Prechecked i s) : 1 ≤ s.regs.keyD ∧ s.regs.keyD + 2 ≤ s.regs.domN := by
  obtain ⟨-, -, -, -, -, -, hkey⟩ := hp
  exact hkey (hi.imp And.left And.left)

/-- The run of a signature command with an accepted draw (43 R170). -/
theorem exec_sign (hs : s.seq = .check) (hp : Prechecked i s) (hbits : s.regs.domN ≤ 2 ^ s.cfg.opBits)
    (hdraw : DrawAccepted s (signRejects u s) k r) : exec i s = .next (signed u k r s) := by
  obtain ⟨m, h, hrun, hx, htries⟩ := exec_sign_toDraw hi hs hp
  have hN : 0 < s.regs.domN := by have := keyD_range_of_isSign hi hp; omega
  obtain ⟨-, -, hk⟩ := hdraw.scalar hN
  obtain ⟨_, ⟨m', h', r', he'⟩, rfl, hloop⟩ :=
    (sign_retryLoop hi).exec_accepted hx ((drawAccepted_inFlight_iff htries _ h _ _ _).2 hdraw)
  rw [hrun, hloop, (draw_of_isSign hi).2]
  exact exec_sign_accepted hi hN hbits he' hk

/-- A signature command that ends without an error has passed its pre-checks and had an accepted draw. -/
theorem drawAccepted_of_signed {t : State} (hs : s.seq = .check) (he : exec i s = .next t) (hidle : t.seq = .idle)
    (herr : t.err = false) : Prechecked i s ∧ ∃ k r, DrawAccepted s (signRejects u s) k r := by
  have hp : Prechecked i s := by
    rw [← firstFailing_checks_eq_none_iff]
    cases hf : firstFailing (checks i s) with
    | none => rfl
    | some c =>
      rw [exec_next_injective he (exec_failedCheck hs hf), raise_err] at herr
      cases herr
  obtain ⟨m, h, hrun, hx, htries⟩ := exec_sign_toDraw hi hs hp
  obtain ⟨k, r, hdraw⟩ := (sign_retryLoop hi).drawAccepted_of_ended hx (hrun.symm.trans he) hidle (by simp [herr])
  exact ⟨hp, k, r, (drawAccepted_inFlight_iff htries _ h _ _ _).1 hdraw⟩

end

/-- Settles O40, by the run of the command. -/
theorem signCompletes : Obligations.SignCompletes :=
  fun _ _ _ _ _ hi hs hp hbits hdraw => exec_sign hi hs hp hbits hdraw

/-- Settles O41: a run that ends without an error has accepted a scalar, whose r and s are residues modulo N and not 0. -/
theorem signatureIsInRange : Obligations.SignatureIsInRange := by
  intro i s t hi hs _ hbits he hidle herr
  obtain ⟨u, hu⟩ : ∃ u, IsSign i u := hi.elim (fun h => ⟨false, .inl ⟨h, rfl⟩⟩) (fun h => ⟨true, .inr ⟨h, rfl⟩⟩)
  obtain ⟨hp, k, r, hdraw⟩ := drawAccepted_of_signed hu hs he hidle herr
  rw [exec_next_injective he (exec_sign hu hs hp hbits hdraw)]
  have hN : 0 < s.regs.domN := by have := keyD_range_of_isSign hu hp; omega
  obtain ⟨-, -, hk⟩ := hdraw.scalar hN
  exact ⟨Nat.pos_of_ne_zero fun h => hk (.inl h), Nat.mod_lt _ hN,
    Nat.pos_of_ne_zero fun h => hk (.inr (.inr h)), Nat.mod_lt _ hN⟩

end Sys2Proof.Machine
end

/-! SUPPORT. The run states of `VERIFY` and `VERIFY.U` (43 R180 to R185). -/
section
namespace Sys2Proof.Machine

/-- `VERIFY` and `VERIFY.U`, each with its flag `U` (43 R166). -/
abbrev IsVerify (i : Instr) (u : Bool) : Prop := (i = .verify ∧ u = false) ∨ (i = .verifyU ∧ u = true)

/-- Step 1 of `VERIFY` rejects: a half of the signature is 0 or not below N (43 R181). -/
abbrev OutOfRange (s : State) : Prop :=
  s.regs.sigR = 0 ∨ s.regs.sigR ≥ s.regs.domN ∨ s.regs.sigS = 0 ∨ s.regs.sigS ≥ s.regs.domN

/-- The t of `VERIFY` (43 R183). -/
def verifyT (s : State) : Nat := (s.regs.sigR + s.regs.sigS) % s.regs.domN

/-- The end of a verifying command with its verdict (43 R180). -/
def verdict (accepted : Bool) (s : State) : State := { Finished s with result := accepted }

/-- The five steps of the verdict, as propositions (43 R180). -/
theorem verifyAccepts_iff (u : Bool) (s : State) :
    verifyAccepts u s = true ↔
      ¬ OutOfRange s ∧ verifyT s ≠ 0 ∧ ¬ s.gaIsInf (verifyPoint s) = true
        ∧ (eValue u s.pubKey s + (verifyPoint s).x) % s.regs.domN = s.regs.sigR := by
  have hrange : ¬ OutOfRange s ↔
      1 ≤ s.regs.sigR ∧ s.regs.sigR < s.regs.domN ∧ 1 ≤ s.regs.sigS ∧ s.regs.sigS < s.regs.domN := by
    unfold OutOfRange
    omega
  simp [verifyAccepts, hrange, verifyT, and_assoc]

theorem vfZ_inFlight (u : Bool) (q : Seq) (m : Temps) (h : HashCtx) (r : List RngAnswer) (s : State) :
    vfZ u (inFlight q m h r s) = inFlight .vfE { m with z := zValue u s.pubKey s } (zCtx u s.pubKey s) r s := by
  rw [vfZ, computeZ_inFlight]
  rfl

theorem vfE_inFlight (u : Bool) (p : Point) (q : Seq) (m : Temps) (h : HashCtx) (r : List RngAnswer) (s : State) :
    vfE (inFlight q { m with z := zValue u p s } h r s) = inFlight .vfT (digested u p s m) (digestCtx u p s) r s := by
  rw [vfE, computeE_inFlight]
  rfl

section
variable {i : Instr} {u : Bool} {s : State} {m : Temps} {h : HashCtx} (hi : IsVerify i u)
include hi

theorem body_of_isVerify : body i = verifyStates u := by
  obtain ⟨rfl, rfl⟩ | ⟨rfl, rfl⟩ := hi <;> rfl

theorem path_of_isVerify : path i = [.vfRange, .vfZ, .vfE, .vfT, .vfPoint, .vfCmp] := by
  obtain ⟨rfl, rfl⟩ | ⟨rfl, rfl⟩ := hi <;> rfl

theorem enterRun_of_isVerify : enterRun i s = inFlight .vfRange s.tmp s.hi s.rng s := by
  rw [enterRun, path_of_isVerify hi]
  rfl

/-- A run state of a verifying command, taken from the run. -/
theorem exec_verifyStates {x x' : State} (h : verifyStates u x = some x')
    (hq : x.seq ∈ [Seq.vfRange, .vfZ, .vfE, .vfT, .vfPoint, .vfCmp]) : exec i x = exec i x' := by
  rw [← path_of_isVerify hi] at hq
  exact exec_of_turn (owns_of_mem hq) ((turn_of_mem_path hq).trans ((congrFun (body_of_isVerify hi) x).trans h))

/-- A run state that ends the command with a verdict. -/
theorem exec_vfEnd {q : Seq} {accepted : Bool} (hq : q ∈ [Seq.vfRange, .vfZ, .vfE, .vfT, .vfPoint, .vfCmp])
    (hend : verifyStates u (inFlight q m h s.rng s) = some (verdict accepted s)) :
    exec i (inFlight q m h s.rng s) = .next (verdict accepted s) :=
  (exec_verifyStates hi hend hq).trans (exec_idle rfl)

theorem exec_vfRange_reject (hr : OutOfRange s) :
    exec i (inFlight .vfRange m h s.rng s) = .next (verdict false s) :=
  exec_vfEnd hi (by simp) (congrArg some (if_pos hr))

/-- With the signature in range, the e of the public key, the identifier and the message (43 R182). -/
theorem exec_vfRange (hr : ¬ OutOfRange s) :
    exec i (inFlight .vfRange m h s.rng s) =
      exec i (inFlight .vfT (digested u s.pubKey s m) (digestCtx u s.pubKey s) s.rng s) := by
  let p := s.pubKey
  calc exec i (inFlight .vfRange m h s.rng s)
      = exec i (inFlight .vfZ m h s.rng s) := exec_verifyStates hi (congrArg some (if_neg hr)) (by simp [inFlight])
    _ = exec i (inFlight .vfE { m with z := zValue u p s } (zCtx u p s) s.rng s) :=
      exec_verifyStates hi (congrArg some (vfZ_inFlight u .vfZ m h s.rng s)) (by simp [inFlight])
    _ = exec i (inFlight .vfT (digested u p s m) (digestCtx u p s) s.rng s) :=
      exec_verifyStates hi (congrArg some (vfE_inFlight u p .vfE m _ s.rng s)) (by simp [inFlight])

theorem exec_vfT_reject (ht : verifyT s = 0) : exec i (inFlight .vfT m h s.rng s) = .next (verdict false s) :=
  exec_vfEnd hi (by simp) (congrArg some (if_pos ht))

theorem exec_vfT (ht : verifyT s ≠ 0) :
    exec i (inFlight .vfT m h s.rng s) = exec i (inFlight .vfPoint { m with t := verifyT s } h s.rng s) :=
  exec_verifyStates hi (congrArg some (if_neg ht)) (by simp [inFlight])

theorem exec_vfPoint_reject (ht : m.t = verifyT s) (hinf : s.gaIsInf (verifyPoint s) = true) :
    exec i (inFlight .vfPoint m h s.rng s) = .next (verdict false s) := by
  rw [verifyPoint, ← verifyT, ← ht] at hinf
  exact exec_vfEnd hi (by simp) (congrArg some (if_pos hinf))

theorem exec_vfPoint (ht : m.t = verifyT s) (hinf : ¬ s.gaIsInf (verifyPoint s) = true) :
    exec i (inFlight .vfPoint m h s.rng s) = exec i (inFlight .vfCmp { m with p1 := verifyPoint s } h s.rng s) := by
  rw [verifyPoint, ← verifyT, ← ht] at hinf ⊢
  exact exec_verifyStates hi (congrArg some (if_neg hinf)) (by simp [inFlight])

/-- Step 5 accepts exactly when `(e + x1) mod N = SIG_R` (43 R185). -/
theorem exec_vfCmp {accepted : Bool} (he : m.e = eValue u s.pubKey s) (hx : m.p1 = verifyPoint s)
    (h5 : accepted = true ↔ (eValue u s.pubKey s + (verifyPoint s).x) % s.regs.domN = s.regs.sigR) :
    exec i (inFlight .vfCmp m h s.rng s) = .next (verdict accepted s) := by
  rw [Bool.eq_iff_iff.2 (h5.trans decide_eq_true_iff.symm), ← he, ← hx]
  exact exec_vfEnd hi (by simp) rfl

/-- The run of a verifying command past its pre-checks, by the step that decides (43 R180). -/
theorem exec_verify (hs : s.seq = .check) (hp : Prechecked i s) : exec i s = .next (verdict (verifyAccepts u s) s) := by
  have hchecks := (firstFailing_checks_eq_none_iff i s).2 hp
  rw [exec_enter hs hchecks, enterRun_of_isVerify hi]
  have haccepts := verifyAccepts_iff u s
  by_cases hr : OutOfRange s
  · rw [exec_vfRange_reject hi hr, Bool.eq_false_iff.2 (mt haccepts.1 fun ⟨h1, _⟩ => h1 hr)]
  rw [exec_vfRange hi hr]
  by_cases ht : verifyT s = 0
  · rw [exec_vfT_reject hi ht, Bool.eq_false_iff.2 (mt haccepts.1 fun ⟨_, h2, _⟩ => h2 ht)]
  rw [exec_vfT hi ht]
  by_cases hinf : s.gaIsInf (verifyPoint s) = true
  · rw [exec_vfPoint_reject hi rfl hinf, Bool.eq_false_iff.2 (mt haccepts.1 fun ⟨_, _, h3, _⟩ => h3 hinf)]
  rw [exec_vfPoint hi rfl hinf]
  exact exec_vfCmp hi rfl rfl (haccepts.trans ⟨fun ⟨_, _, _, h5⟩ => h5, fun h5 => ⟨hr, ht, hinf, h5⟩⟩)

end

/-- Settles O42, by the run of the command. -/
theorem verifyCompletes : Obligations.VerifyCompletes := fun _ _ _ hi hs hp => exec_verify hi hs hp

end Sys2Proof.Machine
end

/-! SUPPORT. Why a signature verifies (43 R178): the arithmetic modulo N, and the point on the curve. -/
section
namespace Sys2Proof.Machine

/-- `s * (1 + D) = k - r * D` modulo N (43 R175). -/
theorem signatureS_mul {n d : Nat} (hn : n.Prime) (hd : d + 1 < n) (k r : Nat) :
    (signatureS n d k r : ZMod n) * (1 + d) = k - r * d := by
  have hcoprime : Nat.Coprime (1 + d) n := (Nat.coprime_of_lt_prime (by omega) (by omega) hn).symm
  have hinv := inv_spec hn.pos hcoprime
  push_cast at hinv
  rw [signatureS, ZMod.natCast_mod, Nat.cast_mul, zmod_modN _ _ hn.pos]
  push_cast
  linear_combination ((k : ZMod n) - r * d) * hinv

/-- The scalar of VERIFY's point, `s + (r + s) * D`, is the k that made the signature (43 R178). -/
theorem verify_scalar_modEq {n d : Nat} (hn : n.Prime) (hd : d + 1 < n) (k r : Nat) :
    signatureS n d k r + (r + signatureS n d k r) % n * d ≡ k [MOD n] := by
  rw [← ZMod.natCast_eq_natCast_iff]
  push_cast
  rw [ZMod.natCast_mod]
  push_cast
  linear_combination signatureS_mul hn hd k r

/-- Where t is 0 the scalar k is `-r` modulo N, which the loop of `SIGN` rejects (43 R174, R183). -/
theorem verify_t_ne_zero {n d k r : Nat} (hn : n.Prime) (hd : d + 1 < n) (hr : r < n) (hk : k < n) (hk0 : k ≠ 0)
    (hrk : r + k ≠ n) : (r + signatureS n d k r) % n ≠ 0 := by
  intro ht
  have hmod := verify_scalar_modEq hn hd k r
  have hdvd : n ∣ r + k := by
    rw [ht, Nat.zero_mul, Nat.add_zero] at hmod
    exact (Nat.modEq_zero_iff_dvd).1 ((hmod.symm.add_left r).trans ht)
  exact hrk (Nat.eq_of_dvd_of_lt_two_mul (by omega) hdvd (by omega))

/-- The group law on the multiples of a point of prime order: `a·P + b·(c·P) = k·P` when `a + b * c` is k modulo the order
(41 R133). -/
theorem curveAdd_multiples {d : Domain} (hd : domainInContract d = true) (hb : d.b % d.p ≠ 0) {q : Point}
    (hq : pointInContract d q = true) {n a b c k : Nat} (hn : curveMul d q n = Point.inf) (h : a + b * c ≡ k [MOD n]) :
    curveAdd d (curveMul d q a) (curveMul d (curveMul d q c) b) = curveMul d q k := by
  obtain ⟨-, -, hp⟩ := (domainInContract_iff d).1 hd
  have : Fact d.p.Prime := ⟨hp⟩
  have hb' : (d.b : ZMod d.p) ≠ 0 := by rwa [Ne, ZMod.natCast_eq_zero_iff, Nat.dvd_iff_mod_eq_zero]
  obtain ⟨P, hP⟩ := exists_represents hd hq
  have hnP : n • P = 0 := (hP.mul hb' n).eq_inf_iff.1 hn
  have hsum : a • P + b • c • P = k • P := by
    rw [← mul_nsmul', ← add_nsmul, nsmul_eq_mod_nsmul _ hnP, h, ← nsmul_eq_mod_nsmul _ hnP]
  have hadd := (hP.mul hb' a).add ((hP.mul hb' c).mul hb' b) (not_zero_zero hb' _)
  exact hadd.unique (hsum ▸ hP.mul hb' k)

/-- On a valid domain of the contract G is a finite point of prime order N (41 R133, R138). -/
theorem base_of_validDomain {opBits : Nat} {d : Domain} (hv : validDomain opBits d = true)
    (hd : domainInContract d = true) :
    d.n.Prime ∧ d.g ≠ Point.inf ∧ pointInContract d d.g = true ∧ curveMul d d.g d.n = Point.inf := by
  obtain ⟨-, -, ⟨-, -, hx, hy⟩, ⟨hfinite, hcurve⟩, hn, hinf⟩ := (validDomain_iff opBits d).1 hv
  have hg := pointInContract_of_onCurve ((onCurve_iff_pow d d.g).2 ⟨hx, hy, hcurve⟩)
  exact ⟨hn, mt (Point.eq_inf_iff d.g).1 hfinite, hg, (ga_isInf_mulBase_iff hd hg d.n).1 hinf⟩

section
variable {s : State} (hv : DomainValid s) (hd : domainInContract s.dom = true)
include hv hd

/-- A multiple of G by a scalar in [1, N-1] is finite (41 R133). -/
theorem gaMulBase_ne_inf {k : Nat} (hk0 : k ≠ 0) (hk : k < s.regs.domN) : s.gaMulBase k ≠ Point.inf := by
  obtain ⟨hn, hfinite, hg, hord⟩ := base_of_validDomain hv hd
  rw [State.gaMulBase, ga_mulBase_eq_curveMul hd hg, Ne, curveMul_eq_inf_iff_dvd hfinite hn hord]
  exact Nat.not_dvd_of_pos_of_lt (Nat.pos_of_ne_zero hk0) hk

/-- With the public key D·G the point of `VERIFY` is k·G, when the halves of the signature are congruent to those of k
(43 R178, R184). -/
theorem verifyPoint_eq_gaMulBase (hb : s.dom.b % s.dom.p ≠ 0) {d k : Nat} (hpub : s.pubKey = s.gaMulBase d)
    (hd0 : d ≠ 0) (hdn : d < s.regs.domN) (hk : s.regs.sigS + verifyT s * d ≡ k [MOD s.regs.domN]) :
    verifyPoint s = s.gaMulBase k := by
  have hfinite := gaMulBase_ne_inf hv hd hd0 hdn
  obtain ⟨-, -, hg, hord⟩ := base_of_validDomain hv hd
  have hbase : ∀ k, s.gaMulBase k = curveMul s.dom s.dom.g k := ga_mulBase_eq_curveMul hd hg
  have hin : ∀ k, pointInContract s.dom (curveMul s.dom s.dom.g k) = true := curveMul_inContract hd hg
  have hkey : verifyKeyMul s (verifyT s) = curveMul s.dom (curveMul s.dom s.dom.g d) (verifyT s) := by
    rw [verifyKeyMul, hpub, if_neg hfinite, hbase]
    exact gaCorrect.mul _ _ _ hd (hin d)
  rw [verifyPoint, ← verifyT, hkey, hbase, hbase, ← curveAdd_multiples hd hb hg hord hk]
  exact gaCorrect.add _ _ _ hd (hin _) (curveMul_inContract hd (hin d) _)

/-- A finite multiple of G is not at infinity for the port (41 R134). -/
theorem gaIsInf_gaMulBase {k : Nat} (hk0 : k ≠ 0) (hk : k < s.regs.domN) : ¬ s.gaIsInf (s.gaMulBase k) = true := by
  have hfinite := gaMulBase_ne_inf hv hd hk0 hk
  obtain ⟨-, -, hg, -⟩ := base_of_validDomain hv hd
  rw [State.gaMulBase, ga_mulBase_eq_curveMul hd hg] at hfinite
  rwa [State.gaIsInf, State.gaMulBase, ga_isInf_mulBase_iff hd hg]

end

/-- The verdict on a signature of an accepted scalar k (43 R178). -/
theorem verifyAccepts_signature {u : Bool} {s : State} {k : Nat} (hv : DomainValid s)
    (hd : domainInContract s.dom = true) (hb : s.dom.b % s.dom.p ≠ 0) (hpub : s.pubKey = s.gaMulBase s.regs.keyD)
    (hkey : 1 ≤ s.regs.keyD ∧ s.regs.keyD + 2 ≤ s.regs.domN) (hk0 : k ≠ 0) (hk : k < s.regs.domN)
    (hacc : ¬ signRejects u s k) (hr : s.regs.sigR = signR u s k) (hs : s.regs.sigS = signS u s k) :
    verifyAccepts u s = true := by
  obtain ⟨hd1, hd2⟩ := hkey
  have hn : s.regs.domN.Prime := (base_of_validDomain hv hd).1
  obtain ⟨hr0, hacc⟩ := not_or.1 hacc
  obtain ⟨hrk, hs0⟩ := not_or.1 hacc
  have hrlt : signR u s k < s.regs.domN := Nat.mod_lt _ hn.pos
  have hslt : signS u s k < s.regs.domN := Nat.mod_lt _ hn.pos
  have hT : verifyT s = (signR u s k + signS u s k) % s.regs.domN := by rw [verifyT, hr, hs]
  have hpoint : verifyPoint s = s.gaMulBase k := by
    refine verifyPoint_eq_gaMulBase hv hd hb hpub (by omega) (by omega) ?_
    rw [hT, hs]
    exact verify_scalar_modEq hn (by omega) k (signR u s k)
  rw [verifyAccepts_iff, hpoint, hpub, hT]
  refine ⟨?_, verify_t_ne_zero hn (by omega) hrlt hk hk0 hrk, gaIsInf_gaMulBase hv hd hk0 hk, hr.symm⟩
  rw [OutOfRange, hr, hs]
  omega

/-- The pre-checks of `VERIFY` are among those of `SIGN` (60 R260). -/
theorem prechecked_verify {u : Bool} {s : State} (h : Prechecked (if u then .signU else .sign) s) :
    Prechecked (if u then .verifyU else .verify) s := by
  have hsub : checks (if u then .verifyU else .verify) s ⊆ checks (if u then .signU else .sign) s := by
    cases u <;> simp [checks]
  rw [← firstFailing_checks_eq_none_iff, firstFailing_eq_none_iff] at h ⊢
  exact fun c hc => h c (hsub hc)

/-- Settles O58: a completed run has accepted a scalar k, and the point of `VERIFY` is then k·G again. -/
theorem signThenVerifyAccepts : Obligations.SignThenVerifyAccepts := by
  intro u s t hs _ hv hd hb hbits hpub he hidle herr
  have hi : IsSign (if u then .signU else .sign) u := by cases u <;> decide
  have hj : IsVerify (if u then .verifyU else .verify) u := by cases u <;> decide
  obtain ⟨hp, k, r, hdraw⟩ := drawAccepted_of_signed hi hs he hidle herr
  cases exec_next_injective he (exec_sign hi hs hp hbits hdraw)
  have hkey := keyD_range_of_isSign hi hp
  obtain ⟨hk0, hklt, hk⟩ := hdraw.scalar (by omega)
  refine ⟨_, exec_verify hj rfl (prechecked_verify hp), ?_, rfl, rfl⟩
  exact verifyAccepts_signature hv hd hb hpub hkey hk0 hklt hk rfl rfl

end Sys2Proof.Machine
end

/-! SUPPORT. The run states of `ENCRYPT` (44 R192 to R196). -/
section
namespace Sys2Proof.Machine

/-- A run state of a command, taken from the run. -/
theorem exec_of_body {i : Instr} {x x' : State} (h : body i x = some x') (hq : x.seq ∈ path i) :
    exec i x = exec i x' :=
  exec_of_turn (owns_of_mem hq) ((turn_of_mem_path hq).trans h)

/-- A run from `CHECK` that ends without an error has passed the pre-checks (60 R255). -/
theorem prechecked_of_err_eq_false {i : Instr} {s t : State} (hs : s.seq = .check) (he : exec i s = .next t)
    (herr : t.err = false) : Prechecked i s := by
  rw [← firstFailing_checks_eq_none_iff]
  cases hf : firstFailing (checks i s) with
  | none => rfl
  | some k =>
    rw [exec_next_injective he (exec_failedCheck hs hf), raise_err] at herr
    cases herr

/-- The context that `Kdf` finds in `HI` does not reach the keystream (42 R155). -/
theorem kdfStream_eq_keystream (q : Point) (n : Nat) (hi : HashCtx) (s : State) :
    (kdfStream (kdfSeed q.x q.y s) n hi).2 = keystream q n s := by
  rw [keystream, kdfStream_snd, kdfStream_snd]

/-- The context of the tag finalizes to the tag (44 R195, 40 R114). -/
theorem finalize_tagCtx (q : Point) (m : Bytes) (s : State) : finalize (tagCtx q m s) = tagOf q m s :=
  finalize_absorb_init _

@[simp] theorem length_tagOf (q : Point) (m : Bytes) (s : State) : (tagOf q m s).length = 32 := length_sm3 _

@[simp] theorem length_encryptBodyOf (s : State) (k : Nat) : (encryptBodyOf s k).length = s.mlen.toNat := by
  simp [encryptBodyOf]

theorem length_flatBytes_ciphertextOf (s : State) (k : Nat) :
    (flatBytes s.keyBytes (ciphertextOf s k)).length = s.c1Len + s.mlen.toNat + 32 := by
  simp [length_flatBytes, ciphertextOf, State.c1Len]

/-- The temporaries once the scalar k is drawn and C1, the shared point, the keystream and C2 are computed (44 R192,
R193). -/
def enciphered (k : Nat) (s : State) (m : Temps) : Temps :=
  { m with
    k := k, p1 := s.gaMulBase k, p2 := s.gaMul s.pubKey k
    ks := keystream (s.gaMul s.pubKey k) s.mlen.toNat s, wbuf := encryptBodyOf s k }

/-- The internal context that a keystream leaves (42 R155). -/
def keystreamCtx (q : Point) (n : Nat) (s : State) (h : HashCtx) : HashCtx := (kdfStream (kdfSeed q.x q.y s) n h).1

/-- The end of `ENCRYPT` with the scalar k (44 R196). -/
def encrypted (k : Nat) (rest : List RngAnswer) (s : State) : State :=
  { Finished s with
    mem := memSetBytes s.mem 0x200000 (flatBytes s.keyBytes (ciphertextOf s k))
    olen := BitVec.ofNat 32 (s.c1Len + s.mlen.toNat + 32), rng := rest }

/-- `ENCRYPT` at its draw: nothing of `s` but hidden state and the answers has changed. -/
inductive EncryptDrawing (s : State) : State → Prop
  | intro (m : Temps) (h : HashCtx) (r : List RngAnswer) : EncryptDrawing s (inFlight .enDraw m h r s)

section
variable {s : State} {m : Temps} {h : HashCtx} {r : List RngAnswer} {k : Nat}

/-- C2, which sends the loop back when the keystream changes nothing (44 R193). -/
theorem enKdf_inFlight (hp2 : m.p2 = s.gaMul s.pubKey k) :
    enKdf (inFlight .enKdf m h r s) =
      inFlight (if encryptRejects s k then .enDraw else .enTag)
        { m with ks := keystream (s.gaMul s.pubKey k) s.mlen.toNat s, wbuf := encryptBodyOf s k }
        (keystreamCtx (s.gaMul s.pubKey k) s.mlen.toNat s h) r s := by
  dsimp only [encryptRejects]
  rw [encryptBodyOf, keystreamCtx, ← kdfStream_eq_keystream _ _ h, ← hp2]
  rfl

/-- With an accepted draw k: C1, the shared point and C2 (44 R192, R193). -/
theorem exec_enPoint :
    exec .encrypt (inFlight .enPoint { m with k := k } h r s) =
      exec .encrypt (inFlight (if encryptRejects s k then .enDraw else .enTag) (enciphered k s m)
        (keystreamCtx (s.gaMul s.pubKey k) s.mlen.toNat s h) r s) := by
  let m' : Temps := { m with k := k, p1 := s.gaMulBase k, p2 := s.gaMul s.pubKey k }
  calc exec .encrypt (inFlight .enPoint { m with k := k } h r s)
      = exec .encrypt (inFlight .enKdf m' h r s) := exec_of_body rfl (by simp [inFlight, path])
    _ = _ := exec_of_body (congrArg some (enKdf_inFlight (m := m') rfl)) (by simp [inFlight, path])

/-- C3, and the flat form of the three parts in `OUTBUF` (44 R195, R196). -/
theorem exec_enTag :
    exec .encrypt (inFlight .enTag (enciphered k s m) h r s) = .next (encrypted k r s) := by
  let m' : Temps := { enciphered k s m with c3 := tagOf (s.gaMul s.pubKey k) s.message s }
  have htag : enTag (inFlight .enTag (enciphered k s m) h r s) =
      inFlight .enOut m' (tagCtx (s.gaMul s.pubKey k) s.message s) r s := by
    dsimp only [m']
    rw [← finalize_tagCtx]
    rfl
  have hout : enOut (inFlight .enOut m' (tagCtx (s.gaMul s.pubKey k) s.message s) r s) = encrypted k r s := by
    rw [encrypted, ← length_flatBytes_ciphertextOf s k]
    rfl
  calc exec .encrypt (inFlight .enTag (enciphered k s m) h r s)
      = exec .encrypt (inFlight .enOut m' _ r s) := exec_of_body (congrArg some htag) (by simp [inFlight, path])
    _ = exec .encrypt (encrypted k r s) := exec_of_body (congrArg some hout) (by simp [inFlight, path])
    _ = .next (encrypted k r s) := exec_idle rfl

/-- `ENCRYPT` draws in a retry loop (44 R193, R194). -/
theorem encrypt_retryLoop : RetryLoop .encrypt s (encryptRejects s) (EncryptDrawing s) where
  draws := fun ⟨_, _, _⟩ => rfl
  frame := fun ⟨_, _, _⟩ => ⟨rfl, rfl⟩
  counted := fun _ _ ⟨_, _, _⟩ => .intro _ _ _
  retry := fun {_ k} ⟨m, h, r⟩ hk => by
    have hback := exec_enPoint (s := s) (m := m) (h := h) (r := r) (k := k)
    rw [if_pos hk] at hback
    exact ⟨_, hback, .intro _ _ _, rfl, rfl⟩

/-- Past its pre-checks `ENCRYPT` stands at its first draw (44 R192). -/
theorem exec_encrypt_toDraw (hs : s.seq = .check) (hp : Prechecked .encrypt s) :
    exec .encrypt s = exec .encrypt (inFlight .enDraw s.tmp s.hi s.rng s) :=
  exec_enter hs ((firstFailing_checks_eq_none_iff .encrypt s).2 hp)

/-- The run of `ENCRYPT` with an accepted draw (44 R191). -/
theorem exec_encrypt (hs : s.seq = .check) (hp : Prechecked .encrypt s)
    (hdraw : DrawAccepted s (encryptRejects s) k r) : exec .encrypt s = .next (encrypted k r s) := by
  have haccepted : ¬ encryptRejects s k := by
    obtain ⟨-, -, -, -, -, -, hk, -⟩ := hdraw
    exact hk
  obtain ⟨_, ⟨m, h, _⟩, rfl, hloop⟩ := encrypt_retryLoop.exec_accepted (.intro s.tmp s.hi s.rng)
    ((drawAccepted_inFlight_iff rfl _ _ _ _ _).2 hdraw)
  calc exec .encrypt s
      = exec .encrypt (inFlight .enDraw s.tmp s.hi s.rng s) := exec_encrypt_toDraw hs hp
    _ = exec .encrypt (inFlight .enPoint { m with k := k } h _ s) := hloop
    _ = exec .encrypt (inFlight .enTag (enciphered k s m) _ _ s) := by
      rw [exec_enPoint, if_neg haccepted]
    _ = .next (encrypted k _ s) := exec_enTag

/-- A run of `ENCRYPT` that ends without an error has passed its pre-checks and had an accepted draw. -/
theorem drawAccepted_of_encrypted {t : State} (hs : s.seq = .check) (he : exec .encrypt s = .next t)
    (hidle : t.seq = .idle) (herr : t.err = false) :
    Prechecked .encrypt s ∧ ∃ k r, DrawAccepted s (encryptRejects s) k r := by
  have hp := prechecked_of_err_eq_false hs he herr
  rw [exec_encrypt_toDraw hs hp] at he
  obtain ⟨k, r, hdraw⟩ := encrypt_retryLoop.drawAccepted_of_ended (.intro _ _ _) he hidle (by simp [herr])
  exact ⟨hp, k, r, (drawAccepted_inFlight_iff rfl _ _ _ _ _).1 hdraw⟩

end

/-- Settles O43, by the run of the command. -/
theorem encryptCompletes : Obligations.EncryptCompletes := fun _ _ _ hs hp hdraw => exec_encrypt hs hp hdraw

end Sys2Proof.Machine
end

/-! SUPPORT. The run states of `DECRYPT` (44 R198 to R204). -/
section
namespace Sys2Proof.Machine

/-- The temporaries once the shared point, the keystream and the candidate plaintext are computed (44 R201, R202). -/
def deciphered (s : State) (m : Temps) : Temps :=
  { m with
    p1 := s.flatInput.c1, p2 := decryptShare s
    ks := keystream (decryptShare s) s.flatInput.c2.length s, wbuf := decryptPlain s }

/-- The end of `DECRYPT` that delivers the plaintext (44 R204). -/
def decrypted (s : State) : State :=
  { Finished s with
    mem := memSetBytes s.mem 0x200000 (decryptPlain s), olen := BitVec.ofNat 32 (s.mlen.toNat - s.c1Len - 32) }

@[simp] theorem length_decryptPlain (s : State) : (decryptPlain s).length = s.mlen.toNat - s.c1Len - 32 := by
  simp [decryptPlain, length_flatInput_c2]

section
variable {s : State} {m : Temps} {h : HashCtx}

/-- An error past `CHECK` of a command without destination registers (60 R256). -/
theorem raise_inFlight (k : ErrKind) (q : Seq) : raise [] k (inFlight q m h s.rng s) = Failed k s := by
  rw [raise_eq, clearRegs, ite_self]
  rfl

/-- A run state that ends `DECRYPT` with an error. -/
theorem exec_decrypt_raise {q : Seq} {k : ErrKind} (hq : q ∈ path .decrypt) {h' : HashCtx}
    (hend : body .decrypt (inFlight q m h s.rng s) = some (raise [] k (inFlight q m h' s.rng s))) :
    exec .decrypt (inFlight q m h s.rng s) = .next (Failed k s) := by
  rw [raise_inFlight] at hend
  exact (exec_of_body hend hq).trans (exec_idle rfl)

theorem exec_deParse_reject (hb : byteAt s.message 0 ≠ 0x04) :
    exec .decrypt (inFlight .deParse m h s.rng s) = .next (Failed .encoding s) :=
  exec_decrypt_raise (by simp [path]) (congrArg some (if_pos hb))

theorem exec_deParse (hb : ¬ byteAt s.message 0 ≠ 0x04) :
    exec .decrypt (inFlight .deParse m h s.rng s) =
      exec .decrypt (inFlight .deCof { m with p1 := s.flatInput.c1 } h s.rng s) :=
  exec_of_body (congrArg some (if_neg hb)) (by simp [inFlight, path])

theorem exec_deCof_reject (hinf : s.gaIsInf (s.gaMul s.flatInput.c1 1) = true) :
    exec .decrypt (inFlight .deCof { m with p1 := s.flatInput.c1 } h s.rng s) = .next (Failed .integrity s) :=
  exec_decrypt_raise (by simp [path]) (congrArg some (if_pos hinf))

/-- `DE_KDF`: the candidate plaintext (44 R202). -/
theorem deKdf_inFlight {q : Seq} (hp2 : m.p2 = decryptShare s) :
    deKdf (inFlight q m h s.rng s) =
      inFlight .deTag
        { m with ks := keystream (decryptShare s) s.flatInput.c2.length s, wbuf := decryptPlain s }
        (keystreamCtx (decryptShare s) s.flatInput.c2.length s h) s.rng s := by
  rw [decryptPlain, keystreamCtx, ← kdfStream_eq_keystream _ _ h, ← hp2]
  rfl

/-- With C1 finite: the shared point and the candidate plaintext (44 R200 to R202). -/
theorem exec_deCof (hinf : ¬ s.gaIsInf (s.gaMul s.flatInput.c1 1) = true) :
    exec .decrypt (inFlight .deCof { m with p1 := s.flatInput.c1 } h s.rng s) =
      exec .decrypt (inFlight .deTag (deciphered s m)
        (keystreamCtx (decryptShare s) s.flatInput.c2.length s h) s.rng s) := by
  let m1 : Temps := { m with p1 := s.flatInput.c1 }
  let m2 : Temps := { m1 with p2 := decryptShare s }
  calc exec .decrypt (inFlight .deCof m1 h s.rng s)
      = exec .decrypt (inFlight .deShare m1 h s.rng s) :=
      exec_of_body (congrArg some (if_neg hinf)) (by simp [inFlight, path])
    _ = exec .decrypt (inFlight .deKdf m2 h s.rng s) := exec_of_body rfl (by simp [inFlight, path])
    _ = _ := exec_of_body (congrArg some (deKdf_inFlight (m := m2) rfl)) (by simp [inFlight, path])

theorem exec_deTag_reject (htag : tagOf (decryptShare s) (decryptPlain s) s ≠ s.flatInput.c3) :
    exec .decrypt (inFlight .deTag (deciphered s m) h s.rng s) = .next (Failed .integrity s) := by
  rw [← finalize_tagCtx] at htag
  exact exec_decrypt_raise (by simp [path]) (congrArg some (if_pos htag))

/-- With the right tag the plaintext goes to `OUTBUF` (44 R203, R204). -/
theorem exec_deTag (htag : ¬ tagOf (decryptShare s) (decryptPlain s) s ≠ s.flatInput.c3) :
    exec .decrypt (inFlight .deTag (deciphered s m) h s.rng s) = .next (decrypted s) := by
  rw [← finalize_tagCtx] at htag
  let x := inFlight .deOut (deciphered s m) (tagCtx (decryptShare s) (decryptPlain s) s) s.rng s
  have hout : deOut x = decrypted s := by
    rw [decrypted, ← length_decryptPlain s]
    rfl
  calc exec .decrypt (inFlight .deTag (deciphered s m) h s.rng s)
      = exec .decrypt x := exec_of_body (congrArg some (if_neg htag)) (by simp [inFlight, path])
    _ = exec .decrypt (decrypted s) := exec_of_body (congrArg some hout) (by simp [x, inFlight, path])
    _ = .next (decrypted s) := exec_idle rfl

end

/-- Settles O44, by the run state that decides. -/
theorem decryptCompletes : Obligations.DecryptCompletes := by
  intro s hs hp
  have henter : exec .decrypt s = exec .decrypt (inFlight .deParse s.tmp s.hi s.rng s) :=
    exec_enter hs ((firstFailing_checks_eq_none_iff .decrypt s).2 hp)
  rw [henter]
  split
  case isTrue hb => exact exec_deParse_reject hb
  case isFalse hb =>
    rw [exec_deParse hb]
    split
    case isTrue hinf => exact exec_deCof_reject hinf
    case isFalse hinf =>
      rw [exec_deCof hinf]
      split
      case isTrue htag => exact exec_deTag_reject htag
      case isFalse htag => exact exec_deTag htag

/-- With the right first byte, a finite C1 and the right tag `DECRYPT` delivers the plaintext (44 R204). -/
theorem exec_decrypt_delivers {s : State} (hs : s.seq = .check) (hp : Prechecked .decrypt s)
    (hb : byteAt s.message 0 = 0x04) (hinf : ¬ s.gaIsInf (s.gaMul s.flatInput.c1 1) = true)
    (htag : tagOf (decryptShare s) (decryptPlain s) s = s.flatInput.c3) : exec .decrypt s = .next (decrypted s) := by
  have hrun := decryptCompletes s hs hp
  rwa [if_neg (not_not_intro hb), if_neg hinf, if_neg (not_not_intro htag)] at hrun

end Sys2Proof.Machine
end

/-! SUPPORT. The split of a flat ciphertext, and an output that the host copies to `MSGBUF` (44 R190, R198, 45 R227). -/
section
namespace Sys2Proof.Machine

theorem slice_append_middle {s t u : Bytes} {i n : Nat} (hs : s.length = i) (ht : t.length = n) :
    slice (s ++ t ++ u) i n = t := by
  simp [slice, ← hs, ← ht]

/-- A flat form splits into the parts it was joined from, when C1 fits its fields and C3 is a tag (45 R227). -/
theorem splitFlat_flatBytes {kb : Nat} {ct : Ciphertext} (hx : ct.c1.x < 2 ^ (8 * kb)) (hy : ct.c1.y < 2 ^ (8 * kb))
    (hc3 : ct.c3.length = 32) : splitFlat kb (flatBytes kb ct) = ct := by
  have hlen : (flatBytes kb ct).length - (2 * kb + 1) - Config.c3Len = ct.c2.length := by
    rw [length_flatBytes, hc3, Config.c3Len]
    omega
  have hX : slice (flatBytes kb ct) 1 kb = fix ct.c1.x kb := by
    have h := slice_append_middle (s := [0x04]) (u := fix ct.c1.y kb ++ ct.c2 ++ ct.c3) rfl (length_fix ct.c1.x kb)
    simpa [flatBytes, pointBytes] using h
  have hY : slice (flatBytes kb ct) (1 + kb) kb = fix ct.c1.y kb := by
    have h := slice_append_middle (s := 0x04 :: fix ct.c1.x kb) (u := ct.c2 ++ ct.c3) (i := 1 + kb)
      (by simp [Nat.add_comm]) (length_fix ct.c1.y kb)
    simpa [flatBytes, pointBytes] using h
  have hC2 : slice (flatBytes kb ct) (2 * kb + 1) ct.c2.length = ct.c2 :=
    slice_append_middle (length_pointBytes kb ct.c1) rfl
  have hC3 : (flatBytes kb ct).drop (2 * kb + 1 + ct.c2.length) = ct.c3 :=
    List.drop_left' (by rw [List.length_append, length_pointBytes])
  simp only [splitFlat, hlen, hX, hY, hC2, hC3, intOf_fix_of_lt hx, intOf_fix_of_lt hy]

/-- `OLEN` is wide enough for the length of an output that fits `OUTBUF` (00 R8, 10 R32). -/
theorem toNat_ofNat_of_le_outCap {c : Config.Params} (hc : c.sized = true) {n : Nat} (hn : n ≤ c.outCap) :
    (BitVec.ofNat 32 n).toNat = n := by
  obtain ⟨-, hcap, -⟩ := cap_le c hc .out
  rw [BitVec.toNat_ofNat, Nat.mod_eq_of_lt ((hn.trans hcap).trans_lt (by decide))]

/-- What stands in `OUTBUF` after an output of `OLEN` bytes (10 R32). -/
theorem memGetBytes_output {t : State} {m : List Host.Cell} {d : Bytes} (hm : Memory.wf m = true)
    (hmem : t.mem = memSetBytes m 0x200000 d) (holen : t.olen.toNat = d.length) :
    memGetBytes t.mem 0x200000 t.olen.toNat = d := by
  rw [hmem, holen, memGetBytes_memSetBytes hm]

/-- An output that the host copies to `MSGBUF` is the message of the next command (44 R205). -/
theorem message_outputAsMessage {t : State} {m : List Host.Cell} {d : Bytes} (hm : Memory.wf m = true)
    (hmem : t.mem = memSetBytes m 0x200000 d) (holen : t.olen.toNat = d.length) : (outputAsMessage t).message = d := by
  have hwf : Memory.wf t.mem = true := hmem ▸ Memory.wf_memSetBytes hm _ _
  have hback := memGetBytes_memSetBytes hwf 0x100000 d
  rw [← holen] at hback
  rw [State.message, outputAsMessage, memGetBytes_output hm hmem holen]
  exact hback

end Sys2Proof.Machine
end

/-! SUPPORT. Why a ciphertext decrypts (44 R205): the two parties share one point, and the keystream undoes itself. -/
section
namespace Sys2Proof.Machine

theorem xorBytes_xorBytes {a b : Bytes} (h : a.length = b.length) : xorBytes (xorBytes a b) b = a := by
  refine List.ext_getElem (by simp [h]) fun i _ _ => ?_
  simp [xorBytes]

section
variable {s : State} (hv : DomainValid s) (hd : domainInContract s.dom = true)
include hv hd

/-- `b·(c·G)` is `(b * c)·G` (41 R133). -/
theorem gaMul_gaMulBase (hb : s.dom.b % s.dom.p ≠ 0) (b c : Nat) :
    s.gaMul (s.gaMulBase c) b = s.gaMulBase (b * c) := by
  obtain ⟨-, -, hg, hord⟩ := base_of_validDomain hv hd
  have hmul := curveAdd_multiples hd hb hg (a := 0) (b := b) (c := c) hord (by rw [Nat.zero_add])
  rw [curveMul, curveAdd_inf_left] at hmul
  rw [State.gaMul, State.gaMulBase, State.gaMulBase, ga_mulBase_eq_curveMul hd hg, ga_mulBase_eq_curveMul hd hg,
    gaCorrect.mul _ _ _ hd (curveMul_inContract hd hg c), hmul]

/-- The coordinates of a multiple of G fit the fields of a flat form (44 R190). -/
theorem gaMulBase_lt (k : Nat) :
    (s.gaMulBase k).x < 2 ^ (8 * s.keyBytes) ∧ (s.gaMulBase k).y < 2 ^ (8 * s.keyBytes) := by
  obtain ⟨⟨-, -, hp⟩, ⟨h3, -⟩, -⟩ := (validDomain_iff _ _).1 hv
  obtain ⟨-, -, hg, -⟩ := base_of_validDomain hv hd
  obtain ⟨hx, hy⟩ := lt_of_inContract (by omega) (curveMul_inContract hd hg k)
  have hfield : s.dom.p < 2 ^ (8 * s.keyBytes) :=
    hp.trans_le (Nat.pow_le_pow_right (by omega) (le_eight_mul_ceilDiv _).1)
  rw [State.gaMulBase, ga_mulBase_eq_curveMul hd hg]
  exact ⟨hx.trans hfield, hy.trans hfield⟩

end

/-- `DECRYPT` issued on the output of `ENCRYPT` with the scalar k, copied to `MSGBUF` (44 R205). -/
def decryptInput (k : Nat) (r : List RngAnswer) (s : State) : State :=
  issue (encode .decrypt) (outputAsMessage (encrypted k r s))

section
variable {s : State} (hc : s.cfg.sized = true) (hp : Prechecked .encrypt s)
include hc hp

/-- The flat form fits `OUTBUF`, so `OLEN` holds its length (60 R260, 10 R32). -/
theorem toNat_olen_encrypted (k : Nat) (r : List RngAnswer) :
    (encrypted k r s).olen.toNat = s.c1Len + s.mlen.toNat + 32 := by
  obtain ⟨-, -, -, -, ⟨hfit, -⟩, -⟩ := hp
  exact toNat_ofNat_of_le_outCap hc (hfit rfl)

/-- The pre-checks of `DECRYPT` hold of the ciphertext, when `MSGBUF` can hold it (60 R260). -/
theorem prechecked_decryptInput {k : Nat} {r : List RngAnswer} (hcap : (encrypted k r s).olen.toNat ≤ s.cfg.msgCap)
    (hkey : 1 ≤ s.regs.keyD ∧ s.regs.keyD + 1 ≤ s.regs.domN) : Prechecked .decrypt (decryptInput k r s) := by
  have hmlen : (decryptInput k r s).mlen.toNat = s.c1Len + s.mlen.toNat + 32 := toNat_olen_encrypted hc hp k r
  have hlong : s.c1Len + 32 ≤ (decryptInput k r s).mlen.toNat := by omega
  obtain ⟨-, -, hready, -, ⟨hfit, -⟩, -⟩ := hp
  have hout := hfit rfl
  have hshort : (decryptInput k r s).mlen.toNat - s.c1Len - 32 ≤ s.cfg.outCap := by omega
  exact ⟨rfl, ⟨by simp, fun _ => hcap, by simp, by simp⟩, fun _ => hready rfl,
    ⟨fun _ => hlong, by simp, by simp, by simp⟩, ⟨by simp, fun _ => hshort, by simp, by simp, by simp⟩,
    ⟨fun _ => hkey, by simp⟩⟩

variable (hm : Memory.wf s.mem = true)
include hm

theorem message_decryptInput (k : Nat) (r : List RngAnswer) :
    (decryptInput k r s).message = flatBytes s.keyBytes (ciphertextOf s k) := by
  have holen := toNat_olen_encrypted hc hp k r
  rw [← length_flatBytes_ciphertextOf s k] at holen
  exact message_outputAsMessage hm rfl holen

variable (hv : DomainValid s) (hd : domainInContract s.dom = true)
include hv hd

/-- `DECRYPT` splits its input into the parts that `ENCRYPT` joined (44 R198). -/
theorem flatInput_decryptInput (k : Nat) (r : List RngAnswer) :
    (decryptInput k r s).flatInput = ciphertextOf s k := by
  obtain ⟨hx, hy⟩ := gaMulBase_lt hv hd k
  rw [State.flatInput, message_decryptInput hc hp hm]
  exact splitFlat_flatBytes hx hy (length_tagOf _ _ _)

variable (hb : s.dom.b % s.dom.p ≠ 0) (hpub : s.pubKey = s.gaMulBase s.regs.keyD)
include hb hpub

/-- The two parties share one point: `D·(k·G)` is `k·(D·G)` (44 R201). -/
theorem decryptShare_decryptInput (k : Nat) (r : List RngAnswer) :
    decryptShare (decryptInput k r s) = s.gaMul s.pubKey k := by
  have hcomm : s.gaMul (s.gaMulBase k) s.regs.keyD = s.gaMul s.pubKey k := by
    rw [hpub, gaMul_gaMulBase hv hd hb, gaMul_gaMulBase hv hd hb, Nat.mul_comm]
  rw [decryptShare, flatInput_decryptInput hc hp hm hv hd]
  exact hcomm

/-- The candidate plaintext is the message (44 R202). -/
theorem decryptPlain_decryptInput (k : Nat) (r : List RngAnswer) : decryptPlain (decryptInput k r s) = s.message := by
  have hc2 : (ciphertextOf s k).c2.length = s.mlen.toNat := length_encryptBodyOf s k
  rw [decryptPlain, decryptShare_decryptInput hc hp hm hv hd hb hpub, flatInput_decryptInput hc hp hm hv hd, hc2]
  exact xorBytes_xorBytes (by simp)

/-- `DECRYPT` of the ciphertext of a scalar in [1, N-1] delivers the message (44 R205). -/
theorem exec_decryptInput {k : Nat} {r : List RngAnswer} (hk0 : k ≠ 0) (hk : k < s.regs.domN)
    (hp' : Prechecked .decrypt (decryptInput k r s)) :
    exec .decrypt (decryptInput k r s) = .next (decrypted (decryptInput k r s)) := by
  have hfirst : byteAt (decryptInput k r s).message 0 = 0x04 := by
    rw [message_decryptInput hc hp hm]
    rfl
  have hfinite : ¬ s.gaIsInf (s.gaMul (decryptInput k r s).flatInput.c1 1) = true := by
    rw [flatInput_decryptInput hc hp hm hv hd, ciphertextOf, gaMul_gaMulBase hv hd hb, one_mul]
    exact gaIsInf_gaMulBase hv hd hk0 hk
  have htag : tagOf (decryptShare (decryptInput k r s)) (decryptPlain (decryptInput k r s)) (decryptInput k r s)
      = (decryptInput k r s).flatInput.c3 := by
    rw [decryptShare_decryptInput hc hp hm hv hd hb hpub, decryptPlain_decryptInput hc hp hm hv hd hb hpub,
      flatInput_decryptInput hc hp hm hv hd]
    rfl
  exact exec_decrypt_delivers rfl hp' hfirst hfinite htag

end

/-- What `OUTBUF` holds after a completed `DECRYPT` is the plaintext (44 R204). -/
theorem memRead_decrypted {u : State} (hm : Memory.wf u.mem = true) (hp : Prechecked .decrypt u)
    (hc : u.cfg.sized = true) : memRead .out 0 (decrypted u).olen.toNat (decrypted u) = decryptPlain u := by
  obtain ⟨-, -, -, -, ⟨-, hfit, -⟩, -⟩ := hp
  have holen : (decrypted u).olen.toNat = (decryptPlain u).length := by
    rw [length_decryptPlain]
    exact toNat_ofNat_of_le_outCap hc (hfit rfl)
  exact memGetBytes_output hm rfl holen

/-- Settles O59: a completed run has accepted a scalar k, and with it the two parties share one point. -/
theorem encryptThenDecryptReturnsTheMessage : Obligations.EncryptThenDecryptReturnsTheMessage := by
  intro s t hs _ hc hm hv hd hb hkey1 hkey2 hpub he hidle herr hcap
  obtain ⟨hp, k, r, hdraw⟩ := drawAccepted_of_encrypted hs he hidle herr
  cases exec_next_injective he (exec_encrypt hs hp hdraw)
  obtain ⟨hk0, hk, -⟩ := hdraw.scalar (by omega)
  have hp' := prechecked_decryptInput hc hp hcap ⟨hkey1, hkey2⟩
  have hm' : Memory.wf (decryptInput k r s).mem = true :=
    Memory.wf_memSetBytes (Memory.wf_memSetBytes hm _ _) _ _
  refine ⟨_, exec_decryptInput hc hp hm hv hd hb hpub hk0 hk hp', rfl, rfl, ?_⟩
  rw [memRead_decrypted hm' hp' hc]
  exact decryptPlain_decryptInput hc hp hm hv hd hb hpub k r

end Sys2Proof.Machine
end

/-! SUPPORT. Bytes that stand in a byte string from one index to another, and how the elements of the DER coder do: what
the parsers ask of a whole input is that its members stand one after the other (45 R215 to R219). -/
section
namespace Sys2Proof.Machine

/-- The bytes `d` stand in `b` from index `i` up to index `j`. -/
def Spans (b : Bytes) (i : Nat) (d : Bytes) (j : Nat) : Prop := slice b i d.length = d ∧ j = i + d.length

/-- Two strings stand one after the other exactly where their concatenation stands. -/
theorem spans_append_iff {b s t : Bytes} {i j : Nat} : Spans b i (s ++ t) j ↔ ∃ m, Spans b i s m ∧ Spans b m t j := by
  unfold Spans
  rw [slice_append_iff, List.length_append, ← Nat.add_assoc]
  constructor
  · rintro ⟨⟨hs, ht⟩, hj⟩
    exact ⟨_, ⟨hs, rfl⟩, ht, hj⟩
  · rintro ⟨_, ⟨hs, rfl⟩, ht, hj⟩
    exact ⟨⟨hs, ht⟩, hj⟩

/-- What stands in a string and is not empty ends within it. -/
theorem Spans.le_length {b d : Bytes} {i j : Nat} (h : Spans b i d j) (hd : d ≠ []) : j ≤ b.length := by
  obtain ⟨hsl, rfl⟩ := h
  have hlen := congrArg List.length hsl
  have hpos := List.length_pos_of_ne_nil hd
  rw [length_slice] at hlen
  omega

/-- An INTEGER that the range of the whole string holds (45 R218). -/
theorem parseInt_length_iff {b : Bytes} {i w v j : Nat} :
    parseInt b i b.length w = some (v, j) ↔ v < 2 ^ w ∧ (derIntContent v).length < 2 ^ 32 ∧ Spans b i (derInt v) j := by
  rw [parseInt_iff (Nat.le_refl _)]
  constructor
  · rintro ⟨hv, hc, hsl, hj, -⟩
    exact ⟨hv, hc, hsl, hj⟩
  · rintro ⟨hv, hc, hspan⟩
    exact ⟨hv, hc, hspan.1, hspan.2, hspan.le_length (List.cons_ne_nil _ _)⟩

/-- An OCTET STRING that the range of the whole string holds (45 R219). -/
theorem parseOct_length_iff {b c : Bytes} {i j : Nat} :
    parseOct b i b.length = some (c, j) ↔ c.length < 2 ^ 32 ∧ Spans b i (derOct c) j := by
  rw [parseOct_iff (Nat.le_refl _)]
  constructor
  · rintro ⟨hc, hsl, hj, -⟩
    exact ⟨hc, hsl, hj⟩
  · rintro ⟨hc, hspan⟩
    exact ⟨hc, hspan.1, hspan.2, hspan.le_length (List.cons_ne_nil _ _)⟩

/-- A string is one SEQUENCE, with a body that fills it, exactly when it is `DerSeq` of the body (45 R215, R217). -/
theorem parseTlv_sequence_iff {b body : Bytes} :
    (∃ s, parseTlv b 0 b.length tagSequence = some (s, b.length) ∧ Spans b s body b.length) ↔
      b = derSeq body ∧ body.length < 2 ^ 32 := by
  constructor
  · rintro ⟨s, hp, hbody, hend⟩
    obtain ⟨c, hc, hsl, hlen, -, hs, hcont⟩ := (parseTlv_iff (Nat.le_refl _)).1 hp
    have hbc : body = c := by rw [← hbody, ← hcont, show body.length = c.length by omega]
    rw [Nat.zero_add] at hlen
    rw [← hlen, slice, List.drop_zero, List.take_length] at hsl
    exact ⟨hbc ▸ hsl, hbc ▸ hc⟩
  · rintro ⟨rfl, hlen⟩
    let header : Bytes := tagSequence :: derLen body.length
    have hsplit : derSeq body = header ++ body := rfl
    have hbody : slice (derSeq body) header.length body.length = body := by
      rw [hsplit, slice, List.drop_left, List.take_length]
    have hend : (derSeq body).length = header.length + body.length := by rw [hsplit, List.length_append]
    refine ⟨header.length, (parseTlv_iff (Nat.le_refl _)).2 ⟨body, hlen, ?_, ?_, Nat.le_refl _, hend.symm, hbody⟩,
      hbody, hend⟩
    · exact List.take_length
    · exact (Nat.zero_add _).symm

/-! The lengths of the elements. -/

theorem length_derLen_le {n : Nat} (h : n < 2 ^ 32) : (derLen n).length ≤ 5 := by
  unfold derLen
  split
  · simp
  · have := length_minbytes_le (k := 4) h
    rw [List.length_cons]
    omega

theorem length_lt_length_derElement (tag : Byte) (c : Bytes) : c.length < (derElement tag c).length := by
  rw [derElement, List.length_cons, List.length_append]
  omega

theorem length_derElement_le {tag : Byte} {c : Bytes} (h : c.length < 2 ^ 32) :
    (derElement tag c).length ≤ c.length + 6 := by
  have := length_derLen_le h
  rw [derElement, List.length_cons, List.length_append]
  omega

/-- The content of an INTEGER is at most one byte longer than the width of its value (45 R213). -/
theorem length_derIntContent_le {v k : Nat} (h : v < 2 ^ (8 * k)) : (derIntContent v).length ≤ k + 1 := by
  have hmin : (minbytes v).length ≤ k := length_minbytes_le (by rwa [← two_pow_eight_mul])
  unfold derIntContent
  split
  · simp
  · split
    · rw [List.length_cons]
      omega
    · omega

theorem length_derInt_le {v k : Nat} (hk : k ≤ 2 ^ 20) (h : v < 2 ^ (8 * k)) : (derInt v).length ≤ k + 7 := by
  have hc := length_derIntContent_le h
  have := length_derElement_le (tag := tagInteger) (c := derIntContent v) (by omega)
  rw [derInt]
  omega

end Sys2Proof.Machine
end

/-! SUPPORT. The two structures (45 R220, R221): a parser accepts the encoder's output and nothing else. -/
section
namespace Sys2Proof.Machine

/-- `ParseSig` accepts exactly when its three parses succeed and the last ends the string (45 R220). -/
theorem parseSig_eq_some_iff {w r v : Nat} {b : Bytes} :
    parseSig w b = some (r, v) ↔
      ∃ s i, parseTlv b 0 b.length tagSequence = some (s, b.length) ∧ parseInt b s b.length w = some (r, i)
        ∧ parseInt b i b.length w = some (v, b.length) := by
  constructor
  · intro h
    unfold parseSig at h
    split at h
    · cases h
    rename_i s e hseq
    rw [ite_not] at h
    split at h
    case isFalse => cases h
    case isTrue he =>
      subst he
      split at h
      · cases h
      rename_i hr
      split at h
      · cases h
      rename_i hv
      rw [ite_not] at h
      split at h
      case isFalse => cases h
      case isTrue hj =>
        subst hj
        cases h
        exact ⟨_, _, hseq, hr, hv⟩
  · rintro ⟨s, i, hseq, hr, hv⟩
    simp [parseSig, hseq, hr, hv]

/-- The accepted signature forms (45 R227), for registers of every width. -/
theorem parseSig_iff {w r v : Nat} {b : Bytes} :
    parseSig w b = some (r, v) ↔
      b = derSig r v ∧ (derInt r ++ derInt v).length < 2 ^ 32 ∧ r < 2 ^ w ∧ v < 2 ^ w := by
  simp only [parseSig_eq_some_iff, parseInt_length_iff]
  constructor
  · rintro ⟨s, i, hseq, ⟨hr, -, hrs⟩, hv, -, hvs⟩
    obtain ⟨hb, hlen⟩ := parseTlv_sequence_iff.1 ⟨s, hseq, spans_append_iff.2 ⟨i, hrs, hvs⟩⟩
    exact ⟨hb, hlen, hr, hv⟩
  · rintro ⟨hb, hlen, hr, hv⟩
    obtain ⟨s, hseq, hspan⟩ := parseTlv_sequence_iff.2 ⟨hb, hlen⟩
    obtain ⟨i, hrs, hvs⟩ := spans_append_iff.1 hspan
    have hrc : (derIntContent r).length < (derInt r).length := length_lt_length_derElement _ _
    have hvc : (derIntContent v).length < (derInt v).length := length_lt_length_derElement _ _
    rw [List.length_append] at hlen
    exact ⟨s, i, hseq, ⟨hr, by omega, hrs⟩, hv, by omega, hvs⟩

/-- Settles O54: registers of at most 1024 bits keep the body short enough for a length field. -/
theorem signatureFormIsCanonical : Obligations.SignatureFormIsCanonical := by
  intro w b r v hw
  rw [parseSig_iff]
  refine and_congr_right fun _ => and_iff_right_of_imp fun ⟨hr, hv⟩ => ?_
  obtain ⟨hle, hlt⟩ := le_eight_mul_ceilDiv w
  have hpow : 2 ^ w ≤ 2 ^ (8 * ceilDiv w 8) := Nat.pow_le_pow_right (by omega) hle
  have hrl := length_derInt_le (by omega) (hr.trans_le hpow)
  have hvl := length_derInt_le (by omega) (hv.trans_le hpow)
  rw [List.length_append]
  omega

/-- `ParseCt` accepts exactly when its five parses succeed, the last ends the string, and C3 is a tag (45 R221). -/
theorem parseCt_eq_some_iff {kb : Nat} {b : Bytes} {ct : Ciphertext} :
    parseCt kb b = some ct ↔
      ∃ s i1 i2 i3, parseTlv b 0 b.length tagSequence = some (s, b.length)
        ∧ parseInt b s b.length (8 * kb) = some (ct.c1.x, i1) ∧ parseInt b i1 b.length (8 * kb) = some (ct.c1.y, i2)
        ∧ parseOct b i2 b.length = some (ct.c3, i3) ∧ parseOct b i3 b.length = some (ct.c2, b.length)
        ∧ ct.c3.length = Config.c3Len := by
  constructor
  · intro h
    unfold parseCt at h
    split at h
    · cases h
    rename_i s e hseq
    rw [ite_not] at h
    split at h
    case isFalse => cases h
    case isTrue he =>
      subst he
      split at h
      · cases h
      rename_i hx
      split at h
      · cases h
      rename_i hy
      split at h
      · cases h
      rename_i hc3
      split at h
      · cases h
      rename_i hc2
      rw [ite_not, ite_not] at h
      split at h
      case isFalse => cases h
      case isTrue hj =>
        subst hj
        split at h
        case isFalse => cases h
        case isTrue htag =>
          cases h
          exact ⟨_, _, _, _, hseq, hx, hy, hc3, hc2, htag⟩
  · rintro ⟨s, i1, i2, i3, hseq, hx, hy, hc3, hc2, htag⟩
    simp [parseCt, hseq, hx, hy, hc3, hc2, htag]

/-- The members of the structured form of a ciphertext, in their order (45 R221). -/
def ctMembers (ct : Ciphertext) : Bytes := derInt ct.c1.x ++ derInt ct.c1.y ++ derOct ct.c3 ++ derOct ct.c2

theorem derCt_eq (ct : Ciphertext) : derCt ct = derSeq (ctMembers ct) := rfl

/-- The accepted ciphertext forms (45 R227), for every domain and body. -/
theorem parseCt_iff {kb : Nat} {b : Bytes} {ct : Ciphertext} :
    parseCt kb b = some ct ↔
      b = derCt ct ∧ (ctMembers ct).length < 2 ^ 32
        ∧ ct.c1.x < 2 ^ (8 * kb) ∧ ct.c1.y < 2 ^ (8 * kb) ∧ ct.c3.length = 32 := by
  simp only [parseCt_eq_some_iff, parseInt_length_iff, parseOct_length_iff]
  constructor
  · rintro ⟨s, i1, i2, i3, hseq, ⟨hx, -, hxs⟩, ⟨hy, -, hys⟩, ⟨-, hc3s⟩, ⟨-, hc2s⟩, htag⟩
    have hspan : Spans b s (ctMembers ct) b.length := spans_append_iff.2
      ⟨i3, spans_append_iff.2 ⟨i2, spans_append_iff.2 ⟨i1, hxs, hys⟩, hc3s⟩, hc2s⟩
    obtain ⟨hb, hlen⟩ := parseTlv_sequence_iff.1 ⟨s, hseq, hspan⟩
    exact ⟨hb, hlen, hx, hy, htag⟩
  · rintro ⟨hb, hlen, hx, hy, htag⟩
    obtain ⟨s, hseq, hspan⟩ := parseTlv_sequence_iff.2 ⟨hb, hlen⟩
    obtain ⟨i3, hspan, hc2s⟩ := spans_append_iff.1 hspan
    obtain ⟨i2, hspan, hc3s⟩ := spans_append_iff.1 hspan
    obtain ⟨i1, hxs, hys⟩ := spans_append_iff.1 hspan
    have hxc : (derIntContent ct.c1.x).length < (derInt ct.c1.x).length := length_lt_length_derElement _ _
    have hyc : (derIntContent ct.c1.y).length < (derInt ct.c1.y).length := length_lt_length_derElement _ _
    have hc3c : ct.c3.length < (derOct ct.c3).length := length_lt_length_derElement _ _
    have hc2c : ct.c2.length < (derOct ct.c2).length := length_lt_length_derElement _ _
    rw [ctMembers, List.length_append, List.length_append, List.length_append] at hlen
    exact ⟨s, i1, i2, i3, hseq, ⟨hx, by omega, hxs⟩, ⟨hy, by omega, hys⟩, ⟨by omega, hc3s⟩, ⟨by omega, hc2s⟩, htag⟩

/-- With a body of at most 2^20 bytes the members are short enough for a length field. -/
theorem length_ctMembers_lt {kb : Nat} {ct : Ciphertext} (hkb : kb ≤ 2 ^ 20) (hc2 : ct.c2.length ≤ 2 ^ 20)
    (hx : ct.c1.x < 2 ^ (8 * kb)) (hy : ct.c1.y < 2 ^ (8 * kb)) (hc3 : ct.c3.length = 32) :
    (ctMembers ct).length < 2 ^ 32 := by
  have hxl := length_derInt_le hkb hx
  have hyl := length_derInt_le hkb hy
  have hc3l : (derOct ct.c3).length ≤ ct.c3.length + 6 := length_derElement_le (by omega)
  have hc2l : (derOct ct.c2).length ≤ ct.c2.length + 6 := length_derElement_le (by omega)
  rw [ctMembers, List.length_append, List.length_append, List.length_append]
  omega

/-- The structured form of a ciphertext is canonical (45 R227). -/
theorem parseCt_iff_of_le {kb : Nat} {b : Bytes} {ct : Ciphertext} (hkb : kb ≤ 2 ^ 20) (hc2 : ct.c2.length ≤ 2 ^ 20) :
    parseCt kb b = some ct ↔
      b = derCt ct ∧ ct.c1.x < 2 ^ (8 * kb) ∧ ct.c1.y < 2 ^ (8 * kb) ∧ ct.c3.length = 32 := by
  rw [parseCt_iff]
  exact and_congr_right fun _ =>
    and_iff_right_of_imp fun ⟨hx, hy, hc3⟩ => length_ctMembers_lt hkb hc2 hx hy hc3

end Sys2Proof.Machine
end

/-! SUPPORT. The run state `DER_RUN` of the four commands (45 R222 to R228), each from the state it is entered with. -/
section
namespace Sys2Proof.Machine

/-- An error in the run state of a command without destination registers (60 R256). -/
theorem raise_enterRun {i : Instr} (hi : destinations i = []) (k : ErrKind) (s : State) :
    raise (destinations i) k (enterRun i s) = Failed k s := by
  rw [hi]
  exact raise_inFlight k ((path i).headD .finish)

/-- An output that fits is delivered, one that does not ends with `ERR_PARAM` (45 R222, R225, R226). -/
theorem outputOrParam_enterRun {i : Instr} (hi : destinations i = []) (d : Bytes) (s : State) :
    outputOrParam i d (enterRun i s) = if s.cfg.outCap < d.length then Failed .param s else Delivered d s := by
  rw [outputOrParam, raise_enterRun hi]
  rfl

/-- Either end of an output goes to `IDLE`. -/
theorem ite_failed_delivered_seq (p : Prop) [Decidable p] (k : ErrKind) (d : Bytes) (s : State) :
    (if p then Failed k s else Delivered d s).seq = .idle := by
  split <;> rfl

theorem derDecSigRun_of_none {s : State} (h : parseSig s.cfg.opBits s.message = none) :
    derDecSigRun s = raise (destinations .derDecSig) .encoding s := by
  simp only [derDecSigRun, h]

/-- The parsed halves fit the registers, which take them whole (45 R218, R223). -/
theorem derDecSigRun_of_some {s : State} {r v : Nat} (h : parseSig s.cfg.opBits s.message = some (r, v)) :
    derDecSigRun s = { Finished s with regs := { s.regs with sigR := r, sigS := v } } := by
  obtain ⟨-, -, hr, hv⟩ := parseSig_iff.1 h
  simp only [derDecSigRun, h, setReg, Nat.mod_eq_of_lt hr, Nat.mod_eq_of_lt hv]
  rfl

/-- The error of `DER_DEC_SIG` clears the signature registers (45 R223, 60 R256). -/
theorem raise_derDecSig (s : State) :
    raise (destinations .derDecSig) .encoding (enterRun .derDecSig s)
      = { Failed .encoding s with regs := { s.regs with sigR := 0, sigS := 0 } } := by
  rw [raise_eq, if_neg (by simp [path])]
  simp [destinations, clearRegs, OperandRegs.put, Failed, Finished]

theorem derDecCtRun_of_none {s : State} (h : parseCt s.keyBytes s.message = none) :
    derDecCtRun s = raise (destinations .derDecCt) .encoding s := by
  simp only [derDecCtRun, h]

theorem derDecCtRun_of_some {s : State} {ct : Ciphertext} (h : parseCt s.keyBytes s.message = some ct) :
    derDecCtRun s = outputOrParam .derDecCt (flatBytes s.keyBytes ct) s := by
  simp only [derDecCtRun, h]

/-- A command with one run state, which ends it in the state `t`. -/
theorem exec_singleState_eq {i : Instr} {s t : State} {q : Seq} {act : State → State} (hs : s.seq = .check)
    (hp : Prechecked i s) (hpath : path i = [q]) (hbody : body i = singleState q act)
    (hact : act (enterRun i s) = t) (hidle : t.seq = .idle) : exec i s = .next t := by
  subst hact
  exact exec_singleState hs hpath hbody ((firstFailing_checks_eq_none_iff i s).2 hp) hidle

/-- `DER_ENC_SIG` has no pre-check (45 R222). -/
theorem prechecked_derEncSig (s : State) : Prechecked .derEncSig s :=
  (firstFailing_checks_eq_none_iff _ _).1 rfl

/-- The one pre-check of `DER_DEC_SIG` is that of the message length (45 R223). -/
theorem prechecked_derDecSig {s : State} (h : s.mlen.toNat ≤ s.cfg.msgCap) : Prechecked .derDecSig s :=
  (firstFailing_checks_eq_none_iff _ _).1 (by simp [checks, firstFailing, mlenCheck, h])

/-- The pre-checks of `DER_DEC_CT` are those of the message length and of `DOMOK` (45 R226). -/
theorem prechecked_derDecCt {s : State} (hm : s.mlen.toNat ≤ s.cfg.msgCap) (hd : s.domok = true) :
    Prechecked .derDecCt s :=
  (firstFailing_checks_eq_none_iff _ _).1 (by simp [checks, firstFailing, mlenCheck, domokCheck, hm, hd])

/-- Settles O45, by the run state of each command. -/
theorem derSignatureCommands : Obligations.DerSignatureCommands := by
  refine fun s hs => ⟨?_, fun hm => ?_⟩
  · exact exec_singleState_eq hs (prechecked_derEncSig s) rfl rfl (outputOrParam_enterRun rfl _ s)
      (ite_failed_delivered_seq _ _ _ _)
  · have hp := prechecked_derDecSig hm
    cases hparse : parseSig s.cfg.opBits s.message with
    | none =>
      have hrun := derDecSigRun_of_none (s := enterRun .derDecSig s) hparse
      exact exec_singleState_eq hs hp rfl rfl (hrun.trans (raise_derDecSig s)) rfl
    | some rv => exact exec_singleState_eq hs hp rfl rfl (derDecSigRun_of_some (s := enterRun .derDecSig s) hparse) rfl

/-- `DER_ENC_CT`, by its first byte and the capacity (45 R225). -/
theorem derEncCtRun_enterRun (s : State) :
    derEncCtRun (enterRun .derEncCt s) =
      if byteAt s.message 0 ≠ 0x04 then Failed .encoding s
      else if s.cfg.outCap < (derCt s.flatInput).length then Failed .param s
      else Delivered (derCt s.flatInput) s := by
  rw [derEncCtRun, raise_enterRun rfl, outputOrParam_enterRun rfl]
  rfl

/-- Settles O46, by the run state of each command. -/
theorem derCiphertextCommands : Obligations.DerCiphertextCommands := by
  refine fun s hs => ⟨fun hp => ?_, fun hp => ?_⟩
  · refine exec_singleState_eq hs hp rfl rfl (derEncCtRun_enterRun s) ?_
    split
    · rfl
    · exact ite_failed_delivered_seq _ _ _ _
  · cases hparse : parseCt s.keyBytes s.message with
    | none =>
      have hrun := derDecCtRun_of_none (s := enterRun .derDecCt s) hparse
      exact exec_singleState_eq hs hp rfl rfl (hrun.trans (raise_enterRun rfl _ s)) rfl
    | some ct =>
      have hrun := derDecCtRun_of_some (s := enterRun .derDecCt s) hparse
      exact exec_singleState_eq hs hp rfl rfl (hrun.trans (outputOrParam_enterRun rfl _ s))
        (ite_failed_delivered_seq _ _ _ _)

end Sys2Proof.Machine
end

/-! SUPPORT. `DER_DEC_CT` undoes `DER_ENC_CT` (45 R227): the flat form joins as it was split, and the parser gives back
what the encoder was given. -/
section
namespace Sys2Proof.Machine

/-- The parts of a flat form have the lengths and the values that both forms ask for (44 R198, 45 R221). -/
theorem splitFlat_bounds {kb : Nat} {f : Bytes} (hlen : 2 * kb + 1 + 32 ≤ f.length) :
    (splitFlat kb f).c1.x < 2 ^ (8 * kb) ∧ (splitFlat kb f).c1.y < 2 ^ (8 * kb) ∧ (splitFlat kb f).c3.length = 32
      ∧ (splitFlat kb f).c2.length ≤ f.length := by
  have hcoord (i : Nat) : intOf (slice f i kb) < 2 ^ (8 * kb) := by
    refine (intOf_lt _).trans_le ?_
    rw [two_pow_eight_mul]
    exact Nat.pow_le_pow_right (by omega) (by simp)
  refine ⟨hcoord 1, hcoord (1 + kb), ?_, ?_⟩
  · simp only [splitFlat, Config.c3Len, List.length_drop]
    omega
  · simp only [splitFlat, length_slice]
    omega

/-- A flat form is joined from its parts (45 R227). -/
theorem flatBytes_splitFlat {kb : Nat} {f : Bytes} (hf : byteAt f 0 = 0x04) (hlen : 2 * kb + 1 + 32 ≤ f.length) :
    flatBytes kb (splitFlat kb f) = f := by
  let m := f.length - (2 * kb + 1) - Config.c3Len
  have hX : fix (intOf (slice f 1 kb)) kb = slice f 1 kb := fix_intOf (by rw [length_slice]; omega)
  have hY : fix (intOf (slice f (1 + kb) kb)) kb = slice f (1 + kb) kb := fix_intOf (by rw [length_slice]; omega)
  have h0 : [(0x04 : Byte)] = slice f 0 1 := by rw [slice_one (by omega), hf]
  have hc1 : pointBytes kb (splitFlat kb f).c1 = slice f 0 (1 + (kb + kb)) := by
    rw [slice_add, slice_add, ← h0, Nat.zero_add]
    simp only [pointBytes, splitFlat, hX, hY, List.singleton_append]
  calc flatBytes kb (splitFlat kb f)
      = slice f 0 (2 * kb + 1) ++ slice f (2 * kb + 1) m ++ f.drop (2 * kb + 1 + m) := by
        rw [flatBytes, hc1, show 1 + (kb + kb) = 2 * kb + 1 by omega]
        rfl
    _ = f.take (2 * kb + 1 + m) ++ f.drop (2 * kb + 1 + m) := by
        have h := slice_add f 0 (2 * kb + 1) m
        rw [Nat.zero_add] at h
        rw [← h, slice, List.drop_zero]
    _ = f := List.take_append_drop _ _

/-- The parser gives back the parts of a flat form that the encoder was given (45 R227). -/
theorem parseCt_derCt_splitFlat {kb : Nat} {f : Bytes} (hlen : 2 * kb + 1 + 32 ≤ f.length) (hmax : f.length ≤ 2 ^ 20) :
    parseCt kb (derCt (splitFlat kb f)) = some (splitFlat kb f) := by
  obtain ⟨hx, hy, hc3, hc2⟩ := splitFlat_bounds hlen
  exact (parseCt_iff_of_le (by omega) (hc2.trans hmax)).2 ⟨rfl, hx, hy, hc3⟩

/-- With a structured form in `MSGBUF` whose flat form fits, `DER_DEC_CT` delivers that (45 R226). -/
theorem exec_derDecCt_delivers {s : State} {ct : Ciphertext} (hs : s.seq = .check) (hp : Prechecked .derDecCt s)
    (hparse : parseCt s.keyBytes s.message = some ct) (hfit : (flatBytes s.keyBytes ct).length ≤ s.cfg.outCap) :
    exec .derDecCt s = .next (Delivered (flatBytes s.keyBytes ct) s) := by
  have hrun := (derCiphertextCommands s hs).2 hp
  simp only [hparse] at hrun
  rwa [if_neg (Nat.not_lt.2 hfit)] at hrun

/-- A `DER_ENC_CT` that ends without an error has delivered the structured form of a flat form (45 R225). -/
theorem delivered_of_derEncCt {s t : State} (hs : s.seq = .check) (he : exec .derEncCt s = .next t)
    (herr : t.err = false) :
    Prechecked .derEncCt s ∧ byteAt s.message 0 = 0x04 ∧ (derCt s.flatInput).length ≤ s.cfg.outCap
      ∧ t = Delivered (derCt s.flatInput) s := by
  have hp := prechecked_of_err_eq_false hs he herr
  have ht := exec_next_injective he ((derCiphertextCommands s hs).1 hp)
  split at ht
  case isTrue => subst ht; cases herr
  case isFalse hfirst =>
    split at ht
    case isTrue => subst ht; cases herr
    case isFalse hfit => exact ⟨hp, not_not.1 hfirst, Nat.le_of_not_lt hfit, ht⟩

/-! The output of a command, as the host finds it (10 R32). -/

theorem wf_mem_delivered {s : State} {d : Bytes} (hm : Memory.wf s.mem = true) : Memory.wf (Delivered d s).mem = true :=
  Memory.wf_memSetBytes hm _ _

theorem wf_mem_outputAsMessage {t : State} (hm : Memory.wf t.mem = true) : Memory.wf (outputAsMessage t).mem = true :=
  Memory.wf_memSetBytes hm _ _

section
variable {s : State} {d : Bytes} (hc : s.cfg.sized = true) (hd : d.length ≤ s.cfg.outCap)
include hc hd

theorem toNat_olen_delivered : (Delivered d s).olen.toNat = d.length := toNat_ofNat_of_le_outCap hc hd

variable (hm : Memory.wf s.mem = true)
include hm

theorem memRead_delivered : memRead .out 0 (Delivered d s).olen.toNat (Delivered d s) = d :=
  memGetBytes_output hm rfl (toNat_olen_delivered hc hd)

theorem message_outputAsMessage_delivered : (outputAsMessage (Delivered d s)).message = d :=
  message_outputAsMessage hm rfl (toNat_olen_delivered hc hd)

end

@[simp] theorem issue_message (w : Word) (s : State) : (issue w s).message = s.message := rfl

/-- `DER_DEC_CT` issued on the output of `DER_ENC_CT`, copied to `MSGBUF` (45 R227). -/
def derDecCtInput (s : State) : State := issue (encode .derDecCt) (outputAsMessage (Delivered (derCt s.flatInput) s))

theorem wf_mem_derDecCtInput {s : State} (hm : Memory.wf s.mem = true) : Memory.wf (derDecCtInput s).mem = true := by
  rw [derDecCtInput, issue_mem]
  exact wf_mem_outputAsMessage (wf_mem_delivered hm)

section
variable {s : State} (hc : s.cfg.sized = true) (hm : Memory.wf s.mem = true) (hp : Prechecked .derEncCt s)
  (hfit : (derCt s.flatInput).length ≤ s.cfg.outCap)
include hc hm hp hfit

/-- `DER_DEC_CT` reads back the parts of the flat form (45 R221, R227). -/
theorem parseCt_derDecCtInput : parseCt s.keyBytes (derDecCtInput s).message = some s.flatInput := by
  obtain ⟨-, ⟨-, hmsg, -⟩, -, ⟨hlong, -⟩, -⟩ := hp
  obtain ⟨-, hcap, -⟩ := cap_le s.cfg hc .msg
  have hmax : s.mlen.toNat ≤ 2 ^ 20 := (hmsg rfl).trans hcap
  have hback := message_outputAsMessage_delivered hc hfit hm
  rw [derDecCtInput, issue_message, hback]
  exact parseCt_derCt_splitFlat ((hlong (.inr rfl)).trans_eq (length_message s).symm) ((length_message s).trans_le hmax)

/-- `DER_DEC_CT` delivers the flat form that `DER_ENC_CT` read, when each form fits its buffer (45 R226, R227). -/
theorem exec_derDecCtInput (hfirst : byteAt s.message 0 = 0x04)
    (hin : (Delivered (derCt s.flatInput) s).olen.toNat ≤ s.cfg.msgCap) (hout : s.message.length ≤ s.cfg.outCap) :
    exec .derDecCt (derDecCtInput s) = .next (Delivered s.message (derDecCtInput s)) := by
  have hparse := parseCt_derDecCtInput hc hm hp hfit
  obtain ⟨-, -, hready, ⟨hlong, -⟩, -⟩ := hp
  have hflat : flatBytes s.keyBytes s.flatInput = s.message :=
    flatBytes_splitFlat hfirst ((hlong (.inr rfl)).trans_eq (length_message s).symm)
  rw [← hflat] at hout ⊢
  exact exec_derDecCt_delivers rfl (prechecked_derDecCt hin (hready rfl)) hparse hout

end

/-- Settles O55: the first parts by the two forms, the commands by `exec_derDecCtInput`. -/
theorem ciphertextFormIsCanonical : Obligations.CiphertextFormIsCanonical := by
  refine ⟨fun kb b ct hkb hc2 => parseCt_iff_of_le hkb hc2,
    fun kb f hf hlen hmax => ⟨flatBytes_splitFlat hf hlen, parseCt_derCt_splitFlat hlen hmax⟩,
    fun kb ct => splitFlat_flatBytes, ?_⟩
  intro s t hs _ hc hm he herr hin hout
  obtain ⟨hp, hfirst, hfit, rfl⟩ := delivered_of_derEncCt hs he herr
  rw [← length_message] at hout
  exact ⟨_, exec_derDecCtInput hc hm hp hfit hfirst hin hout, rfl, rfl,
    memRead_delivered (s := derDecCtInput s) hc hout (wf_mem_derDecCtInput hm)⟩

end Sys2Proof.Machine
end

/-! SUPPORT. The key byte forms (46 R240): the coordinates stand where they are read, and a string of the form's length
is rebuilt from what is read (46 R244). -/
section
namespace Sys2Proof.Machine

/-- The coordinates of a point are read back from behind any `s` (46 R243, R244). -/
theorem pointAt_append_fix {kb : Nat} {q : Point} (s : Bytes) (hx : q.x < 2 ^ (8 * kb)) (hy : q.y < 2 ^ (8 * kb)) :
    pointAt kb (s ++ (fix q.x kb ++ fix q.y kb)) s.length = q := by
  have hX := slice_append_middle (u := fix q.y kb) (Eq.refl s.length) (length_fix q.x kb)
  have hY := slice_append_middle (s := s ++ fix q.x kb) (u := []) (i := s.length + kb) (by simp) (length_fix q.y kb)
  rw [List.append_assoc] at hX
  rw [List.append_nil, List.append_assoc] at hY
  rw [pointAt, hX, hY, intOf_fix_of_lt hx, intOf_fix_of_lt hy]

/-- A field that lies within the string is the encoding of its value (46 R244). -/
theorem fix_intOf_slice {kb i : Nat} {b : Bytes} (h : i + kb ≤ b.length) :
    fix (intOf (slice b i kb)) kb = slice b i kb :=
  fix_intOf (by rw [length_slice]; omega)

/-- The two coordinates rebuild the bytes they were read from (46 R244). -/
theorem fix_append_fix_pointAt {kb i : Nat} {b : Bytes} (h : i + (kb + kb) ≤ b.length) :
    fix (pointAt kb b i).x kb ++ fix (pointAt kb b i).y kb = slice b i (kb + kb) := by
  rw [slice_add, pointAt, fix_intOf_slice (by omega), fix_intOf_slice (by omega)]

theorem slice_zero_of_length {b : Bytes} {n : Nat} (h : b.length = n) : slice b 0 n = b := by
  rw [slice, List.drop_zero, ← h, List.take_length]

/-- An uncompressed point is rebuilt from the coordinates read after its first byte (46 R244). -/
theorem pointBytes_pointAt {kb : Nat} {b : Bytes} (hlen : b.length = 2 * kb + 1) (hfirst : byteAt b 0 = 0x04) :
    pointBytes kb (pointAt kb b 1) = b := by
  have hcoords := fix_append_fix_pointAt (b := b) (kb := kb) (i := 1) (by omega)
  calc pointBytes kb (pointAt kb b 1)
      = 0x04 :: slice b 1 (kb + kb) := by rw [pointBytes, hcoords]
    _ = slice b 0 (kb + kb + 1) := ((slice_cons_iff (by rw [length_slice]; omega)).2 ⟨by omega, hfirst, rfl⟩).symm
    _ = b := slice_zero_of_length (by omega)

/-- Settles O56: the encoded registers by `pointAt_append_fix`, the strings by `fix_append_fix_pointAt`. -/
theorem keyFormsRoundTrip : Obligations.KeyFormsRoundTrip := by
  refine ⟨fun s hd hx hy => ⟨rfl, pointAt_append_fix [0x04] hx hy, pointAt_append_fix (q := s.pubKey) [] hx hy, ?_,
      fun f => length_keyFormBytes f s⟩, fun kb b => ⟨pointBytes_pointAt, fun hlen => ?_, fun hlen => ?_⟩⟩
  · rw [keyFormBytes, slice_zero_of_length (length_fix _ _), intOf_fix_of_lt hd]
  · rw [fix_append_fix_pointAt (by omega), slice_zero_of_length (by omega)]
  · rw [slice_zero_of_length hlen, fix_intOf hlen]

end Sys2Proof.Machine
end

/-! SUPPORT. The run state `KEY_RUN` of the six commands (46 R242, R243), each from the state it is entered with. -/
section
namespace Sys2Proof.Machine

/-- `KEY_RUN` of `KEY_ENC` delivers the bytes of the form (46 R242). -/
theorem keyEncRun_enterRun (f : KeyForm) (i : Instr) (s : State) :
    keyEncRun f (enterRun i s) = Delivered (keyFormBytes f s) s := by
  cases f <;> rfl

/-- A command whose pre-checks and run state are those of `KEY_ENC`, with an output that fits (46 R242). -/
theorem exec_keyEnc {i : Instr} {f : KeyForm} {s : State} (hs : s.seq = .check) (hpath : path i = [.keyRun])
    (hbody : body i = singleState .keyRun (keyEncRun f)) (hchecks : checks i s = [domokCheck s, formFitCheck f s])
    (hdom : s.domok = true) (hfit : f.length s.keyBytes ≤ s.cfg.outCap) :
    exec i s = .next (Delivered (keyFormBytes f s) s) := by
  have hp : Prechecked i s := by
    rw [← firstFailing_checks_eq_none_iff, hchecks, firstFailing_eq_none_iff]
    simp [domokCheck, formFitCheck, hdom, hfit]
  exact exec_singleState_eq hs hp hpath hbody (keyEncRun_enterRun f i s) rfl

/-- Settles O47, by `exec_keyEnc` for each form. -/
theorem keyEncodeCommands : Obligations.KeyEncodeCommands :=
  fun _ hs hdom => ⟨exec_keyEnc (f := .pub) hs rfl rfl rfl hdom, exec_keyEnc (f := .raw) hs rfl rfl rfl hdom,
    exec_keyEnc (f := .priv) hs rfl rfl rfl hdom⟩

/-- A field of `KeyBytes` bytes fits an operand register that is wide enough for the domain (10 R36). -/
theorem intOf_slice_lt {kb n : Nat} (h : 8 * kb ≤ n) (b : Bytes) (i : Nat) : intOf (slice b i kb) < 2 ^ n := by
  calc intOf (slice b i kb)
      < 256 ^ (slice b i kb).length := intOf_lt _
    _ ≤ 256 ^ kb := Nat.pow_le_pow_right (by omega) (by simp)
    _ = 2 ^ (8 * kb) := (two_pow_eight_mul kb).symm
    _ ≤ 2 ^ n := Nat.pow_le_pow_right (by omega) h

/-- The coordinates are loaded whole when the registers are wide enough (46 R243). -/
theorem complete_setPubKey_pointAt {kb : Nat} {s : State} (h : 8 * kb ≤ s.cfg.opBits) (b : Bytes) (i : Nat) :
    complete (setPubKey (pointAt kb b i) s) =
      { Finished s with
        regs := { s.regs with keyQx := intOf (slice b i kb), keyQy := intOf (slice b (i + kb) kb) } } := by
  simp only [complete, finish, Finished, setPubKey, setReg, OperandRegs.put, pointAt,
    Nat.mod_eq_of_lt (intOf_slice_lt h b _)]

/-- `KEY_DEC.PUB`, by its first byte (46 R243, 60 R256). -/
theorem keyDecPubRun_enterRun {s : State} (h : 8 * s.keyBytes ≤ s.cfg.opBits) :
    keyDecPubRun (enterRun .keyDecPub s) =
      if byteAt s.message 0 ≠ 0x04 then { Failed .encoding s with regs := { s.regs with keyQx := 0, keyQy := 0 } }
      else { Finished s with
        regs := { s.regs with
          keyQx := intOf (slice s.message 1 s.keyBytes)
          keyQy := intOf (slice s.message (1 + s.keyBytes) s.keyBytes) } } := by
  have herr : raise (destinations .keyDecPub) .encoding (enterRun .keyDecPub s)
      = { Failed .encoding s with regs := { s.regs with keyQx := 0, keyQy := 0 } } := by
    rw [raise_eq, if_neg (by simp [path])]
    simp [destinations, clearRegs, OperandRegs.put, Failed, Finished]
  have hload := complete_setPubKey_pointAt (s := enterRun .keyDecPub s) h s.message 1
  rw [keyDecPubRun]
  exact if_congr Iff.rfl herr hload

/-- The private key is loaded whole when its register is wide enough (46 R243). -/
theorem keyDecPrivRun_eq {s : State} (h : 8 * s.keyBytes ≤ s.cfg.opBits) :
    keyDecPrivRun s = { Finished s with regs := { s.regs with keyD := intOf (slice s.message 0 s.keyBytes) } } := by
  simp only [keyDecPrivRun, complete, finish, Finished, setReg, OperandRegs.put,
    Nat.mod_eq_of_lt (intOf_slice_lt h _ _)]

/-- The pre-checks of `KEY_DEC` pass for a message of the form's length (46 R243). -/
theorem prechecked_keyDec {i : Instr} {f : KeyForm} {s : State}
    (hchecks : checks i s = [mlenCheck s, domokCheck s, formLenCheck f s]) (hdom : s.domok = true)
    (hcap : s.mlen.toNat ≤ s.cfg.msgCap) (hlen : s.mlen.toNat = f.length s.keyBytes) : Prechecked i s := by
  rw [← firstFailing_checks_eq_none_iff, hchecks, firstFailing_eq_none_iff]
  simp [mlenCheck, domokCheck, formLenCheck, hdom, ← hlen, hcap]

/-- Settles O48, by the run state of each command. -/
theorem keyDecodeCommands : Obligations.KeyDecodeCommands := by
  refine fun s hs hdom hcap hw => ⟨fun hlen => ?_, fun hlen => ?_, fun hlen => ?_⟩
  · have hp : Prechecked .keyDecPub s := prechecked_keyDec (f := .pub) rfl hdom hcap hlen
    refine exec_singleState_eq hs hp rfl rfl (keyDecPubRun_enterRun hw) ?_
    split <;> rfl
  · have hp : Prechecked .keyDecRaw s := prechecked_keyDec (f := .raw) rfl hdom hcap hlen
    have hrun := complete_setPubKey_pointAt (s := enterRun .keyDecRaw s) hw s.message 0
    rw [Nat.zero_add] at hrun
    exact exec_singleState_eq hs hp rfl rfl hrun rfl
  · have hp : Prechecked .keyDecPriv s := prechecked_keyDec (f := .priv) rfl hdom hcap hlen
    exact exec_singleState_eq hs hp rfl rfl (keyDecPrivRun_eq (s := enterRun .keyDecPriv s) hw) rfl

end Sys2Proof.Machine
end

/-! SUPPORT. What a run can come to, said once: it moves along the path of its command, and at most its last turn does
more than move (30 R84). -/
section
namespace Sys2Proof.Machine

/-- What a run from `s` can have come to: it stands where moves along the path have brought it, or one more turn from there
has ended the command. `P` is what is known of the state where the moves end. -/
inductive RunCases (i : Instr) (P : State → Prop) (s : State) : State → Prop where
  | stands (q : Seq) (m : Temps) (h : HashCtx) (r : List RngAnswer) (hP : P (inFlight q m h r s)) :
      RunCases i P s (inFlight q m h r s)
  | ended (q : Seq) (m : Temps) (h : HashCtx) (r : List RngAnswer) (hP : P (inFlight q m h r s)) (t : State)
      (ht : turn i (inFlight q m h r s) = some t) (hidle : t.seq = .idle) : RunCases i P s t

/-- The inversion of a run: at most its last turn does more than move. What every turn keeps holds where the moves end. -/
theorem exec_cases {i : Instr} {P : State → Prop} {s t : State} (hP : ∀ u u', P u → turn i u = some u' → P u')
    (hs : P s) (he : exec i s = .next t) : RunCases i P s t := by
  refine exec_keeps (P := RunCases i P s) (fun x x' hx ht => ?_) (.stands s.seq s.tmp s.hi s.rng hs) he
  cases hx with
  | stands q m h r hx =>
    have hx' := hP _ _ hx ht
    cases turn_cases ht with
    | moved q' m' h' r' => exact .stands q' m' h' r' hx'
    | failed => exact .ended q m h r hx _ ht (raise_seq _ _ _)
    | ended => exact .ended q m h r hx _ ht (complete_seq _)
  | ended _ _ _ _ _ _ _ hidle => exact absurd hidle (turn_ne_idle ht)

/-- The same with nothing known of the state where the moves end. -/
theorem exec_cases_true {i : Instr} {s t : State} (he : exec i s = .next t) : RunCases i (fun _ => True) s t :=
  exec_cases (fun _ _ _ _ => trivial) trivial he

end Sys2Proof.Machine
end

/-! SUPPORT. The frame of a command: what each of its turns, and so its run, leaves as it was (60 R257, 10 R35, R36, R41). -/
section
namespace Sys2Proof.Machine

/-- What command `i` may have changed from `s` to `t`: the fields named in `frame`, of those the registers it writes, the
context it names, `OUTBUF` with `OLEN`, and `DOMOK` by `DOM_CHECK` only. -/
structure Framed (i : Instr) (s t : State) : Prop where
  frame : t = { s with
    regs := t.regs, hc := t.hc, mem := t.mem, olen := t.olen, result := t.result, domok := t.domok, done := t.done
    err := t.err, errcode := t.errcode, errlog := t.errlog, tmp := t.tmp, hi := t.hi, seq := t.seq, rng := t.rng }
  regs : ∀ r, r ∉ writes i → t.regs.get r = s.regs.get r
  hc : t.hc = s.hc ∨ ∃ c x, writesCtx i = some c ∧ t.hc = s.hc.set c.toNat x
  mem : t.mem = s.mem ∨ ∃ d, t.mem = memSetBytes s.mem Buf.out.base d
  domok : i ≠ .domCheck → t.domok = s.domok

theorem Framed.ofInFlight (i : Instr) (q : Seq) (m : Temps) (h : HashCtx) (r : List RngAnswer) (s : State) :
    Framed i s (inFlight q m h r s) :=
  ⟨rfl, fun _ _ => rfl, .inl rfl, .inl rfl, fun _ => rfl⟩

/-- The registers that an error clears are among those the command writes (60 R256, 10 R36). -/
theorem destinations_subset_writes (i : Instr) : destinations i ⊆ writes i := by
  cases i <;> simp [destinations, writes]

theorem raise_regs_get_of_notMem {ds : List OpReg} (k : ErrKind) (s : State) {r : OpReg} (hr : r ∉ ds) :
    (raise ds k s).regs.get r = s.regs.get r := by
  rw [raise_regs]
  split
  · rfl
  · rw [clearRegs_get, if_neg hr]

/-- Past `CHECK` an error leaves the destination registers 0 and the others as they were (60 R256 step 1). -/
theorem raise_regs_get {ds : List OpReg} (k : ErrKind) {s : State} (hs : s.seq ≠ .check) (r : OpReg) :
    (raise ds k s).regs.get r = if r ∈ ds then 0 else s.regs.get r := by
  rw [raise_regs, if_neg hs, clearRegs_get]

theorem Framed.ofTurn {i : Instr} {s t : State} (h : turn i s = some t) : Framed i s t := by
  cases turn_cases h with
  | moved => exact .ofInFlight i _ _ _ _ s
  | failed k m x r d _ hd =>
    exact {
      frame := by rw [raise_eq]
      regs := fun _ hr => raise_regs_get_of_notMem k _ fun hm => hr (destinations_subset_writes i hm)
      hc := .inl (raise_hc _ _ _)
      mem := .inl (raise_mem _ _ _)
      domok := fun hi => (raise_domok _ _ _).trans (hd.resolve_right fun hdom => hi hdom.1) }
  | ended s1 he =>
    exact {
      frame := by
        have hframe : complete s1 = complete { s with
            regs := s1.regs, hc := s1.hc, mem := s1.mem, olen := s1.olen, result := s1.result, domok := s1.domok
            tmp := s1.tmp, hi := s1.hi, seq := s1.seq } := congrArg complete he.frame
        rw [hframe]
        rfl
      regs := fun r hr => (he.regs r).resolve_right fun hw => hr hw.1
      hc := he.hc.imp_right fun ⟨c, x, hc, hx, _⟩ => ⟨c, x, hc, hx⟩
      mem := he.mem.imp And.left fun ⟨d, hd, _⟩ => ⟨d, hd⟩
      domok := he.domok }

/-- Only the last turn of a run does more than move, so a run has the frame of a turn. -/
theorem exec_framed {i : Instr} {s t : State} (he : exec i s = .next t) : Framed i s t := by
  cases exec_cases_true he with
  | stands => exact .ofInFlight i _ _ _ _ s
  | ended _ _ _ _ _ _ ht =>
    obtain ⟨hframe, hregs, hhc, hmem, hdomok⟩ := Framed.ofTurn ht
    exact ⟨hframe, hregs, hhc, hmem, hdomok⟩

theorem Framed.hc_length {i : Instr} {s t : State} (h : Framed i s t) : t.hc.length = s.hc.length := by
  rcases h.hc with hc | ⟨c, x, -, hc⟩ <;> rw [hc]
  exact List.length_set

/-- A context that the command does not name stays (10 R35). -/
theorem Framed.hc_getElem? {i : Instr} {s t : State} (h : Framed i s t) {n : Nat}
    (hn : ∀ c, writesCtx i = some c → n ≠ c.toNat) : t.hc[n]? = s.hc[n]? := by
  rcases h.hc with hc | ⟨c, x, hw, hc⟩ <;> rw [hc]
  exact List.getElem?_set_ne (hn c hw).symm

/-- An output leaves every byte outside it as it was (20 R74). -/
theorem memGet_memSetBytes_outbuf {m : List Host.Cell} (hm : Memory.wf m = true) {d : Bytes} {y : Nat}
    (hy : y < 0x200000 ∨ 0x200000 + d.length ≤ y) : memGet (memSetBytes m Buf.out.base d) y = memGet m y := by
  have hbase : Buf.out.base = 0x200000 := rfl
  rw [memGet_memSetBytes hm, if_neg (by omega)]

/-- No byte below `OUTBUF` changes (10 R41). -/
theorem Framed.memGet_below {i : Instr} {s t : State} (h : Framed i s t) (hm : Memory.wf s.mem = true) {y : Nat}
    (hy : y < 0x200000) : memGet t.mem y = memGet s.mem y := by
  rcases h.mem with hmem | ⟨d, hmem⟩ <;> rw [hmem]
  exact memGet_memSetBytes_outbuf hm (.inl hy)

end Sys2Proof.Machine
end

/-! SUPPORT. A command without output leaves memory and `OLEN` alone, and one without a verdict leaves `RESULT` (10 R24, R32,
R41). -/
section
namespace Sys2Proof.Machine

theorem turn_noOutput {i : Instr} {s s' : State} (hi : makesOutput i = false) (h : turn i s = some s') :
    s'.mem = s.mem ∧ s'.olen = s.olen := by
  rcases turn_seq_cases h with ⟨k, rfl⟩ | ⟨-, rfl⟩ | rfl | ⟨-, hb⟩
  · exact ⟨raise_mem _ _ _, raise_olen _ _ _⟩
  · exact ⟨rfl, rfl⟩
  · exact ⟨rfl, rfl⟩
  · exact body_noOutput hi hb

theorem exec_noOutput {i : Instr} {s t : State} (hi : makesOutput i = false) (he : exec i s = .next t) :
    t.mem = s.mem ∧ t.olen = s.olen :=
  exec_keeps (P := fun u => u.mem = s.mem ∧ u.olen = s.olen)
    (fun _ _ ⟨hmem, holen⟩ ht =>
      have ⟨hmem', holen'⟩ := turn_noOutput hi ht
      ⟨hmem'.trans hmem, holen'.trans holen⟩)
    ⟨rfl, rfl⟩ he

theorem drawScalar_result {i : Instr} {use : Nat → State → State} {s s' : State} (h : drawScalar i use s = some s')
    (huse : ∀ d u, (use d u).result = u.result) : s'.result = s.result := by
  obtain ⟨rest, u, rfl, rfl | rfl | ⟨d, rfl⟩⟩ := drawScalar_next h
  · exact raise_result _ _ _
  · rfl
  · exact huse d _

theorem singleState_result {q : Seq} {act : State → State} {s s' : State} (h : singleState q act s = some s')
    (ha : (act s).result = s.result) : s'.result = s.result := by
  obtain ⟨_, rfl⟩ := singleState_cases h
  exact ha

theorem outputOrParam_result (i : Instr) (d : Bytes) (s : State) : (outputOrParam i d s).result = s.result := by
  unfold outputOrParam
  split
  · exact raise_result _ _ _
  · rfl

theorem keygenBody_result {s s' : State} (h : keygenBody s = some s') : s'.result = s.result := by
  unfold keygenBody at h
  split at h
  · exact drawScalar_result h fun _ _ => rfl
  · cases h; simp [kgPub]
  · cases h

theorem signStates_result {i : Instr} {u : Bool} {s s' : State} (h : signStates i u s = some s') :
    s'.result = s.result := by
  unfold signStates at h
  split at h
  · cases h; simp [sgPub]
  · cases h; simp [sgZ, computeZ]
  · cases h; simp [sgE, computeE]
  · exact drawScalar_result h fun _ _ => rfl
  · cases h; simp [sgPoint]
  · cases h; simp [sgR]
  · cases h; simp [sgS]
  · cases h; simp [sgOut]
  · cases h

theorem encryptBody_result {s s' : State} (h : encryptBody s = some s') : s'.result = s.result := by
  unfold encryptBody at h
  split at h
  · exact drawScalar_result h fun _ _ => rfl
  · cases h; simp [enPoint]
  · cases h; simp [enKdf]
  · cases h; simp [enTag]
  · cases h; simp [enOut]
  · cases h

theorem decryptBody_result {s s' : State} (h : decryptBody s = some s') : s'.result = s.result := by
  unfold decryptBody at h
  split at h <;> cases h
  · unfold deParse
    split <;> simp
  · unfold deCof
    split <;> simp
  · simp [deShare]
  · simp [deKdf]
  · unfold deTag
    dsimp only
    split <;> simp
  · simp [deOut]

theorem body_result {i : Instr} {s s' : State} (hi : writesResult i = false) (h : body i s = some s') :
    s'.result = s.result := by
  cases i with
  | domCheck => cases hi
  | verify => cases hi
  | verifyU => cases hi
  | keygen => exact keygenBody_result h
  | sign => exact signStates_result h
  | signU => exact signStates_result h
  | encrypt => exact encryptBody_result h
  | decrypt => exact decryptBody_result h
  | derEncSig => exact singleState_result h (outputOrParam_result _ _ _)
  | derDecSig => exact singleState_result h (by unfold derDecSigRun; split <;> simp)
  | derEncCt => exact singleState_result h (by unfold derEncCtRun; split <;> simp [outputOrParam_result])
  | derDecCt => exact singleState_result h (by unfold derDecCtRun; split <;> simp [outputOrParam_result])
  | keyDecPub => exact singleState_result h (by unfold keyDecPubRun; split <;> simp)
  | hFinal c => exact singleState_result h (by simp [hFinalRun])
  | hDigest c => exact singleState_result h (by simp [hDigestRun])
  | _ => exact singleState_result h rfl

theorem turn_result {i : Instr} {s s' : State} (hi : writesResult i = false) (h : turn i s = some s') :
    s'.result = s.result := by
  rcases turn_seq_cases h with ⟨k, rfl⟩ | ⟨-, rfl⟩ | rfl | ⟨-, hb⟩
  · exact raise_result _ _ _
  · rfl
  · rfl
  · exact body_result hi hb

theorem exec_result {i : Instr} {s t : State} (hi : writesResult i = false) (he : exec i s = .next t) :
    t.result = s.result :=
  exec_keeps (P := fun u => u.result = s.result) (fun _ _ hu ht => (turn_result hi ht).trans hu) rfl he

end Sys2Proof.Machine
end

/-! SUPPORT. The output of a whole run fits `OUTBUF`, so every byte outside `OUTBUF[0..OLEN)` stays (20 R74, 60 R260). -/
section
namespace Sys2Proof.Machine

/-- What a run of command `i` keeps of the invariant of a command in flight. -/
structure OnCourse (i : Instr) (s : State) : Prop where
  owns : owns i s.seq = true
  checked : s.seq ∈ path i → Prechecked i s
  workingCopy : WorkingCopy s

/-- While a command moves along its path nothing that its pre-checks read changes (20 R70). -/
theorem OnCourse.turn {i : Instr} {s s' : State} (h : OnCourse i s) (ht : turn i s = some s') : OnCourse i s' where
  owns := turn_owns ht
  checked hs' := by
    have hp : Prechecked i s := prechecked_of_turn h.owns h.checked ht hs'
    cases turn_cases ht with
    | moved => exact hp
    | failed => exact absurd (raise_seq _ _ _ ▸ hs') (idle_notMem_path i)
    | ended s1 => exact absurd hs' (idle_notMem_path i)
  workingCopy := turn_workingCopy ht h.workingCopy

theorem OnCourse.exec_outputWithin {i : Instr} {s t : State} (h : OnCourse i s) (hc : s.cfg.sized = true)
    (he : exec i s = .next t) : OutputWithin s t := by
  cases exec_cases (fun _ _ => OnCourse.turn) h he with
  | stands => exact .inl ⟨rfl, rfl⟩
  | ended q m x r hu _ ht =>
    exact OutputWithin.ofTurn (s := inFlight q m x r s) hc hu.owns hu.checked hu.workingCopy ht

theorem OutputWithin.memGet_outside {s t : State} (h : OutputWithin s t) (hc : s.cfg.sized = true)
    (hm : Memory.wf s.mem = true) {y : Nat} (hy : y < 0x200000 ∨ 0x200000 + t.olen.toNat ≤ y) :
    memGet t.mem y = memGet s.mem y := by
  rcases h with ⟨hmem, -⟩ | ⟨d, hd, hmem, holen⟩
  · rw [hmem]
  · have hcap : s.cfg.outCap ≤ 2 ^ 20 := (cap_le s.cfg hc .out).2.1
    have hlen : t.olen.toNat = d.length := by
      rw [holen, BitVec.toNat_ofNat]
      exact Nat.mod_eq_of_lt (by omega)
    rw [hmem]
    exact memGet_memSetBytes_outbuf hm (hlen ▸ hy)

/-- Settles O30: a run has the frame of its last turn; without output, and without a verdict, every turn leaves the field. -/
theorem commandFrame : Obligations.CommandFrame := by
  intro i s t he
  have hf := exec_framed he
  iterate 11 refine ⟨by rw [hf.frame], ?_⟩
  refine ⟨hf.regs, hf.hc_length, fun _ => hf.hc_getElem?, fun hi => exec_noOutput hi he,
    fun hm _ => hf.memGet_below hm, fun hm hc hd hflight _ hy => ?_, hf.domok, fun hi => exec_result hi he⟩
  have hcourse : OnCourse i s := ⟨(exec_next_iff.1 he).1, hflight.checked i hd, hflight.workingCopy⟩
  exact (hcourse.exec_outputWithin hc he).memGet_outside hc hm hy

end Sys2Proof.Machine
end

/-! SUPPORT. A run that fails past `CHECK` (60 R256). -/
section
namespace Sys2Proof.Machine

/-- A command whose pre-checks pass does not end in `CHECK`. -/
theorem seq_ne_check_of_turn_idle {i : Instr} {s t : State} (hp : Prechecked i s) (ht : turn i s = some t)
    (hidle : t.seq = .idle) : s.seq ≠ .check := by
  intro hs
  rw [turn_check hs, (firstFailing_checks_eq_none_iff i s).2 hp] at ht
  cases ht
  exact idle_notMem_path i (hidle ▸ headD_mem_path i)

/-- A turn that finds no error and leaves one is the error entry, on the state it started from but for what is hidden and
the verdict. -/
theorem turn_of_err {i : Instr} {s t : State} (ht : turn i s = some t) (hs : s.err = false) (herr : t.err = true) :
    ∃ k m h r d b,
      t = raise (destinations i) k { s with tmp := m, hi := h, rng := r, domok := d, result := b } := by
  cases turn_cases ht with
  | moved => exact absurd (hs.symm.trans herr) Bool.false_ne_true
  | failed k m h r d _ _ b => exact ⟨k, m, h, r, d, b, rfl⟩
  | ended s1 he =>
    rw [complete_err, he.frame] at herr
    exact absurd (hs.symm.trans herr) Bool.false_ne_true

/-- Settles O32: the turn that ends the run is the error entry, past `CHECK` since the pre-checks pass there. -/
theorem failedRunZeroesItsDestinations : Obligations.FailedRunZeroesItsDestinations := by
  intro i s t _ hp hs he herr
  cases exec_cases_true he with
  | stands => exact absurd (hs.symm.trans herr) Bool.false_ne_true
  | ended q m h r _ _ ht hidle =>
    have hq : q ≠ .check := seq_ne_check_of_turn_idle (s := inFlight q m h r s) hp ht hidle
    obtain ⟨k, _, _, _, _, _, rfl⟩ := turn_of_err ht hs herr
    exact ⟨raise_regs_get k hq, raise_mem _ _ _, raise_olen _ _ _, raise_hc _ _ _, raise_seq _ _ _, raise_done _ _ _,
      raise_tmp _ _ _, raise_hi _ _ _, k, raise_errcode _ _ _, raise_errlog _ _ _⟩

end Sys2Proof.Machine
end

/-! SUPPORT. The pre-checks by the classes of 60 R260, and the error that the first to fail ends the command with. -/
section
namespace Sys2Proof.Machine

/-- The error of the first class of 60 R260 that fails; class (a) is decoding (60 R255). -/
def firstFailingClass (i : Instr) (s : State) : Option ErrKind :=
  if lengthsFit i s then
    if domainReady i s then
      if inputFormFits i s then
        if outputFits i s ∧ keyInRange i s then none else some .param
      else some .encoding
    else some .domain
  else some .param

/-- The checks of a command come in the order of the classes, and a class of several tests fails at the first of them that
does. `KDF` has its class (c) by the mode, and `ENCRYPT` its tests of class (b) in an order of its own. -/
theorem firstFailing_checks {i : Instr} {s : State} (hw : i.WellFormed s.cfg.nctx = true) :
    firstFailing (checks i s) = firstFailingClass i s := by
  cases i with
  | kdf =>
    cases hc : s.cfg.coordSer <;>
      simp [checks, firstFailing, klenCheck, kdfDomokCheck, firstFailingClass, lengthsFit, domainReady, inputFormFits,
        outputFits, keyInRange, readsMessage, needsDomain, hc]
  | encrypt =>
    simp only [checks, firstFailing, mlenNonzeroCheck, mlenCheck, domokCheck, encryptFitCheck, decide_eq_true_eq]
    by_cases hm : 1 ≤ s.mlen.toNat
    all_goals simp [hm, firstFailingClass, lengthsFit, domainReady, inputFormFits, outputFits, keyInRange, readsMessage,
      needsDomain, Config.c3Len]
    congr
  | _ =>
    simp only [Instr.WellFormed, decide_eq_true_eq] at hw
    simp only [checks, firstFailing, ctxCheck, idlenCheck, mlenCheck, domokCheck, flatLenCheck, formLenCheck,
      decryptFitCheck, formFitCheck, keyCheck, signKeyCheck, decide_eq_true_eq]
    simp [hw, firstFailingClass, lengthsFit, domainReady, inputFormFits, outputFits, keyInRange, readsMessage,
      needsDomain, KeyForm.length, Config.c3Len, ite_and] <;> congr

/-- An error in `CHECK` zeroes no register (60 R256 step 1). -/
theorem raise_of_check (ds : List OpReg) (k : ErrKind) {s : State} (hs : s.seq = .check) : raise ds k s = Failed k s := by
  rw [raise_eq, if_pos hs]
  rfl

theorem exec_failedClass {i : Instr} {s : State} {k : ErrKind} (hs : s.seq = .check)
    (hw : i.WellFormed s.cfg.nctx = true) (hk : firstFailingClass i s = some k) : exec i s = .next (Failed k s) := by
  rw [exec_failedCheck hs ((firstFailing_checks hw).trans hk), raise_of_check _ _ hs]

/-- Settles O31, by the first class that fails. -/
theorem prechecksInOrder : Obligations.PrechecksInOrder := by
  intro i s hs hw
  refine ⟨fun hb => ?_, fun hb hc => ?_, fun hb hc hd => ?_, fun hb hc hd he => ?_, fun hp => ?_⟩
  · exact exec_failedClass hs hw (if_neg hb)
  · exact exec_failedClass hs hw (by rw [firstFailingClass, if_pos hb, if_neg hc])
  · exact exec_failedClass hs hw (by rw [firstFailingClass, if_pos hb, if_pos hc, if_neg hd])
  · exact exec_failedClass hs hw (by rw [firstFailingClass, if_pos hb, if_pos hc, if_pos hd, if_neg he])
  · exact exec_enter hs ((firstFailing_checks_eq_none_iff i s).2 hp)

end Sys2Proof.Machine
end

/-! SUPPORT. The domain invariant (70 R296): no command writes a domain register, a write of the host to one clears `DOMOK`,
and `DOM_CHECK` sets `DOMOK` for a valid domain only. -/
section
namespace Sys2Proof.Machine

/-- The domain is a matter of the domain registers and `DOM_BITS` (10 R37). -/
theorem dom_eq_of_regs {s t : State} (hregs : ∀ r, r.isDomain = true → t.regs.get r = s.regs.get r)
    (hbits : t.domBits = s.domBits) : t.dom = s.dom := by
  simp only [State.dom, Domain.mk.injEq, hbits, and_true]
  exact ⟨hregs .domP rfl, hregs .domA rfl, hregs .domB rfl, hregs .domGx rfl, hregs .domGy rfl, hregs .domN rfl⟩

/-- The default domain fits the registers it is loaded into (10 R44). -/
theorem dom_resetWith {c : Config.Params} (h : c.sized = true) : (State.resetWith c).dom = c.defaultDomain := by
  have hbits : c.defaultDomain.bits % 2 ^ 32 = c.defaultDomain.bits := by
    obtain ⟨-, -, hop, -, -, -, -, -, -, -, -, -, -, -, hle, -⟩ := Config.Params.sized_spec h
    exact Nat.mod_eq_of_lt (by omega)
  rw [State.dom, State.resetWith, BitVec.toNat_ofNat, hbits]
  rfl

theorem domainInv_resetWith {c : Config.Params} (h : ParamsLegal c) : DomainInv (State.resetWith c) where
  params := h
  checked _ := by
    rw [DomainValid, dom_resetWith h.1]
    exact h.2

/-- Settles O25, by evaluating the reset state, whose domain is the default one. -/
theorem resetMeetsTheLaunchPremises : Obligations.ResetMeetsTheLaunchPremises :=
  ⟨fun _ => ⟨⟨rfl, rfl, rfl⟩, rfl, rfl⟩, fun _ h => ⟨(domainInv_resetWith h).checked rfl, domainInv_resetWith h⟩⟩

/-- An update keeps the invariant when a domain that it leaves checked is the one it found, checked before or valid. -/
theorem DomainInv.of_checked {s t : State} (h : DomainInv s) (hcfg : t.cfg = s.cfg)
    (hok : t.domok = true → t.dom = s.dom ∧ (s.domok = true ∨ DomainValid s)) : DomainInv t where
  params := hcfg ▸ h.params
  checked ht := by
    obtain ⟨hdom, hs⟩ := hok ht
    rw [DomainValid, hcfg, hdom]
    exact hs.elim h.checked id

/-- The invariant says nothing of the log, the control bits and the model's own fields. -/
theorem DomainInv.withUnread {s : State} (h : DomainInv s) (e : Word) (ie d : Bool) (r : List RngAnswer) (a : List Move)
    (b : BusReply) : DomainInv { s with errlog := e, ie := ie, done := d, rng := r, agenda := a, reply := b } :=
  ⟨h.params, h.checked⟩

/-- No command writes a domain register (10 R36, R37). -/
theorem isDomain_of_mem_writes {i : Instr} {r : OpReg} (h : r ∈ writes i) : r.isDomain = false := by
  revert r
  cases i <;> simp [writes, OpReg.isDomain]

theorem turn_dom {i : Instr} {s s' : State} (h : turn i s = some s') : s'.dom = s.dom := by
  have hf := Framed.ofTurn h
  refine dom_eq_of_regs (fun r hr => hf.regs r fun hw => ?_) (by rw [hf.frame])
  exact Bool.false_ne_true ((isDomain_of_mem_writes hw).symm.trans hr)

/-- A turn leaves `DOMOK` set only where it was set or where the domain is valid (41 R139). -/
theorem turn_domok {i : Instr} {s s' : State} (h : turn i s = some s') (hok : s'.domok = true) :
    s.domok = true ∨ DomainValid s := by
  cases turn_cases h with
  | moved => exact .inl hok
  | failed k t x r d _ hd =>
    have hd' : d = true := (raise_domok _ _ _).symm.trans hok
    rcases hd with rfl | ⟨-, rfl⟩
    · exact .inl hd'
    · cases hd'
  | ended s1 he =>
    have hs1 : s1.domok = true := hok
    by_cases hi : i = .domCheck
    · exact (he.domokValid hi).imp (fun hs => hs.symm.trans hs1) fun hv => hv.symm.trans hs1
    · exact .inl ((he.domok hi).symm.trans hs1)

theorem DomainInv.turn {i : Instr} {s s' : State} (ht : turn i s = some s') (h : DomainInv s) : DomainInv s' :=
  h.of_checked (by rw [(Framed.ofTurn ht).frame]) fun hok => ⟨turn_dom ht, turn_domok ht hok⟩

theorem DomainInv.illegalRun (s : State) (h : DomainInv s) : DomainInv (illegalRun s) := by
  rcases illegalRun_cases s with ⟨_, hs⟩ | ⟨_, hs⟩ | hs <;> rw [hs]
  · refine h.of_checked (raise_cfg _ _ _) fun hok => ⟨?_, .inl ((raise_domok _ _ _).symm.trans hok)⟩
    exact dom_eq_of_regs (fun _ _ => raise_regs_get_of_notMem _ _ List.not_mem_nil) (raise_domBits _ _ _)
  · exact ⟨h.params, h.checked⟩
  · exact h

theorem DomainInv.rngMove {s : State} (h : DomainInv s) (a : RngAnswer) : DomainInv (rngMove a s) := by
  unfold Machine.rngMove
  split
  · exact h.withUnread s.errlog s.ie s.done [a] s.agenda s.reply
  · exact h

theorem DomainInv.resetCore {s : State} (h : DomainInv s) : DomainInv (resetCore s) :=
  (domainInv_resetWith h.params).withUnread _ _ _ _ s.agenda s.reply

theorem placeWrite_cfg (v : Word) (s : State) (p : Place) : (placeWrite v s p).cfg = s.cfg := by
  rcases placeWrite_cases v s p with ⟨_, h⟩ | h <;> rw [h]
  rfl

/-- A write that is to no place of the domain leaves the domain (10 R37). -/
theorem placeWrite_dom (v : Word) (s : State) {p : Place} (hp : p.isDomain = false) :
    (placeWrite v s p).dom = s.dom := by
  cases p with
  | domBits => cases hp
  | opWord r i =>
    refine dom_eq_of_regs (fun r' hr' => opWordWrite_get_ne s ?_ i v) ?_
    · rintro rfl
      exact Bool.false_ne_true (hp.symm.trans hr')
    · rw [placeWrite, opWordWrite_eq]
  | bufWord b a => cases b <;> rfl
  | _ => rfl

theorem DomainInv.placeWrite {s : State} (h : DomainInv s) (v : Word) (p : Place) : DomainInv (placeWrite v s p) := by
  refine h.of_checked (placeWrite_cfg v s p) fun hok => ?_
  rw [placeWrite_domok] at hok
  cases hp : p.isDomain with
  | true => simp [hp] at hok
  | false => exact ⟨placeWrite_dom v s hp, .inl (by simpa [hp] using hok)⟩

theorem DomainInv.busWrite {s : State} (h : DomainInv s) (off : Nat) (v : Word) : DomainInv (busWrite off v s) := by
  unfold Machine.busWrite
  split
  · unfold ctrlWrite
    split
    · exact h.resetCore
    · exact h.withUnread s.errlog _ _ s.rng s.agenda s.reply
  · split
    · exact h.withUnread _ s.ie s.done s.rng s.agenda s.reply
    · exact h.placeWrite v _

theorem DomainInv.hostMove {s : State} (h : DomainInv s) (m : HostMove) : DomainInv (hostMove m s) := by
  cases m with
  | rst => exact h.resetCore
  | read width off =>
    unfold Machine.hostMove
    dsimp only
    split
    · exact h.withUnread s.errlog s.ie s.done s.rng s.agenda _
    · exact h.withUnread _ s.ie s.done s.rng s.agenda _
  | write width off v =>
    unfold Machine.hostMove
    dsimp only
    split
    · exact (h.busWrite off v).withUnread _ _ _ _ _ _
    · exact h.withUnread _ s.ie s.done s.rng s.agenda _

/-- Settles O22: every agent's move keeps the invariant. -/
theorem stepKeepsDomainInv : Obligations.StepKeepsDomainInv := by
  intro s t h hstep
  have hrest : ∀ rest, DomainInv { s with agenda := rest } :=
    fun rest => h.withUnread s.errlog s.ie s.done s.rng rest s.reply
  rcases step_cases hstep with ⟨m, rest, -, rfl⟩ | ⟨a, rest, -, rfl⟩ | ⟨rest, hc⟩
  · exact (hrest rest).hostMove m
  · exact (hrest rest).rngMove a
  · exact coreTurn_keeps (fun _ _ _ _ => DomainInv.turn) DomainInv.illegalRun hc (hrest rest)

end Sys2Proof.Machine
end

/-! SUPPORT. On the path of its command the CORE's turn has an outcome at either granularity, and the two agree (70 R293,
R295). -/
section
namespace Sys2Proof.Machine

/-- The sequencer stands where the command in `CUR` can stand. -/
theorem OnPath.owns {i : Instr} {s : State} (h : OnPath s) (hd : decode s.cfg.nctx s.cur = some i) :
    owns i s.seq = true := by
  rcases h with hs | hs
  · rw [hs]
    exact owns_idle i
  · rwa [hd] at hs

/-- The sequencer stands where an illegal word can stand (30 R85). -/
theorem OnPath.illegalOwns {s : State} (h : OnPath s) (hd : decode s.cfg.nctx s.cur = none) :
    illegalOwns s.seq = true := by
  rcases h with hs | hs
  · rw [hs]
    rfl
  · rwa [hd] at hs

theorem execIllegal_of_illegalOwns {s : State} (h : illegalOwns s.seq = true) : execIllegal s = .next (illegalRun s) :=
  if_pos h

theorem illegalRun_idle {s : State} (h : s.seq = .idle) : illegalRun s = s := by
  simp [illegalRun, h]

theorem illegalRun_seq {s : State} (h : illegalOwns s.seq = true) : (illegalRun s).seq = .idle := by
  have hs : s.seq = .idle ∨ s.seq = .check ∨ s.seq = .finish := by simpa [Machine.illegalOwns, or_assoc] using h
  rcases hs with hs | hs | hs
  · rwa [illegalRun_idle hs]
  · simp [illegalRun, hs]
  · simp [illegalRun, hs]

/-- The turn of the CORE on an illegal word; in `IDLE` there is nothing to do (30 R85). -/
theorem runCore_eq_execIllegal {s : State} (hd : decode s.cfg.nctx s.cur = none) : runCore s = execIllegal s := by
  by_cases hs : s.seq = .idle
  · rw [runCore_idle hs, execIllegal_of_illegalOwns (by rw [hs]; rfl), illegalRun_idle hs]
  · exact runCore_illegal hs hd

/-- In `IDLE` a run is over before its first turn, so the CORE's turn is the run of the command in `CUR`. -/
theorem runCore_eq_exec {i : Instr} {s : State} (hd : decode s.cfg.nctx s.cur = some i) : runCore s = exec i s := by
  by_cases hs : s.seq = .idle
  · rw [runCore_idle hs, exec_idle hs]
  · exact runCore_legal hs hd

theorem tickCore_eq_execIllegal {s : State} (hd : decode s.cfg.nctx s.cur = none) : tickCore s = execIllegal s := by
  rw [tickCore, hd]

theorem OnPath.runCore_next {s : State} (h : OnPath s) : ∃ t, runCore s = .next t := by
  cases hd : decode s.cfg.nctx s.cur with
  | none => exact ⟨_, (runCore_eq_execIllegal hd).trans (execIllegal_of_illegalOwns (h.illegalOwns hd))⟩
  | some i => exact ⟨_, (runCore_eq_exec hd).trans (exec_next (h.owns hd))⟩

theorem OnPath.tickCore_next {s : State} (h : OnPath s) : ∃ t, tickCore s = .next t := by
  cases hd : decode s.cfg.nctx s.cur with
  | none => exact ⟨_, (tickCore_eq_execIllegal hd).trans (execIllegal_of_illegalOwns (h.illegalOwns hd))⟩
  | some i => exact ⟨_, tickCore_legal hd (h.owns hd)⟩

/-- Settles O26: a host or a port always moves, and on its path so does the CORE. -/
theorem stepNeverStops : Obligations.StepNeverStops := by
  intro s h
  have hrest : ∀ rest, OnPath { s with agenda := rest } := fun _ => h.onPath
  unfold step
  split
  · exact h.onPath.runCore_next
  · exact (hrest _).runCore_next
  · exact (hrest _).tickCore_next
  · exact ⟨_, rfl⟩
  · exact ⟨_, rfl⟩

/-- Where one turn leaves the CORE as it is, any number of them does. -/
theorem ticks_of_stays {s : State} (h : tickCore s = .next s) (n : Nat) : ticks n s = .next s := by
  induction n with
  | zero => rfl
  | succ n ih => rwa [ticks, h]

theorem tickCore_idle {s : State} (h : s.seq = .idle) : tickCore s = .next s := by
  cases hd : decode s.cfg.nctx s.cur with
  | none => rw [tickCore_eq_execIllegal hd, execIllegal_of_illegalOwns (by rw [h]; rfl), illegalRun_idle h]
  | some i => rw [tickCore_legal hd (by rw [h]; exact owns_idle i), turn_idle h, Option.getD_none]

/-- One turn ends an illegal word (30 R85), and the CORE then stays idle. -/
theorem ticks_illegal {s : State} (hd : decode s.cfg.nctx s.cur = none) (ho : illegalOwns s.seq = true) (n : Nat) :
    ticks (n + 1) s = .next (illegalRun s) := by
  rw [ticks, tickCore_eq_execIllegal hd, execIllegal_of_illegalOwns ho]
  exact ticks_of_stays (tickCore_idle (illegalRun_seq ho)) n

/-- n turns of the CORE are n turns of the command in `CUR`, fewer when there is no move (70 R293). -/
theorem ticks_legal {i : Instr} {s : State} (hd : decode s.cfg.nctx s.cur = some i) (ho : owns i s.seq = true) (n : Nat) :
    ticks n s = .next (runTurns (turn i) n s) := by
  induction n generalizing s with
  | zero => rfl
  | succ n ih =>
    have htick := tickCore_legal hd ho
    cases ht : turn i s with
    | none =>
      rw [ht, Option.getD_none] at htick
      rw [ticks_of_stays htick, runTurns, ht]
    | some s' =>
      rw [ticks, htick, ht, Option.getD_some, runTurns, ht]
      exact ih ((turn_decode ht).trans hd) (turn_owns ht)

/-- Settles O29: one turn is enough for an illegal word, and as many as the fuel of a run for a command. -/
theorem ticksRefineTheRun : Obligations.TicksRefineTheRun := by
  intro s h
  cases hd : decode s.cfg.nctx s.cur with
  | none =>
    have ho := h.illegalOwns hd
    refine ⟨1, fun m hm => ?_⟩
    obtain ⟨n, rfl⟩ := Nat.exists_eq_add_of_le' hm
    rw [ticks_illegal hd ho, runCore_eq_execIllegal hd, execIllegal_of_illegalOwns ho]
  | some i =>
    have ho := h.owns hd
    refine ⟨s.fuel, fun m hm => ?_⟩
    rw [ticks_legal hd ho, runCore_eq_exec hd, exec_next ho, runTurns_enough hm le_rfl]

end Sys2Proof.Machine
end

/-! SUPPORT. How a run ends: in `IDLE`, or at a draw that the RNG port has not answered (70 R290, R294). -/
section
namespace Sys2Proof.Machine

/-- A command ends only through `FINISH` (30 R84 (4)). -/
theorem turn_to_idle {i : Instr} {s s' : State} (h : turn i s = some s') (hs : s'.seq = .idle) :
    s'.done = true ∧ s'.tmp = Temps.cleared ∧ s'.hi = HashCtx.init := by
  cases turn_cases h with
  | moved q t x r hq => exact absurd (hs ▸ hq) (idle_notMem_path i)
  | failed => exact ⟨raise_done _ _ _, raise_tmp _ _ _, raise_hi _ _ _⟩
  | ended => exact ⟨rfl, rfl, rfl⟩

theorem exec_to_idle {i : Instr} {s t : State} (he : exec i s = .next t) (hs : s.seq ≠ .idle) (ht : t.seq = .idle) :
    t.done = true ∧ t.tmp = Temps.cleared ∧ t.hi = HashCtx.init :=
  exec_keeps (P := fun u => u.seq = .idle → u.done = true ∧ u.tmp = Temps.cleared ∧ u.hi = HashCtx.init)
    (fun _ _ _ hturn => turn_to_idle hturn) (fun hidle => absurd hidle hs) he ht

/-- Where a draw finds no answer, and the limit allows it, a request is outstanding (41 R137). -/
theorem rngWaiting_of_drawState {i : Instr} {s : State} (h : drawState i = some s.seq) (hrng : s.rng = [])
    (hlimit : overLimit s.cfg.retryLimit (s.tmp.tries + 1) = false) : s.rngWaiting = true := by
  refine (rngWaiting_iff s).2 ⟨?_, hrng, hlimit⟩
  obtain ⟨-, hq⟩ | ⟨-, hq⟩ | ⟨-, hq⟩ := drawState_cases h <;> simp [hq]

/-- Settles O27: a run goes on until there is no move, which is in `IDLE` or at an unanswered draw. -/
theorem runEndsOrWaitsForTheRng : Obligations.RunEndsOrWaitsForTheRng := by
  intro i s ho
  obtain ⟨t, he⟩ : ∃ t, exec i s = .next t := ⟨_, exec_next ho⟩
  have hown := exec_owns he
  have hend := exec_ends he
  refine ⟨t, he, ?_⟩
  rcases turn_none hown hend with hidle | ⟨hdraw, hrng, hlimit⟩
  · exact ⟨.inl ⟨hidle, fun hs => exec_to_idle he hs hidle⟩, fun _ => hidle⟩
  · refine ⟨.inr ⟨hdraw, hrng, hlimit, exec_of_none hown hend⟩, fun hports => ?_⟩
    exact absurd (rngWaiting_of_drawState hdraw hrng hlimit) (Bool.eq_false_iff.1 (hports t he))

end Sys2Proof.Machine
end
